-- ==== Sys2Proof/Word.lean ====
section
/-! DEFINITION. The word types of the block (spec/00_scope.md R8, R10; spec/20_memory.md R100). -/

namespace Sys2Proof

/-- One byte lane of a bus word (R105). -/
abbrev Byte := BitVec 8

/-- A bus word, a command word, and the 32-bit encoding of a binary32 value (R10, R11, R100). -/
abbrev Word := BitVec 32

/-- The 64-bit encoding of a binary64 value (R12, R41). -/
abbrev DWord := BitVec 64

/-- A bus byte address: `ADDR_BITS` = 16 (R8, R100). -/
abbrev BusAddr := BitVec 16

/-- A unit id, the `UNIT` field of a command word (R14, R131). -/
abbrev UnitId := BitVec 8

end Sys2Proof
end

