-- ==== Sys2Proof/Syntax.lean ====
section
/-! DEFINITION. The 19 commands of spec/opcode_table.json, in the table's order (spec/30_encoding.md R134). -/

namespace Sys2Proof

/-- The two engines (spec/10_state.md R40); the `UNIT` field of PREPARE selects one. -/
inductive EngineKind where
  | hall
  | plate
deriving DecidableEq, Repr

/-- A command, one constructor per row of spec/opcode_table.json. `u` is the `UNIT` field as it stands in the word:
whether it names a unit of the prepared engine is checked when the command runs (R140 step 3), not when it is decoded. -/
inductive Instr where
  | dlPush (u : UnitId)
  | dlPopFixed (u : UnitId) (k : BitVec 16)
  | dlReadFrac (u : UnitId)
  | dlInfo (u : UnitId)
  | apProcess (u : UnitId)
  | apSetGain (u : UnitId)
  | apInfo (u : UnitId)
  | lfoTick (u : UnitId)
  | lfoReset (u : UnitId)
  | lfoInfo (u : UnitId)
  | dampProcess (u : UnitId)
  | dampInfo (u : UnitId)
  | nop
  | prepare (engine : EngineKind)
  | reset
  | setParams
  | getParam (index : BitVec 16)
  | processBlock (numSamples : BitVec 16)
  | engInfo (u : UnitId)
deriving DecidableEq, Repr

end Sys2Proof
end

