-- ==== Sys2Proof/WellFormed.lean ====
section
/-! DEFINITION. Well-formedness of a command as syntax: the field values its row of spec/30_encoding.md R134 admits. -/

namespace Sys2Proof

/-- The parameter index of GET_PARAM is 0 to 6 (R134, R140 step 1). -/
def paramIndexOk (index : BitVec 16) : Bool := decide (index.toNat ≤ 6)

/-- A command the opcode map admits. Every `UNIT` byte and every other `IMM` value is admitted by the encoding. -/
def Instr.wellFormed : Instr → Bool
  | .dlPush _ => true
  | .dlPopFixed _ _ => true
  | .dlReadFrac _ => true
  | .dlInfo _ => true
  | .apProcess _ => true
  | .apSetGain _ => true
  | .apInfo _ => true
  | .lfoTick _ => true
  | .lfoReset _ => true
  | .lfoInfo _ => true
  | .dampProcess _ => true
  | .dampInfo _ => true
  | .nop => true
  | .prepare _ => true
  | .reset => true
  | .setParams => true
  | .getParam index => paramIndexOk index
  | .processBlock _ => true
  | .engInfo _ => true

end Sys2Proof
end

