-- ==== Sys2Proof/Decode.lean ====
section
/-! DEFINITION. Command words to commands and back (spec/30_encoding.md R130 to R141). -/

namespace Sys2Proof

/-- The `OPC` field (R131). -/
def opcOf (v : Word) : BitVec 8 := v.extractLsb' 24 8

/-- The `UNIT` field (R131). -/
def unitOf (v : Word) : UnitId := v.extractLsb' 16 8

/-- The `IMM` field (R131, R132). -/
def immOf (v : Word) : BitVec 16 := v.extractLsb' 0 16

/-- `word = {OPC[7:0], UNIT[7:0], IMM[15:0]}` (R131). -/
def commandWord (opc : BitVec 8) (u : UnitId) (imm : BitVec 16) : Word := opc ++ u ++ imm

/-- Why a word is no command: the line of R140 step 1 that refuses it. Each raises `Fault(1, v)`. -/
inductive DecodeError where
  /-- The opcode is in no row of R134 (R141). -/
  | reservedOpcode
  /-- A field that the row requires to be 0 is not (R140 step 1). -/
  | nonzeroField
  /-- PREPARE with `UNIT > 0x01`. -/
  | badEngineSelect
  /-- GET_PARAM with `IMM > 6`. -/
  | badParamIndex
deriving DecidableEq, Repr

/-- A row that takes a unit and requires `IMM = 0`. -/
def unitRow (v : Word) (mk : UnitId → Instr) : Except DecodeError Instr :=
  if immOf v = 0 then .ok (mk (unitOf v)) else .error .nonzeroField

/-- A row that requires `UNIT = 0` and `IMM = 0`. -/
def bareRow (v : Word) (i : Instr) : Except DecodeError Instr :=
  if unitOf v = 0 ∧ immOf v = 0 then .ok i else .error .nonzeroField

/-- The PREPARE row: `UNIT` selects the engine and `IMM = 0`. -/
def prepareRow (v : Word) : Except DecodeError Instr :=
  if immOf v = 0 then
    if unitOf v = 0x00 then .ok (.prepare .hall)
    else if unitOf v = 0x01 then .ok (.prepare .plate)
    else .error .badEngineSelect
  else .error .nonzeroField

/-- The GET_PARAM row: `UNIT = 0` and `IMM` is a parameter index. -/
def getParamRow (v : Word) : Except DecodeError Instr :=
  if unitOf v = 0 then
    if paramIndexOk (immOf v) then .ok (.getParam (immOf v)) else .error .badParamIndex
  else .error .nonzeroField

/-- The PROCESS_BLOCK row: `UNIT = 0` and `IMM` is `numSamples`. -/
def processBlockRow (v : Word) : Except DecodeError Instr :=
  if unitOf v = 0 then .ok (.processBlock (immOf v)) else .error .nonzeroField

/-- Decoding, step 1 of R140: total, and every refusal is by name. -/
def decode (v : Word) : Except DecodeError Instr :=
  match (opcOf v).toNat with
  | 0x00 => bareRow v .nop
  | 0x01 => prepareRow v
  | 0x02 => bareRow v .reset
  | 0x03 => bareRow v .setParams
  | 0x04 => getParamRow v
  | 0x05 => processBlockRow v
  | 0x06 => unitRow v .engInfo
  | 0x10 => unitRow v .dlPush
  | 0x11 => .ok (.dlPopFixed (unitOf v) (immOf v))
  | 0x12 => unitRow v .dlReadFrac
  | 0x13 => unitRow v .dlInfo
  | 0x20 => unitRow v .apProcess
  | 0x21 => unitRow v .apSetGain
  | 0x22 => unitRow v .apInfo
  | 0x30 => unitRow v .lfoTick
  | 0x31 => unitRow v .lfoReset
  | 0x32 => unitRow v .lfoInfo
  | 0x40 => unitRow v .dampProcess
  | 0x41 => unitRow v .dampInfo
  | _ => .error .reservedOpcode

/-- The `UNIT` byte that selects an engine in PREPARE (R134, R146). -/
def engineSelect : EngineKind → UnitId
  | .hall => 0x00
  | .plate => 0x01

/-- The opcode of a command (R134). -/
def Instr.opc : Instr → BitVec 8
  | .dlPush _ => 0x10
  | .dlPopFixed _ _ => 0x11
  | .dlReadFrac _ => 0x12
  | .dlInfo _ => 0x13
  | .apProcess _ => 0x20
  | .apSetGain _ => 0x21
  | .apInfo _ => 0x22
  | .lfoTick _ => 0x30
  | .lfoReset _ => 0x31
  | .lfoInfo _ => 0x32
  | .dampProcess _ => 0x40
  | .dampInfo _ => 0x41
  | .nop => 0x00
  | .prepare _ => 0x01
  | .reset => 0x02
  | .setParams => 0x03
  | .getParam _ => 0x04
  | .processBlock _ => 0x05
  | .engInfo _ => 0x06

/-- The `UNIT` field of a command (R134): 0 where the row requires 0. -/
def Instr.unitField : Instr → UnitId
  | .dlPush u => u
  | .dlPopFixed u _ => u
  | .dlReadFrac u => u
  | .dlInfo u => u
  | .apProcess u => u
  | .apSetGain u => u
  | .apInfo u => u
  | .lfoTick u => u
  | .lfoReset u => u
  | .lfoInfo u => u
  | .dampProcess u => u
  | .dampInfo u => u
  | .nop => 0
  | .prepare engine => engineSelect engine
  | .reset => 0
  | .setParams => 0
  | .getParam _ => 0
  | .processBlock _ => 0
  | .engInfo u => u

/-- The `IMM` field of a command (R132, R134): 0 where the row requires 0. -/
def Instr.immField : Instr → BitVec 16
  | .dlPush _ => 0
  | .dlPopFixed _ k => k
  | .dlReadFrac _ => 0
  | .dlInfo _ => 0
  | .apProcess _ => 0
  | .apSetGain _ => 0
  | .apInfo _ => 0
  | .lfoTick _ => 0
  | .lfoReset _ => 0
  | .lfoInfo _ => 0
  | .dampProcess _ => 0
  | .dampInfo _ => 0
  | .nop => 0
  | .prepare _ => 0
  | .reset => 0
  | .setParams => 0
  | .getParam index => index
  | .processBlock numSamples => numSamples
  | .engInfo _ => 0

/-- The command word of a command (R131, R134, R146). -/
def encode (i : Instr) : Word := commandWord i.opc i.unitField i.immField

/-- Decoding of a command laid out in memory, little-endian, least significant byte first (R105): the command and the
bytes after it. Fewer than four bytes are no command word. DESIGN CHOICE, log 18: the block itself never fetches bytes. -/
def decodeBytes : List Byte → Option (Instr × List Byte)
  | b0 :: b1 :: b2 :: b3 :: rest =>
    match decode (b3 ++ b2 ++ b1 ++ b0) with
    | .ok i => some (i, rest)
    | .error _ => none
  | _ => none

/-- The command the decoder reads from the table's bits `w`: the command word is one 32-bit word, bit 0 its least
significant bit, and the bits above `nbits` are 0 (log 18). -/
def decodeTableWord (nbits w : Nat) : Option Instr :=
  match decode (BitVec.ofNat 32 (w % 2 ^ nbits)) with
  | .ok i => some i
  | .error _ => none

end Sys2Proof
end

