-- ==== Sys2Proof/Config.lean ====
section
/-! DEFINITION. What an implementation fixes (spec/00_scope.md R8, R9; spec/10_state.md R56, R60), the free values of
the model (spec/93_implementation_defined.md I13, I15, I17, I18), and the index types the state is built over. -/

namespace Sys2Proof

/-- A channel or stage index 0 or 1: channel 0 is L, channel 1 is R (R331); stage 0 takes the cascade's input (R137). -/
inductive Ix2 where
  | i0
  | i1
deriving DecidableEq, Repr

/-- A line or stage index 0 to 3. -/
inductive Ix4 where
  | i0
  | i1
  | i2
  | i3
deriving DecidableEq, Repr

/-- Two like things, indexed 0 and 1. -/
structure Pair (α : Type) where
  v0 : α
  v1 : α
deriving DecidableEq, Repr

/-- Four like things, indexed 0 to 3. -/
structure Quad (α : Type) where
  v0 : α
  v1 : α
  v2 : α
  v3 : α
deriving DecidableEq, Repr

/-- The seven parameters, in the order of their indices (R45). -/
inductive ParamIdx where
  | roomSize
  | decayTime
  | damping
  | modRate
  | modDepth
  | preDelay
  | mix
deriving DecidableEq, Repr

/-- One value per parameter (R43, R45). -/
structure ParamSet (α : Type) where
  roomSize : α
  decayTime : α
  damping : α
  modRate : α
  modDepth : α
  preDelay : α
  mix : α
deriving DecidableEq, Repr

/-- The tuned constants (R60). A `Word` is a binary32 encoding, a `DWord` a binary64 encoding. The engine functions
take a preset, so that a statement may quantify over presets (R56). -/
structure Preset where
  slew : Word
  fbClamp : DWord
  apGainMax : Word
  hpEnable : Bool
  hpCutoffHz : DWord
  psyRatio : DWord
  hallEarlyMs : Pair (Pair DWord)
  hallEarlyG : Word
  hallLateMs : Pair (Pair DWord)
  hallLateG : Word
  hallTankMs : Pair DWord
  hallTankIn : Word
  hallModFrac : Word
  hallModFrac64 : DWord
  hallCrossfeed : Word
  plateEarlyMs : Pair (Quad DWord)
  plateEarlyG : Word
  plateFdnMs : Quad DWord
  plateInj : Quad Word
  plateModFrac : Word
  plateModFrac64 : DWord
  plateMatrixScale : Word
  plateStretch : DWord
  plateOutA : Word
  plateOutB : Word
  plateMakeup : Word
  platePreROffsetMs : DWord
  preMaxMs : DWord
  roomMax : DWord
deriving DecidableEq, Repr

/-- `cfg.exp64` (R9): the binary64 exponential, left open by the spec; nothing is assumed of it (log 1). -/
opaque Config.exp64 : DWord → DWord

/-- `cfg.sin32` (R9): the binary32 sine, left open by the spec; nothing is assumed of it (log 1). -/
opaque Config.sin32 : Word → Word

/-- Free value (I15): the byte that audio memory holds at byte address `addr` after the `epoch`-th hardware reset, until
it is written (log 4). -/
opaque Config.audioInit (epoch addr : Nat) : Byte

/-- Free value (I17): what the `n`-th read of a result register or of audio memory under BUSY returns (log 5). -/
opaque Config.freeWord (n : Nat) : Word

/-- Free value (I18): which of the values a staging register has held the pending SET_PARAMS takes (log 6). -/
opaque Config.raceChoice (n : Nat) (p : ParamIdx) : Nat

end Sys2Proof
end

