-- ==== Sys2Proof/Machine/Indexed.lean ====
section
/-! DEFINITION. Reading and writing the indexed groups of like things of the state. -/

namespace Sys2Proof

def Pair.get {α : Type} (p : Pair α) : Ix2 → α
  | .i0 => p.v0
  | .i1 => p.v1

def Pair.set {α : Type} (p : Pair α) (i : Ix2) (a : α) : Pair α :=
  match i with
  | .i0 => { p with v0 := a }
  | .i1 => { p with v1 := a }

def Pair.map {α β : Type} (f : α → β) (p : Pair α) : Pair β := ⟨f p.v0, f p.v1⟩

def Pair.zipWith {α β γ : Type} (f : α → β → γ) (p : Pair α) (q : Pair β) : Pair γ := ⟨f p.v0 q.v0, f p.v1 q.v1⟩

def Quad.get {α : Type} (p : Quad α) : Ix4 → α
  | .i0 => p.v0
  | .i1 => p.v1
  | .i2 => p.v2
  | .i3 => p.v3

def Quad.set {α : Type} (p : Quad α) (i : Ix4) (a : α) : Quad α :=
  match i with
  | .i0 => { p with v0 := a }
  | .i1 => { p with v1 := a }
  | .i2 => { p with v2 := a }
  | .i3 => { p with v3 := a }

def Quad.map {α β : Type} (f : α → β) (p : Quad α) : Quad β := ⟨f p.v0, f p.v1, f p.v2, f p.v3⟩

def Quad.zipWith {α β γ : Type} (f : α → β → γ) (p : Quad α) (q : Quad β) : Quad γ :=
  ⟨f p.v0 q.v0, f p.v1 q.v1, f p.v2 q.v2, f p.v3 q.v3⟩

def ParamSet.get {α : Type} (s : ParamSet α) : ParamIdx → α
  | .roomSize => s.roomSize
  | .decayTime => s.decayTime
  | .damping => s.damping
  | .modRate => s.modRate
  | .modDepth => s.modDepth
  | .preDelay => s.preDelay
  | .mix => s.mix

def ParamSet.set {α : Type} (s : ParamSet α) (p : ParamIdx) (a : α) : ParamSet α :=
  match p with
  | .roomSize => { s with roomSize := a }
  | .decayTime => { s with decayTime := a }
  | .damping => { s with damping := a }
  | .modRate => { s with modRate := a }
  | .modDepth => { s with modDepth := a }
  | .preDelay => { s with preDelay := a }
  | .mix => { s with mix := a }

/-- The parameter set whose field `p` is `f p`. -/
def ParamSet.ofFn {α : Type} (f : ParamIdx → α) : ParamSet α :=
  ⟨f .roomSize, f .decayTime, f .damping, f .modRate, f .modDepth, f .preDelay, f .mix⟩

/-- The parameter of an index of R45; none above 6. -/
def paramIdxOf : Nat → Option ParamIdx
  | 0 => some .roomSize
  | 1 => some .decayTime
  | 2 => some .damping
  | 3 => some .modRate
  | 4 => some .modDepth
  | 5 => some .preDelay
  | 6 => some .mix
  | _ => none

end Sys2Proof
end

