-- ==== Sys2Proof/Machine/State.lean ====
section
/-! DEFINITION. The state of the block (spec/10_state.md) and its value after hardware reset (spec/70_reset_and_hazards.md
R380), and the reasons a step of the model can stop. -/

namespace Sys2Proof.Machine

/-- One step of the environment (R6, R100, R112, R380). The host's accesses come in program order (R110). -/
inductive BusEvent where
  /-- `MemRead(addr, 4)`. -/
  | read (addr : BusAddr)
  /-- `MemWrite(addr, 4, v)`. -/
  | write (addr : BusAddr) (v : Word)
  /-- The core gets its turn: it takes the pending command's step, if one is pending (R112, R396). -/
  | coreTurn
  /-- The reset input is asserted (R380). -/
  | hardwareReset
deriving DecidableEq, Repr

/-- What one host read returned (R100). -/
structure BusRead where
  addr : BusAddr
  value : Word
deriving DecidableEq, Repr

/-- A delay line (R48). `buf` lists the words that are not +0.0, by rising index; an index not listed holds +0.0
(log 11). -/
structure DelayLine where
  /-- Capacity `dl.N`. -/
  N : Nat
  /-- Contents `dl.buf[0..N-1]`. -/
  buf : List (Nat × Word)
  /-- Write cursor `dl.w`. -/
  w : Nat
deriving DecidableEq, Repr

/-- An allpass unit (R49). -/
structure Allpass where
  line : DelayLine
  M : Nat
  g : Word
deriving DecidableEq, Repr

/-- The oscillator (R50). -/
structure Lfo where
  theta : Word
  delta : Word
  depth : Word
deriving DecidableEq, Repr

/-- A damping chain (R47, R51). -/
structure Damp where
  sLP : Word
  sHP : Word
  sPSY : Word
  gLP : Word
  oLP : Word
  gHP : Word
  oHP : Word
  gPSY : Word
  oPSY : Word
  hpEn : Bool
deriving DecidableEq, Repr

/-- The Hall engine's units and registers (R52, R53). -/
structure Hall where
  tank : Pair DelayLine
  early : Pair (Pair Allpass)
  late : Pair (Pair Allpass)
  lfo : Lfo
  damp : Pair Damp
  fb : Pair Word
  dcur : Pair Word
  base : Pair Word
  decay : Word
deriving DecidableEq, Repr

/-- The Plate engine's units and registers (R52, R54). -/
structure Plate where
  fdn : Quad DelayLine
  pre : DelayLine
  early : Pair (Quad Allpass)
  lfo : Lfo
  damp : Quad Damp
  dcur : Quad Word
  base : Quad Word
  g : Word
  preD : Pair Word
deriving DecidableEq, Repr

/-- The one engine that exists (R55). -/
inductive Engine where
  | hall (h : Hall)
  | plate (p : Plate)
deriving DecidableEq, Repr

/-- The prepared configuration `cfg.*` (R41). -/
structure Prepared where
  fs : DWord
  maxBlockSize : Nat
  numChannels : Nat
deriving DecidableEq, Repr

/-- The whole state. The first group is the environment and the last the model's bookkeeping of values the spec leaves
open; everything between is the block's (INVENTORY.md lists each with its rule). -/
structure State where
  /-- Environment: the bus events still to come, the next one first (log 7). -/
  inputs : List BusEvent
  /-- Environment: what the host's reads have returned, newest first (log 9). -/
  hostReads : List BusRead
  /-- `ctl.busy` (R40). -/
  busy : Bool
  /-- `ctl.pending` (R40). -/
  pending : Word
  /-- `cfg.fs`, `cfg.maxBlockSize`, `cfg.numChannels` (R41). -/
  prep : Prepared
  /-- `FAULT[5:0]`, bit `c - 1` for code `c` (R34). -/
  faultBits : BitVec 6
  /-- `FAULT.FIRST_CODE` (R34). -/
  firstCode : BitVec 8
  /-- `FAULT_INFO` (R35). -/
  faultInfo : Word
  /-- `ARG0` to `ARG3` (R37). -/
  arg : Quad Word
  /-- `RES0` to `RES3` (R38). -/
  res : Quad Word
  /-- The staging registers (R39). -/
  stage : ParamSet Word
  /-- The applied parameters `par.*` (R45). -/
  par : ParamSet Word
  /-- The prepared engine; `none` is `ctl.state = UNINIT` (R40, R55; log 10). -/
  engine : Option Engine
  /-- Audio memory by byte address, rising; a byte not listed has not been written since hardware reset (R103; log 4). -/
  audio : List Host.Cell
  /-- The values each staging register held since the pending command was accepted and that a write has replaced,
  newest first (R114, R115; log 6). -/
  stageOld : ParamSet (List Word)
  /-- Draws of free values so far (log 8). -/
  freeCtr : Nat
  /-- Hardware resets so far: which free contents audio memory has (log 8). -/
  audioEpoch : Nat
deriving DecidableEq, Repr

/-- Why the machine stops. There is no such reason: the block has no trap and keeps executing after any fault (R353,
R356), so every fault of the spec is a next state in which it is recorded, and this type has no constructor (log 17). -/
inductive Fault where
deriving DecidableEq, Repr

/-- Why an instruction has no meaning in the model. -/
inductive Refusal where
  /-- Raised by `exec` for an instruction whose meaning is not written yet, by its mnemonic. Safe: the model stops where
  the block goes on. -/
  | notModelled (mnemonic : String)
deriving DecidableEq, Repr

/-- The reset values of the parameters, as binary32 encodings (R39, R45). -/
def parDefaults : ParamSet Word where
  roomSize := 0x3F800000
  decayTime := 0x40000000
  damping := 0x45FA0000
  modRate := 0x3F000000
  modDepth := 0x3F000000
  preDelay := 0x00000000
  mix := 0x3F000000

/-- The state after hardware reset (R380), with an empty environment. -/
def State.reset : State where
  inputs := []
  hostReads := []
  busy := false
  pending := 0
  prep := { fs := 0, maxBlockSize := 0, numChannels := 0 }
  faultBits := 0
  firstCode := 0
  faultInfo := 0
  arg := ⟨0, 0, 0, 0⟩
  res := ⟨0, 0, 0, 0⟩
  stage := parDefaults
  par := parDefaults
  engine := none
  audio := []
  stageOld := ⟨[], [], [], [], [], [], []⟩
  freeCtr := 0
  audioEpoch := 0

end Sys2Proof.Machine
end

