-- ==== Sys2Proof/Machine/Ops.lean ====
section
/-! DEFINITION. The shared operations: sparse cells, audio memory (spec/20_memory.md R103, R105), the one operation that
records a fault (spec/60_exceptions.md R352), result registers, and the checks every command shares (spec/30_encoding.md
R140 steps 2 and 3). -/

namespace Sys2Proof.Machine

/-! ### Sparse cells: values by rising key -/

/-- The value listed at key `a`, if any. -/
def cellsGet {α : Type} : List (Nat × α) → Nat → Option α
  | [], _ => none
  | (k, v) :: rest, a => if k = a then some v else cellsGet rest a

/-- List `v` at key `a`, keeping the keys rising and each key once. -/
def cellsPut {α : Type} (a : Nat) (v : α) : List (Nat × α) → List (Nat × α)
  | [] => [(a, v)]
  | (k, x) :: rest =>
    if a < k then (a, v) :: (k, x) :: rest
    else if a = k then (a, v) :: rest
    else (k, x) :: cellsPut a v rest

/-- Unlist key `a`. -/
def cellsErase {α : Type} (a : Nat) : List (Nat × α) → List (Nat × α)
  | [] => []
  | (k, x) :: rest => if k = a then rest else (k, x) :: cellsErase a rest

/-- Every key is above `lo` and the keys rise strictly. -/
def cellsRisingFrom {α : Type} : Nat → List (Nat × α) → Bool
  | _, [] => true
  | lo, (k, _) :: rest => decide (lo ≤ k) && cellsRisingFrom (k + 1) rest

/-- The keys rise strictly. -/
def cellsRising {α : Type} (m : List (Nat × α)) : Bool := cellsRisingFrom 0 m

/-! ### Audio memory (R103): 32 KiB at 0x8000, little-endian (R105) -/

/-- First byte address of audio memory. -/
def audioBase : Nat := 0x8000

/-- First byte address after audio memory: the end of the 16-bit address space. -/
def audioEnd : Nat := 0x10000

/-- Byte address of word `n` of channel `c` (R103). -/
def audioAddr (c : Ix2) (n : Nat) : Nat :=
  match c with
  | .i0 => 0x8000 + 4 * n
  | .i1 => 0x8000 + 0x4000 + 4 * n

/-- What byte address `a` of audio memory reads as: the byte last written there, or the unspecified content it has had
since hardware reset (R103, I15; log 4). -/
def audioByte (epoch : Nat) (m : List Host.Cell) (a : Nat) : Byte :=
  match cellsGet m a with
  | some b => b
  | none => Config.audioInit epoch a

/-- The word at byte address `a`: byte lane `i` is at `a + i` (R105). -/
def audioWord (epoch : Nat) (m : List Host.Cell) (a : Nat) : Word :=
  audioByte epoch m (a + 3) ++ audioByte epoch m (a + 2) ++ audioByte epoch m (a + 1) ++ audioByte epoch m a

/-- Store word `v` at byte address `a` (R103, R105). -/
def audioPut (a : Nat) (v : Word) (m : List Host.Cell) : List Host.Cell :=
  cellsPut (a + 3) (v.extractLsb' 24 8)
    (cellsPut (a + 2) (v.extractLsb' 16 8)
      (cellsPut (a + 1) (v.extractLsb' 8 8)
        (cellsPut a (v.extractLsb' 0 8) m)))

/-- The canonical form of audio memory: strictly rising addresses, all inside the audio window. An unlisted byte has no
value of its own to be equal to (log 4). -/
def Memory.wf (m : List Host.Cell) : Bool :=
  cellsRisingFrom audioBase m && m.all fun c => decide (c.1 < audioEnd)

/-! ### Faults (R350, R352) -/

/-- The fault codes of R350. -/
inductive FaultCode where
  | illegalCmd
  | badState
  | badUnit
  | precond
  | busyViolation
  | busError
deriving DecidableEq, Repr

/-- The code's number (R350). -/
def codeNumber : FaultCode → Nat
  | .illegalCmd => 1
  | .badState => 2
  | .badUnit => 3
  | .precond => 4
  | .busyViolation => 5
  | .busError => 6

/-- `FAULT` with only the code's bit set: bit `code - 1` (R352). -/
def codeBit (c : FaultCode) : BitVec 6 := BitVec.ofNat 6 (2 ^ (codeNumber c - 1))

/-- `raise Fault(code, info)` (R352): the one operation that records a fault. -/
def raiseFault (c : FaultCode) (info : Word) (s : State) : State :=
  { s with
    faultBits := s.faultBits ||| codeBit c
    firstCode := if s.firstCode = 0 then BitVec.ofNat 8 (codeNumber c) else s.firstCode
    faultInfo := if s.firstCode = 0 then info else s.faultInfo }

/-- A command's fault: its info is the command word (R35, R140). -/
def commandFault (c : FaultCode) (s : State) : State := raiseFault c s.pending s

/-! ### Result registers (R38) and the engine -/

def setRes0 (v : Word) (s : State) : State := { s with res := { s.res with v0 := v } }

def setRes1 (v : Word) (s : State) : State := { s with res := { s.res with v1 := v } }

def setRes2 (v : Word) (s : State) : State := { s with res := { s.res with v2 := v } }

def setRes3 (v : Word) (s : State) : State := { s with res := { s.res with v3 := v } }

def setEngine (e : Engine) (s : State) : State := { s with engine := some e }

/-- `ctl.state` (R40; log 10). -/
inductive CtlState where
  | uninit
  | ready
deriving DecidableEq, Repr

def ctlState (s : State) : CtlState :=
  match s.engine with
  | none => .uninit
  | some _ => .ready

def engineKind : Engine → EngineKind
  | .hall _ => .hall
  | .plate _ => .plate

/-- `ctl.engine` (R40; log 10): HALL after hardware reset. -/
def ctlEngine (s : State) : EngineKind :=
  match s.engine with
  | none => .hall
  | some e => engineKind e

/-- Step 2 of R140: a command that needs `READY` runs on the prepared engine, or records BAD_STATE. -/
def whenReady (s : State) (run : Engine → State) : State :=
  match s.engine with
  | none => commandFault .badState s
  | some e => run e

/-- Step 3 of R140: a command runs on the unit that its `UNIT` field names, or records BAD_UNIT. -/
def withUnit {α : Type} (s : State) (found : Option α) (run : α → State) : State :=
  match found with
  | none => commandFault .badUnit s
  | some a => run a

/-- Step 4 of R140: the command's precondition holds, or PRECOND is recorded. -/
def withPrecond (s : State) (ok : Bool) (run : State) : State := if ok then run else commandFault .precond s

/-- What every meaning of a command answers: a next state (R356). -/
def done (s : State) : Host.Outcome State Fault Refusal := .next s

end Sys2Proof.Machine
end

