-- ==== Sys2Proof/Machine/FloatOps.lean ====
section
/-! DEFINITION. IEEE 754 binary32 and binary64 arithmetic, roundTiesToEven, one rounding per operation
(spec/00_scope.md R11, R12). An operation takes its operands apart into exact values, computes exactly, and rounds once.
PRESUMED, log 21: the formats and the special cases are the IEEE 754-2019 standard's, which the spec takes by decision D7. -/

namespace Sys2Proof.Machine.Ieee

/-- A binary interchange format: widths of the exponent field and of the fraction field. -/
structure Format where
  expBits : Nat
  fracBits : Nat
deriving DecidableEq, Repr

def binary32 : Format := ⟨8, 23⟩

def binary64 : Format := ⟨11, 52⟩

/-- The exponent field of infinities and NaNs. -/
def Format.topExp (f : Format) : Nat := 2 ^ f.expBits - 1

/-- The encoding of +infinity; without a sign, NaN encodings are the greater ones. -/
def Format.infMag (f : Format) : Nat := f.topExp * 2 ^ f.fracBits

/-- The weight of the sign bit. -/
def Format.signBit (f : Format) : Nat := 2 ^ (f.expBits + f.fracBits)

/-- The exponent of the least significant bit of a subnormal: every finite value is a multiple of `2 ^ minExp`. -/
def Format.minExp (f : Format) : Int := 2 - ((2 ^ (f.expBits - 1) : Nat) : Int) - (f.fracBits : Int)

/-- What an encoding stands for: `fin neg m e` is `m * 2^e`, negated if `neg`. -/
inductive Val where
  | nan
  | inf (neg : Bool)
  | fin (neg : Bool) (m : Nat) (e : Int)
deriving DecidableEq, Repr

/-- The sign bit of an encoding. -/
def isNeg (f : Format) (b : Nat) : Bool := decide (b / f.signBit % 2 = 1)

/-- An encoding without its sign bit. -/
def magOf (f : Format) (b : Nat) : Nat := b % f.signBit

/-- The value an encoding stands for. -/
def valueOf (f : Format) (b : Nat) : Val :=
  let mag := magOf f b
  if mag < 2 ^ f.fracBits then .fin (isNeg f b) mag f.minExp
  else if mag < f.infMag then
    .fin (isNeg f b) (2 ^ f.fracBits + mag % 2 ^ f.fracBits) (f.minExp + ((mag / 2 ^ f.fracBits - 1 : Nat) : Int))
  else if mag = f.infMag then .inf (isNeg f b)
  else .nan

/-- `m / 2^d` to the nearest natural number, a tie to the even one. -/
def shiftRightEven (m d : Nat) : Nat :=
  let q := m / 2 ^ d
  let r := m % 2 ^ d
  if 2 * r > 2 ^ d ∨ (2 * r = 2 ^ d ∧ q % 2 = 1) then q + 1 else q

/-- The exponent of the last place of the rounded `m * 2^e`: a significand of `fracBits + 1` bits, but never below the
subnormals' last place. -/
def lastPlace (f : Format) (m : Nat) (e : Int) : Int := max ((Nat.log2 m : Int) + e - (f.fracBits : Int)) f.minExp

/-- The encoding, without sign, of `m * 2^e` rounded to nearest even; a magnitude too large gives infinity (R11). Adding
the significand to the exponent field lets the significand's leading bit, and a carry out of it, count in the field. -/
def roundMag (f : Format) (m : Nat) (e : Int) : Nat :=
  if m = 0 then 0
  else
    let q := lastPlace f m e
    let t := if q ≤ e then m * 2 ^ (e - q).toNat else shiftRightEven m (q - e).toNat
    min ((q - f.minExp).toNat * 2 ^ f.fracBits + t) f.infMag

/-- The canonical quiet NaN of a format: `0x7FC00000` for binary32 (R11); for binary64 log 2. -/
def quietNaN (f : Format) : Nat := f.infMag + 2 ^ (f.fracBits - 1)

/-- The encoding of a value, rounded. -/
def encodingOf (f : Format) : Val → Nat
  | .nan => quietNaN f
  | .inf neg => (if neg then f.signBit else 0) + f.infMag
  | .fin neg m e => (if neg then f.signBit else 0) + roundMag f m e

/-- A finite value as a signed multiple of `2^e`, for an `e` not above its own exponent. -/
def scaled (neg : Bool) (m : Nat) (e' e : Int) : Int :=
  if neg then -((m * 2 ^ (e' - e).toNat : Nat) : Int) else ((m * 2 ^ (e' - e).toNat : Nat) : Int)

/-- Exact sum. An exact zero is +0 unless both operands are negative zeros (roundTiesToEven). -/
def addVal : Val → Val → Val
  | .nan, _ => .nan
  | .inf _, .nan => .nan
  | .inf s, .inf t => if s = t then .inf s else .nan
  | .inf s, .fin _ _ _ => .inf s
  | .fin _ _ _, .nan => .nan
  | .fin _ _ _, .inf t => .inf t
  | .fin s m e, .fin t n k =>
    let x := scaled s m e (min e k) + scaled t n k (min e k)
    if x = 0 then .fin (s && t) 0 (min e k) else .fin (decide (x < 0)) x.natAbs (min e k)

/-- Exact product; `0 * infinity` is a NaN. -/
def mulVal : Val → Val → Val
  | .nan, _ => .nan
  | .inf _, .nan => .nan
  | .inf s, .inf t => .inf (s != t)
  | .inf s, .fin t n _ => if n = 0 then .nan else .inf (s != t)
  | .fin _ _ _, .nan => .nan
  | .fin s m _, .inf t => if m = 0 then .nan else .inf (s != t)
  | .fin s m e, .fin t n k => .fin (s != t) (m * n) (e + k)

/-- A quotient of naturals, to enough places for format `f` and with one more bit that says whether it is inexact: it
rounds as the exact quotient does. -/
def quotient (f : Format) (neg : Bool) (m n : Nat) (e : Int) : Val :=
  let d := f.fracBits + 4 + Nat.log2 n
  let x := m * 2 ^ d
  .fin neg (2 * (x / n) + if x % n = 0 then 0 else 1) (e - (d : Int) - 1)

/-- Quotient, for format `f`. -/
def divVal (f : Format) : Val → Val → Val
  | .nan, _ => .nan
  | .inf _, .nan => .nan
  | .inf _, .inf _ => .nan
  | .inf s, .fin t _ _ => .inf (s != t)
  | .fin _ _ _, .nan => .nan
  | .fin s _ _, .inf t => .fin (s != t) 0 0
  | .fin s m e, .fin t n k =>
    if n = 0 then (if m = 0 then .nan else .inf (s != t)) else quotient f (s != t) m n (e - k)

/-- The place of an encoding in the order of the reals; the two zeros share one place. Meaningless for a NaN. -/
def orderKey (f : Format) (b : Nat) : Int := if isNeg f b then -(magOf f b : Int) else (magOf f b : Int)

def isNaNEnc (f : Format) (b : Nat) : Bool := decide (f.infMag < magOf f b)

/-- `a ≤ b`; false if either is a NaN. -/
def leEnc (f : Format) (a b : Nat) : Bool := !isNaNEnc f a && !isNaNEnc f b && decide (orderKey f a ≤ orderKey f b)

/-- The largest natural number not above a finite non-negative value; 0 for every other value (log 16). -/
def floorVal : Val → Nat
  | .nan => 0
  | .inf _ => 0
  | .fin true _ _ => 0
  | .fin false m e => if 0 ≤ e then m * 2 ^ e.toNat else m / 2 ^ (-e).toNat

/-- The smallest natural number not below a finite non-negative value; 0 for every other value (log 16). -/
def ceilVal : Val → Nat
  | .nan => 0
  | .inf _ => 0
  | .fin true _ _ => 0
  | .fin false m e => if 0 ≤ e then m * 2 ^ e.toNat else (m + (2 ^ (-e).toNat - 1)) / 2 ^ (-e).toNat

/-! ### binary32 (R11) -/

/-- The exact value of a binary32 word. -/
def val32 (a : Word) : Val := valueOf binary32 a.toNat

/-- A value rounded to binary32. -/
def enc32 (v : Val) : Word := BitVec.ofNat 32 (encodingOf binary32 v)

def fadd (a b : Word) : Word := enc32 (addVal (val32 a) (val32 b))

/-- `fneg(a)` flips the sign bit, of a NaN as well (R11). -/
def fneg (a : Word) : Word := a ^^^ 0x80000000

/-- `a - b` is `a + (-b)`, rounded once; a NaN operand gives the canonical NaN either way. -/
def fsub (a b : Word) : Word := fadd a (fneg b)

def fmul (a b : Word) : Word := enc32 (mulVal (val32 a) (val32 b))

def isNaN (a : Word) : Bool := isNaNEnc binary32 a.toNat

/-- `a ≤ b`; false if either is a NaN. -/
def fle (a b : Word) : Bool := leEnc binary32 a.toNat b.toNat

/-- `fmin(a,b)` is `a` if `a ≤ b`, else `b` (R11). -/
def fmin (a b : Word) : Word := if fle a b then a else b

/-- `fmax(a,b)` is `a` if `a ≥ b`, else `b` (R11). -/
def fmax (a b : Word) : Word := if fle b a then a else b

/-- Comparison with 0.0, of either sign. -/
def isZero (a : Word) : Bool := decide (magOf binary32 a.toNat = 0)

/-- `floor` of a binary32 value (R10). -/
def floor32 (a : Word) : Nat := floorVal (val32 a)

/-- `f32` of a natural number. -/
def nat32 (n : Nat) : Word := enc32 (.fin false n 0)

def one32 : Word := 0x3F800000

/-- `0.5` as binary32. -/
def half32 : Word := 0x3F000000

/-! ### binary64 (R12) -/

/-- The exact value of a binary64 word. -/
def val64 (a : DWord) : Val := valueOf binary64 a.toNat

/-- A value rounded to binary64. -/
def enc64 (v : Val) : DWord := BitVec.ofNat 64 (encodingOf binary64 v)

def dadd (a b : DWord) : DWord := enc64 (addVal (val64 a) (val64 b))

def dmul (a b : DWord) : DWord := enc64 (mulVal (val64 a) (val64 b))

def ddiv (a b : DWord) : DWord := enc64 (divVal binary64 (val64 a) (val64 b))

/-- Sign flip. -/
def dneg (a : DWord) : DWord := a ^^^ 0x8000000000000000

/-- `a ≤ b`; false if either is a NaN. -/
def dle (a b : DWord) : Bool := leEnc binary64 a.toNat b.toNat

/-- Binary64 minimum, with R11's rule for `fmin`: `a` if `a ≤ b`, else `b`. DEDUCED, log 3. -/
def dmin (a b : DWord) : DWord := if dle a b then a else b

/-- `f32(x)` of a binary64 value (R11). -/
def toF32 (a : DWord) : Word := enc32 (val64 a)

/-- `f64(x)` of a binary32 value: exact (R12). -/
def toF64 (a : Word) : DWord := enc64 (val32 a)

def floor64 (a : DWord) : Nat := floorVal (val64 a)

def ceil64 (a : DWord) : Nat := ceilVal (val64 a)

/-- The binary64 value nearest the decimal `m * 10^-k` (R60). -/
def dec64 (m k : Nat) : DWord := enc64 (quotient binary64 false m (10 ^ k) 0)

def one64 : DWord := dec64 1 0

/-- `TWO_PI_64` (R12). -/
def twoPi64 : DWord := 0x401921FB54442D18

/-- `LN_1E_3_64` (R12). -/
def lnThousandth64 : DWord := 0xC01BA18A998FFFA0

/-- `TWO_PI_F32` (R12). -/
def twoPi32 : Word := 0x40C90FDB

/-- `HALF_PI_F32` (R12). -/
def halfPi32 : Word := 0x3FC90FDB

end Sys2Proof.Machine.Ieee
end

