-- ==== Sys2Proof/Machine/PresetTable.lean ====
section
/-! DEFINITION. This hardware's implementation parameters (spec/00_scope.md R8), preset table (spec/10_state.md R60) and
parameter ranges (R45). -/

namespace Sys2Proof.Machine

open Ieee

/-- `MAX_BLOCK` (R8, R32). -/
def maxBlock : Nat := 4096

/-- `FS_MIN` = 8000.0 as binary64 (R8; the encoding is R311's). -/
def fsMin : DWord := 0x40BF400000000000

/-- `FS_MAX` = 192000.0 as binary64 (R8; the encoding is R311's). -/
def fsMax : DWord := 0x4107700000000000

/-- The preset table of R60: millisecond values are the binary64 values nearest the decimals, gains and factors used per
sample the binary32 encodings shown there (log 12). -/
def preset : Preset where
  slew := 0x3A83126F
  fbClamp := dec64 995 3
  apGainMax := 0x3F59999A
  hpEnable := true
  hpCutoffHz := dec64 20 0
  psyRatio := dec64 2 0
  hallEarlyMs := ⟨⟨dec64 477 2, dec64 359 2⟩, ⟨dec64 503 2, dec64 373 2⟩⟩
  hallEarlyG := 0x3F333333
  hallLateMs := ⟨⟨dec64 893 2, dec64 631 2⟩, ⟨dec64 937 2, dec64 667 2⟩⟩
  hallLateG := 0x3F000000
  hallTankMs := ⟨dec64 87 0, dec64 93 0⟩
  hallTankIn := 0x3F000000
  hallModFrac := 0x3C23D70A
  hallModFrac64 := dec64 1 2
  hallCrossfeed := 0x3E99999A
  plateEarlyMs := ⟨⟨dec64 431 2, dec64 317 2, dec64 1123 2, dec64 809 2⟩,
    ⟨dec64 453 2, dec64 337 2, dec64 1171 2, dec64 841 2⟩⟩
  plateEarlyG := 0x3F400000
  plateFdnMs := ⟨dec64 31 0, dec64 37 0, dec64 45 0, dec64 56 0⟩
  plateInj := ⟨0x3F333333, 0xBF000000, 0x3F000000, 0xBF333333⟩
  plateModFrac := 0x3AC49BA6
  plateModFrac64 := dec64 15 4
  plateMatrixScale := 0x3F000000
  plateStretch := dec64 1 0
  plateOutA := 0x3EB33333
  plateOutB := 0x3E19999A
  plateMakeup := 0x3FA00000
  platePreROffsetMs := dec64 0 0
  preMaxMs := dec64 200 0
  roomMax := dec64 175 2

/-- The lower bounds `lo` of the applied parameters (R45). -/
def parLo : ParamSet Word where
  roomSize := 0x3E800000
  decayTime := 0x3DCCCCCD
  damping := 0x43FA0000
  modRate := 0x3D4CCCCD
  modDepth := 0x00000000
  preDelay := 0x00000000
  mix := 0x00000000

/-- The upper bounds `hi` of the applied parameters (R45). -/
def parHi : ParamSet Word where
  roomSize := 0x3FE00000
  decayTime := 0x41A00000
  damping := 0x469C4000
  modRate := 0x40A00000
  modDepth := 0x3F800000
  preDelay := 0x43480000
  mix := 0x3F800000

end Sys2Proof.Machine
end

