-- ==== Sys2Proof/Machine/Flags.lean ====
section
/-! DEFINITION. The words that the status and identification registers read as (spec/10_state.md R31 to R35). -/

namespace Sys2Proof.Machine

/-- `ID` (R31). -/
def idWord : Word := 0x41445245

/-- `CAPS` (R32): `VERSION` 7, `ENGINES` 0b0011, `MAX_CH` 2, `MAX_BLOCK` 4096. -/
def capsWord : Word := (7 : BitVec 8) ++ (0b0011 : BitVec 4) ++ (2 : BitVec 4) ++ BitVec.ofNat 16 maxBlock

/-- `STATUS.READY` (R33). -/
def readyFlag (s : State) : Bool := s.engine.isSome

/-- `STATUS.ENGINE` (R33): 1 for Plate, and 0 while not READY. -/
def engineFlag (s : State) : Bool := decide (ctlEngine s = .plate)

/-- `STATUS.FAULT_ANY` (R33). -/
def faultAnyFlag (s : State) : Bool := decide (s.faultBits ≠ 0)

/-- `STATUS.NUM_CHANNELS` (R33). -/
def channelsField (s : State) : BitVec 8 := if readyFlag s then BitVec.ofNat 8 s.prep.numChannels else 0

/-- `STATUS.BLOCK_SIZE` (R33). -/
def blockSizeField (s : State) : BitVec 16 := if readyFlag s then BitVec.ofNat 16 s.prep.maxBlockSize else 0

/-- `STATUS` (R33). -/
def statusWord (s : State) : Word :=
  blockSizeField s ++ channelsField s ++ (0 : BitVec 4) ++ BitVec.ofBool (faultAnyFlag s) ++ BitVec.ofBool s.busy ++
    BitVec.ofBool (engineFlag s) ++ BitVec.ofBool (readyFlag s)

/-- `FAULT` (R34). -/
def faultWord (s : State) : Word := (0 : BitVec 16) ++ s.firstCode ++ (0 : BitVec 2) ++ s.faultBits

end Sys2Proof.Machine
end

