-- ==== Sys2Proof/Machine/Bus.lean ====
section
/-! DEFINITION. Host accesses (spec/20_memory.md R100 to R116), hardware reset (spec/70_reset_and_hazards.md R380), and
the acceptance and completion of a command (R112). -/

namespace Sys2Proof.Machine

/-- An operand or result register's number. -/
abbrev RegIdx := Ix4

/-- What a bus address names (R30). -/
inductive BusTarget where
  | id
  | caps
  | status
  | fault
  | faultInfo
  | cmd
  | arg (i : RegIdx)
  | res (i : RegIdx)
  | stage (p : ParamIdx)
  /-- A word of audio memory. -/
  | audio
  /-- Misaligned, or in a reserved range (R106). -/
  | none
deriving DecidableEq, Repr

/-- The register at a byte offset below 0x8000 (R30). -/
def registerAt (a : Nat) : BusTarget :=
  match a with
  | 0x000 => .id
  | 0x004 => .caps
  | 0x008 => .status
  | 0x00C => .fault
  | 0x010 => .faultInfo
  | 0x014 => .cmd
  | 0x020 => .arg .i0
  | 0x024 => .arg .i1
  | 0x028 => .arg .i2
  | 0x02C => .arg .i3
  | 0x030 => .res .i0
  | 0x034 => .res .i1
  | 0x038 => .res .i2
  | 0x03C => .res .i3
  | 0x040 => .stage .roomSize
  | 0x044 => .stage .decayTime
  | 0x048 => .stage .damping
  | 0x04C => .stage .modRate
  | 0x050 => .stage .modDepth
  | 0x054 => .stage .preDelay
  | 0x058 => .stage .mix
  | _ => .none

/-- The address map (R30, R101, R106). -/
def busTarget (addr : BusAddr) : BusTarget :=
  if addr.toNat % 4 ≠ 0 then .none
  else if audioBase ≤ addr.toNat then .audio
  else registerAt addr.toNat

/-- The info word of a bus fault: the byte address (R35; log 19). -/
def addrInfo (addr : BusAddr) : Word := addr.zeroExtend 32

/-- A draw of an unspecified word (R114, I17; log 5). -/
def drawWord (s : State) : Word × State := (Config.freeWord s.freeCtr, { s with freeCtr := s.freeCtr + 1 })

/-- A read that the spec leaves unspecified while `ctl.busy = 1` (R114). -/
def unlessBusy (v : Word) (s : State) : Word × State := if s.busy then drawWord s else (v, s)

/-- `MemRead(addr, 4)` (R100, R104, R106, R114): the word, and the state after. -/
def busReadValue (addr : BusAddr) (s : State) : Word × State :=
  match busTarget addr with
  | .id => (idWord, s)
  | .caps => (capsWord, s)
  | .status => (statusWord s, s)
  | .fault => (faultWord s, s)
  | .faultInfo => (s.faultInfo, s)
  | .cmd => (0, s)
  | .arg i => (s.arg.get i, s)
  | .res i => unlessBusy (s.res.get i) s
  | .stage p => (s.stage.get p, s)
  | .audio => unlessBusy (audioWord s.audioEpoch s.audio addr.toNat) s
  | .none => (0, raiseFault .busError (addrInfo addr) s)

/-- A host read, with what it returned noted (log 9). -/
def busRead (addr : BusAddr) (s : State) : State :=
  let r := busReadValue addr s
  { r.2 with hostReads := { addr := addr, value := r.1 } :: r.2.hostReads }

/-- No value of any staging register has been replaced. -/
def noStageOld : ParamSet (List Word) := ⟨[], [], [], [], [], [], []⟩

/-- Acceptance of a command (R112). -/
def acceptCommand (v : Word) (s : State) : State := { s with pending := v, busy := true, stageOld := noStageOld }

/-- A write to `CMD` (R112, R113). -/
def writeCmd (v : Word) (s : State) : State :=
  if s.busy then raiseFault .busyViolation v s else acceptCommand v s

/-- A write to a staging register: performed at any time (R114). While a command is pending, the value replaced stays one
that SET_PARAMS may take, and the race gets a draw of its own (log 6). -/
def writeStage (p : ParamIdx) (v : Word) (s : State) : State :=
  if s.busy then
    { s with
      stage := s.stage.set p v
      stageOld := s.stageOld.set p (s.stage.get p :: s.stageOld.get p)
      freeCtr := s.freeCtr + 1 }
  else { s with stage := s.stage.set p v }

/-- A write that is refused while a command is pending (R114). -/
def writeUnlessBusy (addr : BusAddr) (s t : State) : State :=
  if s.busy then raiseFault .busyViolation (addrInfo addr) s else t

/-- `MemWrite(addr, 4, v)` (R100, R104, R106, R112 to R114). -/
def busWrite (addr : BusAddr) (v : Word) (s : State) : State :=
  match busTarget addr with
  | .id => s
  | .caps => s
  | .status => s
  | .fault => s
  | .faultInfo => s
  | .cmd => writeCmd v s
  | .arg i => writeUnlessBusy addr s { s with arg := s.arg.set i v }
  | .res _ => s
  | .stage p => writeStage p v s
  | .audio => writeUnlessBusy addr s { s with audio := audioPut addr.toNat v s.audio }
  | .none => raiseFault .busError (addrInfo addr) s

/-- Completion of a command: `ctl.busy <- 0`, whether or not it faulted (R112, R310). -/
def completeCommand (s : State) : State := { s with busy := false, stageOld := noStageOld }

/-- Hardware reset (R380): every field of the block as after reset, with fresh unspecified audio contents. The
environment and the count of draws go on (logs 8, 9). -/
def hardwareReset (s : State) : State :=
  { State.reset with
    inputs := s.inputs
    hostReads := s.hostReads
    freeCtr := s.freeCtr
    audioEpoch := s.audioEpoch + 1 }

end Sys2Proof.Machine
end

