-- ==== Sys2Proof/Machine/Operands.lean ====
section
/-! DEFINITION. Operand forms (spec/30_encoding.md R133) and what a unit id names in each engine (R135, R137). -/

namespace Sys2Proof.Machine

/-- Operand form `f32` of `ARG0` (R133): the word is the value's encoding. -/
def argF32 (s : State) : Word := s.arg.v0

/-- Operand form `f64` (R133, R311): the encoding is `{ARG1, ARG0}`. -/
def argF64 (s : State) : DWord := s.arg.v1 ++ s.arg.v0

/-- Operand form `u32` of `ARG2` (R133). -/
def argU32₂ (s : State) : Nat := s.arg.v2.toNat

/-- Operand form `u32` of `ARG3` (R133). -/
def argU32₃ (s : State) : Nat := s.arg.v3.toNat

/-- Result form `u32` (R133). -/
def u32 (n : Nat) : Word := BitVec.ofNat 32 n

/-- Result form of a flag. -/
def flagWord (b : Bool) : Word := if b then 1 else 0

/-- The units of the Hall engine (R53, R137). -/
inductive HallUnit where
  | tank (c : Ix2)
  | early (c j : Ix2)
  | late (c j : Ix2)
  | lfo
  | damp (c : Ix2)
deriving DecidableEq, Repr

/-- The Hall column of R137. -/
def hallUnit (u : UnitId) : Option HallUnit :=
  match u.toNat with
  | 0x00 => some (.tank .i0)
  | 0x01 => some (.tank .i1)
  | 0x10 => some (.early .i0 .i0)
  | 0x11 => some (.early .i0 .i1)
  | 0x12 => some (.early .i1 .i0)
  | 0x13 => some (.early .i1 .i1)
  | 0x18 => some (.late .i0 .i0)
  | 0x19 => some (.late .i0 .i1)
  | 0x1A => some (.late .i1 .i0)
  | 0x1B => some (.late .i1 .i1)
  | 0x20 => some .lfo
  | 0x30 => some (.damp .i0)
  | 0x31 => some (.damp .i1)
  | _ => none

/-- The units of the Plate engine (R54, R137). -/
inductive PlateUnit where
  | fdn (i : Ix4)
  | pre
  | early (c : Ix2) (k : Ix4)
  | lfo
  | damp (i : Ix4)
deriving DecidableEq, Repr

/-- The Plate column of R137. -/
def plateUnit (u : UnitId) : Option PlateUnit :=
  match u.toNat with
  | 0x00 => some (.fdn .i0)
  | 0x01 => some (.fdn .i1)
  | 0x02 => some (.fdn .i2)
  | 0x03 => some (.fdn .i3)
  | 0x04 => some .pre
  | 0x10 => some (.early .i0 .i0)
  | 0x11 => some (.early .i0 .i1)
  | 0x12 => some (.early .i0 .i2)
  | 0x13 => some (.early .i0 .i3)
  | 0x14 => some (.early .i1 .i0)
  | 0x15 => some (.early .i1 .i1)
  | 0x16 => some (.early .i1 .i2)
  | 0x17 => some (.early .i1 .i3)
  | 0x20 => some .lfo
  | 0x30 => some (.damp .i0)
  | 0x31 => some (.damp .i1)
  | 0x32 => some (.damp .i2)
  | 0x33 => some (.damp .i3)
  | _ => none

def Hall.allpass (h : Hall) : HallUnit → Option Allpass
  | .tank _ => none
  | .early c j => some ((h.early.get c).get j)
  | .late c j => some ((h.late.get c).get j)
  | .lfo => none
  | .damp _ => none

def Hall.setAllpass (h : Hall) (u : HallUnit) (a : Allpass) : Hall :=
  match u with
  | .tank _ => h
  | .early c j => { h with early := h.early.set c ((h.early.get c).set j a) }
  | .late c j => { h with late := h.late.set c ((h.late.get c).set j a) }
  | .lfo => h
  | .damp _ => h

def Plate.allpass (p : Plate) : PlateUnit → Option Allpass
  | .fdn _ => none
  | .pre => none
  | .early c k => some ((p.early.get c).get k)
  | .lfo => none
  | .damp _ => none

def Plate.setAllpass (p : Plate) (u : PlateUnit) (a : Allpass) : Plate :=
  match u with
  | .fdn _ => p
  | .pre => p
  | .early c k => { p with early := p.early.set c ((p.early.get c).set k a) }
  | .lfo => p
  | .damp _ => p

/-- The delay line that a Hall unit gives the DL commands: a tank, or an allpass's own line (R135). -/
def Hall.line (h : Hall) : HallUnit → Option DelayLine
  | .tank c => some (h.tank.get c)
  | .early c j => some ((h.early.get c).get j).line
  | .late c j => some ((h.late.get c).get j).line
  | .lfo => none
  | .damp _ => none

def Hall.setLine (h : Hall) (u : HallUnit) (l : DelayLine) : Hall :=
  match u with
  | .tank c => { h with tank := h.tank.set c l }
  | .early c j => h.setAllpass (.early c j) { (h.early.get c).get j with line := l }
  | .late c j => h.setAllpass (.late c j) { (h.late.get c).get j with line := l }
  | .lfo => h
  | .damp _ => h

/-- The delay line that a Plate unit gives the DL commands (R135). -/
def Plate.line (p : Plate) : PlateUnit → Option DelayLine
  | .fdn i => some (p.fdn.get i)
  | .pre => some p.pre
  | .early c k => some ((p.early.get c).get k).line
  | .lfo => none
  | .damp _ => none

def Plate.setLine (p : Plate) (u : PlateUnit) (l : DelayLine) : Plate :=
  match u with
  | .fdn i => { p with fdn := p.fdn.set i l }
  | .pre => { p with pre := l }
  | .early c k => p.setAllpass (.early c k) { (p.early.get c).get k with line := l }
  | .lfo => p
  | .damp _ => p

def Hall.dampUnit (h : Hall) : HallUnit → Option Damp
  | .tank _ => none
  | .early _ _ => none
  | .late _ _ => none
  | .lfo => none
  | .damp c => some (h.damp.get c)

def Hall.setDampUnit (h : Hall) (u : HallUnit) (d : Damp) : Hall :=
  match u with
  | .tank _ => h
  | .early _ _ => h
  | .late _ _ => h
  | .lfo => h
  | .damp c => { h with damp := h.damp.set c d }

def Plate.dampUnit (p : Plate) : PlateUnit → Option Damp
  | .fdn _ => none
  | .pre => none
  | .early _ _ => none
  | .lfo => none
  | .damp i => some (p.damp.get i)

def Plate.setDampUnit (p : Plate) (u : PlateUnit) (d : Damp) : Plate :=
  match u with
  | .fdn _ => p
  | .pre => p
  | .early _ _ => p
  | .lfo => p
  | .damp i => { p with damp := p.damp.set i d }

/-- What ENG_INFO reports of a modulated line (R335): current delay, base delay, loop gain and feedback. -/
structure LineReport where
  dcur : Word
  base : Word
  gain : Word
  fb : Word
deriving DecidableEq, Repr

def Hall.report (h : Hall) : HallUnit → Option LineReport
  | .tank c => some ⟨h.dcur.get c, h.base.get c, h.decay, h.fb.get c⟩
  | .early _ _ => none
  | .late _ _ => none
  | .lfo => none
  | .damp _ => none

def Plate.report (p : Plate) : PlateUnit → Option LineReport
  | .fdn i => some ⟨p.dcur.get i, p.base.get i, p.g, 0⟩
  | .pre => none
  | .early _ _ => none
  | .lfo => none
  | .damp _ => none

/-- The delay-line or allpass unit `u` of the prepared engine, as a delay line (R135, R137). -/
def lineOf (e : Engine) (u : UnitId) : Option DelayLine :=
  match e with
  | .hall h => (hallUnit u).bind h.line
  | .plate p => (plateUnit u).bind p.line

def setLineOf (e : Engine) (u : UnitId) (l : DelayLine) : Engine :=
  match e with
  | .hall h =>
    match hallUnit u with
    | some n => .hall (h.setLine n l)
    | none => e
  | .plate p =>
    match plateUnit u with
    | some n => .plate (p.setLine n l)
    | none => e

/-- The allpass unit `u` of the prepared engine (R135, R137). -/
def allpassOf (e : Engine) (u : UnitId) : Option Allpass :=
  match e with
  | .hall h => (hallUnit u).bind h.allpass
  | .plate p => (plateUnit u).bind p.allpass

def setAllpassOf (e : Engine) (u : UnitId) (a : Allpass) : Engine :=
  match e with
  | .hall h =>
    match hallUnit u with
    | some n => .hall (h.setAllpass n a)
    | none => e
  | .plate p =>
    match plateUnit u with
    | some n => .plate (p.setAllpass n a)
    | none => e

/-- The damping unit `u` of the prepared engine (R135, R137). -/
def dampOf (e : Engine) (u : UnitId) : Option Damp :=
  match e with
  | .hall h => (hallUnit u).bind h.dampUnit
  | .plate p => (plateUnit u).bind p.dampUnit

def setDampOf (e : Engine) (u : UnitId) (d : Damp) : Engine :=
  match e with
  | .hall h =>
    match hallUnit u with
    | some n => .hall (h.setDampUnit n d)
    | none => e
  | .plate p =>
    match plateUnit u with
    | some n => .plate (p.setDampUnit n d)
    | none => e

/-- The engine's LFO. -/
def engineLfo : Engine → Lfo
  | .hall h => h.lfo
  | .plate p => p.lfo

def setEngineLfo (e : Engine) (l : Lfo) : Engine :=
  match e with
  | .hall h => .hall { h with lfo := l }
  | .plate p => .plate { p with lfo := l }

/-- The LFO unit: id 0x20 in both engines (R135, R211). -/
def lfoOf (e : Engine) (u : UnitId) : Option Lfo := if u = 0x20 then some (engineLfo e) else none

/-- What ENG_INFO reports of the modulated-line unit `u` (R135, R335). -/
def reportOf (e : Engine) (u : UnitId) : Option LineReport :=
  match e with
  | .hall h => (hallUnit u).bind h.report
  | .plate p => (plateUnit u).bind p.report

end Sys2Proof.Machine
end

