-- ==== Sys2Proof/Machine/DelayLine.lean ====
section
/-! DEFINITION. The delay-line primitive (spec/40_delay_line.md R160 to R170). -/

namespace Sys2Proof.Machine

open Ieee

/-- The word at index `i` of the buffer; an index not listed holds +0.0 (log 11). -/
def bufWord (buf : List (Nat × Word)) (i : Nat) : Word :=
  match cellsGet buf i with
  | some x => x
  | none => 0

/-- Store `x` at index `i` of the buffer, keeping +0.0 unlisted (log 11). -/
def bufPut (i : Nat) (x : Word) (buf : List (Nat × Word)) : List (Nat × Word) :=
  if x = 0 then cellsErase i buf else cellsPut i x buf

/-- A cleared line of capacity `n` (R48). -/
def clearedLine (n : Nat) : DelayLine := { N := n, buf := [], w := 0 }

/-- Clear a line, keeping its capacity (R316). -/
def DelayLine.clear (l : DelayLine) : DelayLine := clearedLine l.N

/-- The index `(w - k) mod N`. -/
def DelayLine.slot (l : DelayLine) (k : Nat) : Nat := (((l.w : Int) - (k : Int)) % (l.N : Int)).toNat

/-- `dl.push(x)` (R166). -/
def DelayLine.push (l : DelayLine) (x : Word) : DelayLine :=
  { l with buf := bufPut l.w x l.buf, w := (l.w + 1) % l.N }

/-- `dl.popFixed(k)` (R167). -/
def DelayLine.popFixed (l : DelayLine) (k : Nat) : Word := bufWord l.buf (l.slot k)

/-- The valid integer offsets (R164). -/
def DelayLine.validOffset (l : DelayLine) (k : Nat) : Bool := decide (1 ≤ k) && decide ((k : Int) ≤ (l.N : Int) - 2)

/-- `f32(N - 2)` (R164, R170). -/
def DelayLine.maxOffset (l : DelayLine) : Word := nat32 (l.N - 2)

/-- The valid fractional offsets (R164): not NaN and `1.0 ≤ d ≤ N - 2`. -/
def DelayLine.validFraction (l : DelayLine) (d : Word) : Bool := fle one32 d && fle d l.maxOffset

/-- `dl.readFractional(d)` (R168). -/
def DelayLine.readFractional (l : DelayLine) (d : Word) : Word :=
  let i := floor32 d
  let fr := fsub d (nat32 i)
  let a := l.popFixed i
  let b := l.popFixed (i + 1)
  fadd a (fmul fr (fsub b a))

/-- `clampDelay(d, N)` (R170). -/
def clampDelay (d : Word) (n : Nat) : Word := if isNaN d then one32 else fmin (fmax d one32) (nat32 (n - 2))

/-- An engine's read of a line at a requested offset: clamped first (R165, R170). -/
def DelayLine.readClamped (l : DelayLine) (d : Word) : Word := l.readFractional (clampDelay d l.N)

/-- The capacity of a line for a longest delay in samples: `N = ceil(maxDelaySamples) + 4` (R163). -/
def capacity (maxDelaySamples : DWord) : Nat := ceil64 maxDelaySamples + 4

/-- The slew (spec/42_lfo.md R216). -/
def slew (P : Preset) (dcur target : Word) : Word := fadd dcur (fmul P.slew (fsub target dcur))

/-- The modulated target of a line (spec/42_lfo.md R215). -/
def modTarget (base frac m : Word) : Word := fmul base (fadd one32 (fmul frac m))

end Sys2Proof.Machine
end

