-- ==== Sys2Proof/Machine/Allpass.lean ====
section
/-! DEFINITION. The allpass diffuser (spec/41_allpass.md R190 to R199). -/

namespace Sys2Proof.Machine

open Ieee

/-- `clampGain(g)` (R194). -/
def clampGain (P : Preset) (g : Word) : Word := if isNaN g then 0 else fmin (fmax g 0) P.apGainMax

/-- The delay of a stage in samples: `max(1, floor(ms * fs / 1000 + 0.5))` in binary64 (R191; log 13). -/
def allpassDelay (ms fs : DWord) : Nat := max 1 (floor64 (dadd (ddiv (dmul ms fs) (dec64 1000 0)) (dec64 5 1)))

/-- A stage as PREPARE builds it (R191, R192). -/
def buildAllpass (P : Preset) (fs : DWord) (g : Word) (ms : DWord) : Allpass :=
  { line := clearedLine (allpassDelay ms fs + 4), M := allpassDelay ms fs, g := clampGain P g }

/-- Clear a stage's line, keeping its delay and its gain (R316). -/
def Allpass.clear (a : Allpass) : Allpass := { a with line := a.line.clear }

/-- `ap.process(x)` (R193): the stage after, and the output. -/
def Allpass.process (a : Allpass) (x : Word) : Allpass × Word :=
  let d := a.line.popFixed a.M
  let w := fadd x (fmul a.g d)
  ({ a with line := a.line.push w }, fsub d (fmul a.g w))

/-- A cascade of two stages (R199). -/
def cascade2 (s : Pair Allpass) (x : Word) : Pair Allpass × Word :=
  let r0 := s.v0.process x
  let r1 := s.v1.process r0.2
  (⟨r0.1, r1.1⟩, r1.2)

/-- A cascade of four stages (R199). -/
def cascade4 (s : Quad Allpass) (x : Word) : Quad Allpass × Word :=
  let r0 := s.v0.process x
  let r1 := s.v1.process r0.2
  let r2 := s.v2.process r1.2
  let r3 := s.v3.process r2.2
  (⟨r0.1, r1.1, r2.1, r3.1⟩, r3.2)

end Sys2Proof.Machine
end

