-- ==== Sys2Proof/Machine/AllpassCommands.lean ====
section
/-! DEFINITION. AP_PROCESS, AP_SET_GAIN, AP_INFO (spec/41_allpass.md R196 to R198). -/

namespace Sys2Proof.Machine

/-- AP_PROCESS (R196): one sample, `float(ARG0)`, through the allpass `u`. -/
def execApProcess (u : UnitId) (s : State) : Host.Outcome State Fault Refusal :=
  done (whenReady s fun e => withUnit s (allpassOf e u) fun a =>
    setRes0 (a.process (argF32 s)).2 (setEngine (setAllpassOf e u (a.process (argF32 s)).1) s))

/-- AP_SET_GAIN (R197): store the clamped gain, and report it. -/
def execApSetGain (u : UnitId) (s : State) : Host.Outcome State Fault Refusal :=
  done (whenReady s fun e => withUnit s (allpassOf e u) fun a =>
    setRes0 (clampGain preset (argF32 s))
      (setEngine (setAllpassOf e u { a with g := clampGain preset (argF32 s) }) s))

/-- AP_INFO (R198): delay and gain. -/
def execApInfo (u : UnitId) (s : State) : Host.Outcome State Fault Refusal :=
  done (whenReady s fun e => withUnit s (allpassOf e u) fun a => setRes1 a.g (setRes0 (u32 a.M) s))

end Sys2Proof.Machine
end

