-- ==== Sys2Proof/Machine/Damping.lean ====
section
/-! DEFINITION. The damping chain (spec/43_damping.md R230 to R233). -/

namespace Sys2Proof.Machine

open Ieee

/-- The coefficient `g` of a one-pole stage with cutoff `fc` (R231). -/
def poleGain (fs fc : DWord) : Word := toF32 (Config.exp64 (ddiv (dneg (dmul twoPi64 fc)) fs))

/-- Set the coefficients (R232), leaving the three states. -/
def Damp.recompute (P : Preset) (d : Damp) (par : ParamSet Word) (fs : DWord) : Damp :=
  { d with
    gLP := poleGain fs (toF64 par.damping)
    oLP := fsub one32 (poleGain fs (toF64 par.damping))
    gHP := poleGain fs P.hpCutoffHz
    oHP := fsub one32 (poleGain fs P.hpCutoffHz)
    gPSY := poleGain fs (dmul P.psyRatio (toF64 par.damping))
    oPSY := fsub one32 (poleGain fs (dmul P.psyRatio (toF64 par.damping)))
    hpEn := P.hpEnable }

/-- Clear the three states (R316). -/
def Damp.clear (d : Damp) : Damp := { d with sLP := 0, sHP := 0, sPSY := 0 }

/-- `dc.process(x)` (R233): the chain after, and the output. -/
def Damp.process (d : Damp) (x : Word) : Damp × Word :=
  let y1 := fadd (fmul d.gLP d.sLP) (fmul d.oLP x)
  let hp := if d.hpEn then fadd (fmul d.gHP d.sHP) (fmul d.oHP y1) else d.sHP
  let y2 := if d.hpEn then fsub y1 hp else y1
  let y := fadd (fmul d.gPSY d.sPSY) (fmul d.oPSY y2)
  ({ d with sLP := y1, sHP := hp, sPSY := y }, y)

/-- A chain before its coefficients are set. PREPARE sets them before anything reads them (R47). -/
def blankDamp : Damp := ⟨0, 0, 0, 0, 0, 0, 0, 0, 0, false⟩

end Sys2Proof.Machine
end

