-- ==== Sys2Proof/Machine/Oscillator.lean ====
section
/-! DEFINITION. The quadrature oscillator (spec/42_lfo.md R210 to R214). -/

namespace Sys2Proof.Machine

open Ieee

/-- The outputs of one tick, `(normal, quadrature)`. -/
structure LfoOut where
  n : Word
  q : Word
deriving DecidableEq, Repr

/-- The outputs at the current phase (R213). -/
def Lfo.out (l : Lfo) : LfoOut :=
  { n := fmul l.depth (Config.sin32 l.theta), q := fmul l.depth (Config.sin32 (fadd l.theta halfPi32)) }

/-- The phase one sample later: one subtraction of 2π where it has reached 2π (R213). -/
def Lfo.nextTheta (l : Lfo) : Word :=
  let t := fadd l.theta l.delta
  if fle twoPi32 t then fsub t twoPi32 else t

/-- `lfo.tick()` (R213): outputs before the advance. -/
def Lfo.tick (l : Lfo) : Lfo × LfoOut := ({ l with theta := l.nextTheta }, l.out)

/-- `lfo.delta` (R212). -/
def lfoDelta (modRate : Word) (fs : DWord) : Word := toF32 (ddiv (dmul twoPi64 (toF64 modRate)) fs)

/-- Set the coefficients (R212), leaving the phase. -/
def Lfo.recompute (l : Lfo) (par : ParamSet Word) (fs : DWord) : Lfo :=
  { l with delta := lfoDelta par.modRate fs, depth := par.modDepth }

/-- Restart the phase (R219, R316). -/
def Lfo.restart (l : Lfo) : Lfo := { l with theta := 0 }

end Sys2Proof.Machine
end

