-- ==== Sys2Proof/Machine/HallEngine.lean ====
section
/-! DEFINITION. The Hall engine (spec/44_hall.md R250 to R256). -/

namespace Sys2Proof.Machine

open Ieee

/-- The capacity of a tank (R163, R251): `ms * ROOM_MAX * (1 + HALL_MOD_FRAC) * fs / 1000`, left to right. -/
def hallTankCapacity (P : Preset) (fs ms : DWord) : Nat :=
  capacity (ddiv (dmul (dmul (dmul ms P.roomMax) (dadd one64 P.hallModFrac64)) fs) (dec64 1000 0))

/-- The loop gain `hall.decay` (R252). -/
def hallDecay (P : Preset) (par : ParamSet Word) : Word :=
  let mean := ddiv (dadd P.hallTankMs.v0 P.hallTankMs.v1) (dec64 2 0)
  let t := ddiv (dmul (toF64 par.roomSize) mean) (dec64 1000 0)
  toF32 (dmin (Config.exp64 (ddiv (dmul lnThousandth64 t) (toF64 par.decayTime))) P.fbClamp)

/-- A base delay in samples: `ms * roomSize * fs / 1000`, rounded once (R252, and R282 for Plate). -/
def baseDelay (fs : DWord) (roomSize : Word) (ms : DWord) : Word :=
  toF32 (ddiv (dmul (dmul ms (toF64 roomSize)) fs) (dec64 1000 0))

/-- `hall.recompute()` with the coefficients of R321: no signal state changes (R252). -/
def Hall.recompute (P : Preset) (par : ParamSet Word) (fs : DWord) (h : Hall) : Hall :=
  { h with
    lfo := h.lfo.recompute par fs
    damp := h.damp.map fun d => d.recompute P par fs
    base := P.hallTankMs.map (baseDelay fs par.roomSize)
    decay := hallDecay P par }

/-- RESET of a Hall engine (R316). -/
def Hall.clear (h : Hall) : Hall :=
  { h with
    tank := h.tank.map DelayLine.clear
    early := h.early.map fun s => s.map Allpass.clear
    late := h.late.map fun s => s.map Allpass.clear
    lfo := h.lfo.restart
    damp := h.damp.map Damp.clear
    dcur := h.base
    fb := ⟨0, 0⟩ }

/-- The units as PREPARE HALL builds them, before the coefficients are set (R251, R313). -/
def Hall.fresh (P : Preset) (fs : DWord) : Hall where
  tank := P.hallTankMs.map fun ms => clearedLine (hallTankCapacity P fs ms)
  early := P.hallEarlyMs.map fun s => s.map (buildAllpass P fs P.hallEarlyG)
  late := P.hallLateMs.map fun s => s.map (buildAllpass P fs P.hallLateG)
  lfo := ⟨0, 0, 0⟩
  damp := ⟨blankDamp, blankDamp⟩
  fb := ⟨0, 0⟩
  dcur := ⟨0, 0⟩
  base := ⟨0, 0⟩
  decay := 0

/-- The engine PREPARE HALL leaves (R313): fresh units, coefficients, and every `dcur` at its base. -/
def Hall.build (P : Preset) (fs : DWord) (par : ParamSet Word) : Hall :=
  let h := (Hall.fresh P fs).recompute P par fs
  { h with dcur := h.base }

/-- One wet frame, or one input frame. -/
structure Frame where
  l : Word
  r : Word
deriving DecidableEq, Repr

/-- `hall.sample(xL, xR)` (R255): the engine after, and the wet frame. All lines are read before any is pushed (R256). -/
def Hall.sample (P : Preset) (h : Hall) (x : Frame) : Hall × Frame :=
  -- 1, 2: modulation and slew
  let t := h.lfo.tick
  let dcur0 := slew P h.dcur.v0 (modTarget h.base.v0 P.hallModFrac t.2.n)
  let dcur1 := slew P h.dcur.v1 (modTarget h.base.v1 P.hallModFrac t.2.q)
  -- 3: read both tanks
  let r0 := h.tank.v0.readClamped dcur0
  let r1 := h.tank.v1.readClamped dcur1
  -- 4: late diffusion, then damping
  let a0 := cascade2 h.late.v0 r0
  let a1 := cascade2 h.late.v1 r1
  let y0 := h.damp.v0.process a0.2
  let y1 := h.damp.v1.process a1.2
  -- 5: early diffusion of the input
  let e0 := cascade2 h.early.v0 x.l
  let e1 := cascade2 h.early.v1 x.r
  -- 6: write both tanks
  let t0 := h.tank.v0.push (fadd (fmul P.hallTankIn e0.2) (fmul P.hallTankIn h.fb.v0))
  let t1 := h.tank.v1.push (fadd (fmul P.hallTankIn e1.2) (fmul P.hallTankIn h.fb.v1))
  -- 7: the next sample's feedback
  let fb0 := fmul (fadd y0.2 (fmul P.hallCrossfeed y1.2)) h.decay
  let fb1 := fmul (fadd y1.2 (fmul P.hallCrossfeed y0.2)) h.decay
  -- 8: wet output
  ({ h with
      tank := ⟨t0, t1⟩, early := ⟨e0.1, e1.1⟩, late := ⟨a0.1, a1.1⟩, lfo := t.1, damp := ⟨y0.1, y1.1⟩
      fb := ⟨fb0, fb1⟩, dcur := ⟨dcur0, dcur1⟩ },
    ⟨y0.2, y1.2⟩)

end Sys2Proof.Machine
end

