-- ==== Sys2Proof/Machine/PlateEngine.lean ====
section
/-! DEFINITION. The Plate engine (spec/45_plate.md R280 to R287). -/

namespace Sys2Proof.Machine

open Ieee

/-- The capacity of an FDN line (R163, R281): `ms * ROOM_MAX * (1 + PLATE_MOD_FRAC) * fs / 1000`, left to right. -/
def plateFdnCapacity (P : Preset) (fs ms : DWord) : Nat :=
  capacity (ddiv (dmul (dmul (dmul ms P.roomMax) (dadd one64 P.plateModFrac64)) fs) (dec64 1000 0))

/-- The capacity of the pre-delay line (R163, R281). -/
def platePreCapacity (P : Preset) (fs : DWord) : Nat :=
  capacity (ddiv (dmul (dadd P.preMaxMs P.platePreROffsetMs) fs) (dec64 1000 0))

/-- The loop gain `plate.g` (R282). -/
def plateGain (P : Preset) (par : ParamSet Word) : Word :=
  let sum := dadd (dadd (dadd P.plateFdnMs.v0 P.plateFdnMs.v1) P.plateFdnMs.v2) P.plateFdnMs.v3
  let t := ddiv (dmul (toF64 par.roomSize) (ddiv sum (dec64 4 0))) (dec64 1000 0)
  toF32 (dmin (Config.exp64 (ddiv (dmul lnThousandth64 t) (dmul (toF64 par.decayTime) P.plateStretch))) P.fbClamp)

/-- The pre-delay read offsets `plate.preD[0..1]` in samples (R282). -/
def platePreDelay (P : Preset) (par : ParamSet Word) (fs : DWord) : Pair Word where
  v0 := toF32 (ddiv (dmul (toF64 par.preDelay) fs) (dec64 1000 0))
  v1 := toF32 (ddiv (dmul (dadd (toF64 par.preDelay) P.platePreROffsetMs) fs) (dec64 1000 0))

/-- `plate.recompute()` with the coefficients of R321: no signal state changes (R282). -/
def Plate.recompute (P : Preset) (par : ParamSet Word) (fs : DWord) (p : Plate) : Plate :=
  { p with
    lfo := p.lfo.recompute par fs
    damp := p.damp.map fun d => d.recompute P par fs
    base := P.plateFdnMs.map (baseDelay fs par.roomSize)
    g := plateGain P par
    preD := platePreDelay P par fs }

/-- RESET of a Plate engine (R316). -/
def Plate.clear (p : Plate) : Plate :=
  { p with
    fdn := p.fdn.map DelayLine.clear
    pre := p.pre.clear
    early := p.early.map fun s => s.map Allpass.clear
    lfo := p.lfo.restart
    damp := p.damp.map Damp.clear
    dcur := p.base }

/-- The units as PREPARE PLATE builds them, before the coefficients are set (R281, R313). -/
def Plate.fresh (P : Preset) (fs : DWord) : Plate where
  fdn := P.plateFdnMs.map fun ms => clearedLine (plateFdnCapacity P fs ms)
  pre := clearedLine (platePreCapacity P fs)
  early := P.plateEarlyMs.map fun s => s.map (buildAllpass P fs P.plateEarlyG)
  lfo := ⟨0, 0, 0⟩
  damp := ⟨blankDamp, blankDamp, blankDamp, blankDamp⟩
  dcur := ⟨0, 0, 0, 0⟩
  base := ⟨0, 0, 0, 0⟩
  g := 0
  preD := ⟨0, 0⟩

/-- The engine PREPARE PLATE leaves (R313). -/
def Plate.build (P : Preset) (fs : DWord) (par : ParamSet Word) : Plate :=
  let p := (Plate.fresh P fs).recompute P par fs
  { p with dcur := p.base }

/-- The Hadamard mix of the four line outputs (R285 step 5), each row summed left to right. -/
def hadamard (P : Preset) (o : Quad Word) : Quad Word where
  v0 := fmul P.plateMatrixScale (fadd (fadd (fadd o.v0 o.v1) o.v2) o.v3)
  v1 := fmul P.plateMatrixScale (fsub (fadd (fsub o.v0 o.v1) o.v2) o.v3)
  v2 := fmul P.plateMatrixScale (fsub (fsub (fadd o.v0 o.v1) o.v2) o.v3)
  v3 := fmul P.plateMatrixScale (fadd (fsub (fsub o.v0 o.v1) o.v2) o.v3)

/-- The stereo decode of the raw line outputs, then the makeup gain (R285 step 7, R286). -/
def plateDecode (P : Preset) (o : Quad Word) : Frame where
  l := fmul (fadd (fmul P.plateOutA (fadd o.v0 o.v2)) (fmul P.plateOutB (fsub o.v1 o.v3))) P.plateMakeup
  r := fmul (fadd (fmul P.plateOutA (fadd o.v1 o.v3)) (fmul P.plateOutB (fsub o.v0 o.v2))) P.plateMakeup

/-- `plate.sample(xL, xR)` (R285): the engine after, and the wet frame. -/
def Plate.sample (P : Preset) (p : Plate) (x : Frame) : Plate × Frame :=
  -- 1: pre-delay, read before push
  let m := fmul half32 (fadd x.l x.r)
  let p0 := p.pre.readClamped p.preD.v0
  let p1 := p.pre.readClamped p.preD.v1
  -- 2: early diffusion and mono sum
  let e0 := cascade4 p.early.v0 p0
  let e1 := cascade4 p.early.v1 p1
  let u := fmul half32 (fadd e0.2 e1.2)
  -- 3: modulation and slew
  let t := p.lfo.tick
  let md : Quad Word := ⟨t.2.n, t.2.q, fneg t.2.n, fneg t.2.q⟩
  let tgt := p.base.zipWith (fun b mi => modTarget b P.plateModFrac mi) md
  let dcur := p.dcur.zipWith (slew P) tgt
  -- 4: read all four lines
  let o := p.fdn.zipWith DelayLine.readClamped dcur
  -- 5: Hadamard mix
  let h := hadamard P o
  -- 6: feedback scale, injection, damping, then write all four lines
  let fed := h.zipWith (fun hi inj => fadd (fmul p.g hi) (fmul inj u)) P.plateInj
  let w := p.damp.zipWith Damp.process fed
  ({ p with
      fdn := p.fdn.zipWith (fun l wi => l.push wi.2) w
      pre := p.pre.push m
      early := ⟨e0.1, e1.1⟩
      lfo := t.1
      damp := w.map Prod.fst
      dcur := dcur },
    plateDecode P o)

end Sys2Proof.Machine
end

