-- ==== Sys2Proof/Machine/EngineOps.lean ====
section
/-! DEFINITION. The operations of whichever engine is prepared (spec/46_host_commands.md R313, R316, R321, R330). -/

namespace Sys2Proof.Machine

open Ieee

/-- Build the selected engine (R313). -/
def buildEngine (P : Preset) (k : EngineKind) (fs : DWord) (par : ParamSet Word) : Engine :=
  match k with
  | .hall => .hall (Hall.build P fs par)
  | .plate => .plate (Plate.build P fs par)

/-- `recompute()` (R321). -/
def recomputeEngine (P : Preset) (par : ParamSet Word) (fs : DWord) : Engine → Engine
  | .hall h => .hall (h.recompute P par fs)
  | .plate p => .plate (p.recompute P par fs)

/-- Clear the signal state (R316). -/
def clearEngine : Engine → Engine
  | .hall h => .hall h.clear
  | .plate p => .plate p.clear

/-- `engine.sample(xL, xR)` (R330). -/
def sampleEngine (P : Preset) (e : Engine) (x : Frame) : Engine × Frame :=
  match e with
  | .hall h => (.hall (h.sample P x).1, (h.sample P x).2)
  | .plate p => (.plate (p.sample P x).1, (p.sample P x).2)

/-- One output word (R330, R333): the input word bit for bit when `mix` is a zero, else dry and wet mixed. -/
def mixWord (mix raw wet : Word) : Word :=
  if isZero mix then raw else fadd (fmul raw (fsub one32 mix)) (fmul wet mix)

/-- The part of the state that PROCESS_BLOCK changes. -/
structure BlockState where
  engine : Engine
  audio : List Host.Cell
deriving DecidableEq, Repr

/-- Frame `n` of a stereo block (R330, R331). -/
def frameStereo (P : Preset) (mix : Word) (epoch n : Nat) (b : BlockState) : BlockState :=
  let u0 := audioWord epoch b.audio (audioAddr .i0 n)
  let u1 := audioWord epoch b.audio (audioAddr .i1 n)
  let r := sampleEngine P b.engine ⟨u0, u1⟩
  { engine := r.1
    audio := audioPut (audioAddr .i1 n) (mixWord mix u1 r.2.r)
      (audioPut (audioAddr .i0 n) (mixWord mix u0 r.2.l) b.audio) }

/-- Frame `n` of a mono block (R330, R331): the one channel feeds both inputs, and the wet word is the mean. -/
def frameMono (P : Preset) (mix : Word) (epoch n : Nat) (b : BlockState) : BlockState :=
  let u0 := audioWord epoch b.audio (audioAddr .i0 n)
  let r := sampleEngine P b.engine ⟨u0, u0⟩
  { engine := r.1
    audio := audioPut (audioAddr .i0 n) (mixWord mix u0 (fmul half32 (fadd r.2.l r.2.r))) b.audio }

/-- Frame `n` of a block for the prepared number of channels (R331). -/
def frameStep (P : Preset) (channels : Nat) (mix : Word) (epoch n : Nat) (b : BlockState) : BlockState :=
  if channels = 2 then frameStereo P mix epoch n b else frameMono P mix epoch n b

/-- `count` frames in increasing order, from frame `n` (R330). -/
def runFrames (P : Preset) (channels : Nat) (mix : Word) (epoch : Nat) : Nat → Nat → BlockState → BlockState
  | 0, _, b => b
  | count + 1, n, b => runFrames P channels mix epoch count (n + 1) (frameStep P channels mix epoch n b)

end Sys2Proof.Machine
end

