-- ==== Sys2Proof/Machine/ContractCommands.lean ====
section
/-! DEFINITION. NOP, PREPARE, RESET, SET_PARAMS, GET_PARAM, PROCESS_BLOCK, ENG_INFO (spec/46_host_commands.md). -/

namespace Sys2Proof.Machine

open Ieee

/-- NOP (R312): nothing, in any state of the core. -/
def execNop (s : State) : Host.Outcome State Fault Refusal := done s

/-- PREPARE's preconditions (R313): the sample rate, the block size and the channel count are in range. -/
def prepareOk (s : State) : Bool :=
  dle fsMin (argF64 s) && dle (argF64 s) fsMax && (decide (1 ≤ argU32₂ s) && decide (argU32₂ s ≤ maxBlock)) &&
    (decide (argU32₃ s = 1) || decide (argU32₃ s = 2))

/-- The state a successful PREPARE leaves (R313). -/
def prepared (k : EngineKind) (s : State) : State :=
  setEngine (buildEngine preset k (argF64 s) s.par)
    { s with prep := { fs := argF64 s, maxBlockSize := argU32₂ s, numChannels := argU32₃ s } }

/-- PREPARE (R313): valid in UNINIT and in READY. -/
def execPrepare (engine : EngineKind) (s : State) : Host.Outcome State Fault Refusal :=
  done (withPrecond s (prepareOk s) (prepared engine s))

/-- RESET (R316). -/
def execReset (s : State) : Host.Outcome State Fault Refusal :=
  done (whenReady s fun e => setEngine (clearEngine e) s)

/-- The value of a staging register that SET_PARAMS takes: the register's value, or, where the host has written it since
the command was accepted, any value it has held since (R114, R115; log 6). -/
def stagedWord (s : State) (p : ParamIdx) : Word :=
  match s.stageOld.get p with
  | [] => s.stage.get p
  | v :: old => ((s.stage.get p) :: v :: old).getD (Config.raceChoice s.freeCtr p % (old.length + 2)) (s.stage.get p)

/-- One field of SET_PARAMS (R320): a NaN keeps the applied value, anything else is clamped into the field's range. -/
def applyParam (p : ParamIdx) (staged applied : Word) : Word :=
  if isNaN staged then applied else fmin (fmax staged (parLo.get p)) (parHi.get p)

/-- The applied parameters after SET_PARAMS (R320). -/
def appliedParams (s : State) : ParamSet Word := .ofFn fun p => applyParam p (stagedWord s p) (s.par.get p)

/-- SET_PARAMS (R320): clamp, apply, recompute. -/
def execSetParams (s : State) : Host.Outcome State Fault Refusal :=
  done (whenReady s fun e =>
    setEngine (recomputeEngine preset (appliedParams s) s.prep.fs e) { s with par := appliedParams s })

/-- GET_PARAM (R325): an applied parameter. An index above 6 is no command word's (R140); the command is then illegal
(log 14). -/
def execGetParam (index : BitVec 16) (s : State) : Host.Outcome State Fault Refusal :=
  done (match paramIdxOf index.toNat with
    | none => commandFault .illegalCmd s
    | some p => whenReady s fun _ => setRes0 (s.par.get p) s)

/-- The state a PROCESS_BLOCK of `count` frames leaves (R330). -/
def processed (count : Nat) (e : Engine) (s : State) : State :=
  let b := runFrames preset s.prep.numChannels s.par.mix s.audioEpoch count 0 { engine := e, audio := s.audio }
  { s with engine := some b.engine, audio := b.audio }

/-- PROCESS_BLOCK (R330). -/
def execProcessBlock (numSamples : BitVec 16) (s : State) : Host.Outcome State Fault Refusal :=
  done (whenReady s fun e =>
    withPrecond s (decide (numSamples.toNat ≤ s.prep.maxBlockSize)) (processed numSamples.toNat e s))

/-- ENG_INFO (R335): the delay state of a modulated line, and the loop gain. -/
def execEngInfo (u : UnitId) (s : State) : Host.Outcome State Fault Refusal :=
  done (whenReady s fun e => withUnit s (reportOf e u) fun r =>
    setRes3 r.fb (setRes2 r.gain (setRes1 r.base (setRes0 r.dcur s))))

end Sys2Proof.Machine
end

