-- ==== Sys2Proof/Machine/DampingCommands.lean ====
section
/-! DEFINITION. DAMP_PROCESS, DAMP_INFO (spec/43_damping.md R236, R237). -/

namespace Sys2Proof.Machine

/-- DAMP_PROCESS (R236): one sample, `float(ARG0)`, through the chain `u`. -/
def execDampProcess (u : UnitId) (s : State) : Host.Outcome State Fault Refusal :=
  done (whenReady s fun e => withUnit s (dampOf e u) fun d =>
    setRes0 (d.process (argF32 s)).2 (setEngine (setDampOf e u (d.process (argF32 s)).1) s))

/-- DAMP_INFO (R237): the coefficients and the high-pass enable. -/
def execDampInfo (u : UnitId) (s : State) : Host.Outcome State Fault Refusal :=
  done (whenReady s fun e => withUnit s (dampOf e u) fun d =>
    setRes3 (flagWord d.hpEn) (setRes2 d.gPSY (setRes1 d.gHP (setRes0 d.gLP s))))

end Sys2Proof.Machine
end

