-- ==== Sys2Proof/Machine/DelayLineCommands.lean ====
section
/-! DEFINITION. DL_PUSH, DL_POP_FIXED, DL_READ_FRAC, DL_INFO (spec/40_delay_line.md R171 to R174). -/

namespace Sys2Proof.Machine

/-- DL_PUSH (R171): push `float(ARG0)` into the line of unit `u`. -/
def execDlPush (u : UnitId) (s : State) : Host.Outcome State Fault Refusal :=
  done (whenReady s fun e => withUnit s (lineOf e u) fun l => setEngine (setLineOf e u (l.push (argF32 s))) s)

/-- DL_POP_FIXED (R172): the integer read at offset `k`, checked. -/
def execDlPopFixed (u : UnitId) (k : BitVec 16) (s : State) : Host.Outcome State Fault Refusal :=
  done (whenReady s fun e => withUnit s (lineOf e u) fun l =>
    withPrecond s (l.validOffset k.toNat) (setRes0 (l.popFixed k.toNat) s))

/-- DL_READ_FRAC (R173): the fractional read at `float(ARG0)`, checked and not clamped. -/
def execDlReadFrac (u : UnitId) (s : State) : Host.Outcome State Fault Refusal :=
  done (whenReady s fun e => withUnit s (lineOf e u) fun l =>
    withPrecond s (l.validFraction (argF32 s)) (setRes0 (l.readFractional (argF32 s)) s))

/-- DL_INFO (R174): capacity and cursor. -/
def execDlInfo (u : UnitId) (s : State) : Host.Outcome State Fault Refusal :=
  done (whenReady s fun e => withUnit s (lineOf e u) fun l => setRes1 (u32 l.w) (setRes0 (u32 l.N) s))

end Sys2Proof.Machine
end

