-- ==== Sys2Proof/Machine/OscillatorCommands.lean ====
section
/-! DEFINITION. LFO_TICK, LFO_RESET, LFO_INFO (spec/42_lfo.md R218 to R220). -/

namespace Sys2Proof.Machine

/-- LFO_TICK (R218): the outputs at the current phase, then one sample's advance. -/
def execLfoTick (u : UnitId) (s : State) : Host.Outcome State Fault Refusal :=
  done (whenReady s fun e => withUnit s (lfoOf e u) fun l =>
    setRes1 l.tick.2.q (setRes0 l.tick.2.n (setEngine (setEngineLfo e l.tick.1) s)))

/-- LFO_RESET (R219): the phase is +0.0. -/
def execLfoReset (u : UnitId) (s : State) : Host.Outcome State Fault Refusal :=
  done (whenReady s fun e => withUnit s (lfoOf e u) fun l => setEngine (setEngineLfo e l.restart) s)

/-- LFO_INFO (R220): phase, increment, depth. -/
def execLfoInfo (u : UnitId) (s : State) : Host.Outcome State Fault Refusal :=
  done (whenReady s fun e => withUnit s (lfoOf e u) fun l =>
    setRes2 l.depth (setRes1 l.delta (setRes0 l.theta s)))

end Sys2Proof.Machine
end

