-- ==== Sys2Proof/Machine/Dispatch.lean ====
section
/-! DEFINITION. The meaning of each command: one arm per constructor of Instr (spec/30_encoding.md R134). -/

namespace Sys2Proof.Machine

/-- The effect of a command, after decoding (R310); the command word itself is `ctl.pending`. -/
def exec (i : Instr) (s : State) : Host.Outcome State Fault Refusal :=
  match i with
  | .dlPush u => Sys2Proof.Machine.execDlPush u s
  | .dlPopFixed u k => Sys2Proof.Machine.execDlPopFixed u k s
  | .dlReadFrac u => Sys2Proof.Machine.execDlReadFrac u s
  | .dlInfo u => Sys2Proof.Machine.execDlInfo u s
  | .apProcess u => Sys2Proof.Machine.execApProcess u s
  | .apSetGain u => Sys2Proof.Machine.execApSetGain u s
  | .apInfo u => Sys2Proof.Machine.execApInfo u s
  | .lfoTick u => Sys2Proof.Machine.execLfoTick u s
  | .lfoReset u => Sys2Proof.Machine.execLfoReset u s
  | .lfoInfo u => Sys2Proof.Machine.execLfoInfo u s
  | .dampProcess u => Sys2Proof.Machine.execDampProcess u s
  | .dampInfo u => Sys2Proof.Machine.execDampInfo u s
  | .nop => Sys2Proof.Machine.execNop s
  | .prepare engine => Sys2Proof.Machine.execPrepare engine s
  | .reset => Sys2Proof.Machine.execReset s
  | .setParams => Sys2Proof.Machine.execSetParams s
  | .getParam index => Sys2Proof.Machine.execGetParam index s
  | .processBlock numSamples => Sys2Proof.Machine.execProcessBlock numSamples s
  | .engInfo u => Sys2Proof.Machine.execEngInfo u s

end Sys2Proof.Machine
end

