-- ==== Sys2Proof/Machine/CoreStep.lean ====
section
/-! DEFINITION. The core's step, and one event of the environment (spec/20_memory.md R110 to R112,
spec/46_host_commands.md R310, spec/70_reset_and_hazards.md R380). -/

namespace Sys2Proof.Machine

/-- The core step of the pending command (R112, R310): decode, execute, and `ctl.busy <- 0`. -/
def coreStep (s : State) : Host.Outcome State Fault Refusal :=
  match decode s.pending with
  | .error _ => .next (completeCommand (commandFault .illegalCmd s))
  | .ok i =>
    match exec i s with
    | .next t => .next (completeCommand t)
    | .fault r => .fault r
    | .refused r => .refused r

/-- The core's turn: its step if a command is pending, else the core is idle (R112, R365). -/
def coreTurn (s : State) : Host.Outcome State Fault Refusal := if s.busy then coreStep s else .next s

/-- One event of the environment: a host access, the core's turn, or the reset input (R110, R112, R380). -/
def eventStep (ev : BusEvent) (s : State) : Host.Outcome State Fault Refusal :=
  match ev with
  | .read addr => .next (busRead addr s)
  | .write addr v => .next (busWrite addr v s)
  | .coreTurn => coreTurn s
  | .hardwareReset => .next (hardwareReset s)

/-- `s` with the command word of the table's bits `w` accepted (R112) and the core's turn next (log 18). -/
def fetchNext (s : State) (nbits w : Nat) : State :=
  { acceptCommand (BitVec.ofNat 32 (w % 2 ^ nbits)) s with inputs := .coreTurn :: s.inputs }

end Sys2Proof.Machine
end

