-- ==== Sys2Proof/Machine/Step.lean ====
section
/-! DEFINITION. One step of the system (spec/20_memory.md R110 to R112, spec/70_reset_and_hazards.md R396). -/

namespace Sys2Proof.Machine

/-- One step: the next event of the environment. When no event is left, the core moves if a command is pending, so every
pending command is executed (R396; log 7). -/
def step (s : State) : Host.Outcome State Fault Refusal :=
  match s.inputs with
  | [] => coreTurn s
  | ev :: rest => eventStep ev { s with inputs := rest }

/-- The block fetches nothing (R7): what it executes next is the command its `CMD` register has accepted. The very next
step of this state executes the command word `w` (log 18). -/
def State.withFetchWord (s : State) (nbits w : Nat) : State := fetchNext s nbits w

end Sys2Proof.Machine
end

