-- ==== Sys2Proof/Safety.lean ====
section
/-! DEFINITION. What the model keeps true of every state a run can reach, in the terms statements use. -/

namespace Sys2Proof.Machine

open Ieee

/-- A delay line's ring is well formed (R48, R161): the cursor is inside it, and its buffer is in canonical form (log 11). -/
structure LineOk (l : DelayLine) : Prop where
  cursor : l.w < l.N
  rising : cellsRising l.buf = true
  inside : ∀ c ∈ l.buf, c.1 < l.N ∧ c.2 ≠ 0

/-- An allpass is well formed (R49, R191): its delay and capacity, and its gain in `[0, f32(0.85)]`. -/
structure AllpassOk (P : Preset) (a : Allpass) : Prop where
  delay : 1 ≤ a.M
  size : a.line.N = a.M + 4
  gainLow : fle 0 a.g = true
  gainHigh : fle a.g P.apGainMax = true

/-- `e` with every allpass gain as PREPARE sets it (R192). -/
def presetGains (P : Preset) : Engine → Engine
  | .hall h => .hall { h with
      early := h.early.map fun s => s.map fun a => { a with g := clampGain P P.hallEarlyG }
      late := h.late.map fun s => s.map fun a => { a with g := clampGain P P.hallLateG } }
  | .plate p => .plate { p with
      early := p.early.map fun s => s.map fun a => { a with g := clampGain P P.plateEarlyG } }

/-- The prepared engine is well formed: but for its signal state and its allpass gains it is the engine PREPARE would
build from the sample rate and the applied parameters (so its capacities are fixed, R122, and its coefficients are those
of R321), and each of its units is well formed. -/
structure EngineOk (P : Preset) (par : ParamSet Word) (fs : DWord) (e : Engine) : Prop where
  prepared : presetGains P (clearEngine e) = buildEngine P (engineKind e) fs par
  lines : ∀ u l, lineOf e u = some l → LineOk l
  allpasses : ∀ u a, allpassOf e u = some a → AllpassOk P a

/-- The prepared configuration is one PREPARE accepts (R41, R313). -/
structure PreparedOk (c : Prepared) : Prop where
  rateLow : dle fsMin c.fs = true
  rateHigh : dle c.fs fsMax = true
  blockLow : 1 ≤ c.maxBlockSize
  blockHigh : c.maxBlockSize ≤ maxBlock
  channels : c.numChannels = 1 ∨ c.numChannels = 2

/-- Every applied parameter is in its range (R46). -/
def ParamsOk (par : ParamSet Word) : Prop := ∀ p, fle (parLo.get p) (par.get p) = true ∧ fle (par.get p) (parHi.get p) = true

/-- The fault record is one that R352 can leave: a first code is recorded exactly when a bit is set, and its own bit is. -/
structure FaultRecordOk (s : State) : Prop where
  first : s.firstCode = 0 ↔ s.faultBits = 0
  known : s.firstCode.toNat ≤ 6
  ownBit : s.firstCode ≠ 0 → s.faultBits.getLsbD (s.firstCode.toNat - 1) = true
  info : s.firstCode = 0 → s.faultInfo = 0

/-- The invariant of the block. -/
structure Inv (s : State) : Prop where
  memory : Memory.wf s.audio = true
  params : ParamsOk s.par
  faults : FaultRecordOk s
  idle : s.busy = false → s.stageOld = noStageOld
  uninit : s.engine = none → s.prep = State.reset.prep
  ready : ∀ e, s.engine = some e → PreparedOk s.prep ∧ EngineOk preset s.par s.prep.fs e

/-- A run that records no fault: what a host that keeps to the protocol of R385 to R393 sees. -/
def faultFree (s : State) : Prop := s.faultBits = 0

/-- The next event of the environment is not the reset input. -/
def noResetNext (s : State) : Prop := ∀ rest, s.inputs ≠ .hardwareReset :: rest

/-- The core takes a step next: a command is pending, and it is the core's turn or no event is left (R112). -/
def coreMovesNext (s : State) : Prop := s.busy = true ∧ (s.inputs = [] ∨ ∃ rest, s.inputs = .coreTurn :: rest)

/-- `s` after the event at the head of its inputs is taken from it. -/
def afterEvent (s : State) : State := { s with inputs := s.inputs.tail }

/-! ### Frames: what a command leaves alone -/

/-- The environment, the handshake, the host-written registers and the bookkeeping are unchanged. -/
structure KeepsHost (s t : State) : Prop where
  inputs : t.inputs = s.inputs
  hostReads : t.hostReads = s.hostReads
  busy : t.busy = s.busy
  pending : t.pending = s.pending
  arg : t.arg = s.arg
  stage : t.stage = s.stage
  stageOld : t.stageOld = s.stageOld
  freeCtr : t.freeCtr = s.freeCtr
  audioEpoch : t.audioEpoch = s.audioEpoch

/-- The fault record (R42) is unchanged. -/
structure KeepsFaults (s t : State) : Prop where
  bits : t.faultBits = s.faultBits
  first : t.firstCode = s.firstCode
  info : t.faultInfo = s.faultInfo

/-- Every register but `RES`, and the configuration, is unchanged. -/
structure KeepsRegisters (s t : State) : Prop where
  host : KeepsHost s t
  faults : KeepsFaults s t
  prep : t.prep = s.prep
  par : t.par = s.par

/-- Every byte of audio memory reads as before. -/
def KeepsAudio (s t : State) : Prop :=
  ∀ a, audioByte t.audioEpoch t.audio a = audioByte s.audioEpoch s.audio a

/-- The registers of the prepared engine beside its units (R52 to R54). -/
inductive EngineRegs where
  | hall (fb dcur base : Pair Word) (decay : Word)
  | plate (dcur base : Quad Word) (g : Word) (preD : Pair Word)
deriving DecidableEq, Repr

def engineRegs : Engine → EngineRegs
  | .hall h => .hall h.fb h.dcur h.base h.decay
  | .plate p => .plate p.dcur p.base p.g p.preD

/-- Every unit but `u` is unchanged, and so is every engine register. -/
structure KeepsOtherUnits (u : UnitId) (e e' : Engine) : Prop where
  lines : ∀ v, v ≠ u → lineOf e' v = lineOf e v
  allpasses : ∀ v, v ≠ u → allpassOf e' v = allpassOf e v
  damps : ∀ v, v ≠ u → dampOf e' v = dampOf e v
  lfos : ∀ v, v ≠ u → lfoOf e' v = lfoOf e v
  regs : engineRegs e' = engineRegs e

/-- Signal state is what a change of coefficients leaves (R320, R321): lines, allpasses, filter states, the phase, the
current delays and the Hall feedback. -/
structure KeepsSignalState (e e' : Engine) : Prop where
  kind : engineKind e' = engineKind e
  lines : ∀ u, lineOf e' u = lineOf e u
  allpasses : ∀ u, allpassOf e' u = allpassOf e u
  damps : ∀ u d, dampOf e u = some d → ∃ d', dampOf e' u = some d' ∧ d'.sLP = d.sLP ∧ d'.sHP = d.sHP ∧ d'.sPSY = d.sPSY
  phase : (engineLfo e').theta = (engineLfo e).theta
  delays : ∀ u r, reportOf e u = some r → ∃ r', reportOf e' u = some r' ∧ r'.dcur = r.dcur ∧ r'.fb = r.fb

/-! ### The fault conditions of R135, R137, R140 and R351, as the spec tabulates them -/

/-- R140 step 1: the words that are no command. -/
def illegalWord (v : Word) : Bool :=
  let opc := (opcOf v).toNat
  let unit := (unitOf v).toNat
  let imm := (immOf v).toNat
  !(decide (opc ≤ 0x06) || (decide (0x10 ≤ opc) && decide (opc ≤ 0x13)) || (decide (0x20 ≤ opc) && decide (opc ≤ 0x22)) ||
      (decide (0x30 ≤ opc) && decide (opc ≤ 0x32)) || decide (opc = 0x40) || decide (opc = 0x41)) ||
    (decide (opc ∈ [0x00, 0x02, 0x03]) && (decide (unit ≠ 0) || decide (imm ≠ 0))) ||
    (decide (opc = 0x01) && (decide (0x01 < unit) || decide (imm ≠ 0))) ||
    (decide (opc = 0x04) && (decide (unit ≠ 0) || decide (6 < imm))) ||
    (decide (opc = 0x05) && decide (unit ≠ 0)) ||
    (decide (opc ∈ [0x06, 0x10, 0x12, 0x13, 0x20, 0x21, 0x22, 0x30, 0x31, 0x32, 0x40, 0x41]) && decide (imm ≠ 0))

/-- The delay-line units (R135, R137). -/
def delayLineIds : EngineKind → List Nat
  | .hall => [0x00, 0x01]
  | .plate => [0x00, 0x01, 0x02, 0x03, 0x04]

/-- The allpass units (R135, R137). -/
def allpassIds : EngineKind → List Nat
  | .hall => [0x10, 0x11, 0x12, 0x13, 0x18, 0x19, 0x1A, 0x1B]
  | .plate => [0x10, 0x11, 0x12, 0x13, 0x14, 0x15, 0x16, 0x17]

/-- The damping units (R135, R137). -/
def dampingIds : EngineKind → List Nat
  | .hall => [0x30, 0x31]
  | .plate => [0x30, 0x31, 0x32, 0x33]

/-- The modulated-line units (R135, R137). -/
def modulatedIds : EngineKind → List Nat
  | .hall => [0x00, 0x01]
  | .plate => [0x00, 0x01, 0x02, 0x03]

/-- R140 step 3: the `UNIT` values each command takes on an engine. -/
def unitAllowed (k : EngineKind) : Instr → Bool
  | .dlPush u => decide (u.toNat ∈ delayLineIds k ++ allpassIds k)
  | .dlPopFixed u _ => decide (u.toNat ∈ delayLineIds k ++ allpassIds k)
  | .dlReadFrac u => decide (u.toNat ∈ delayLineIds k ++ allpassIds k)
  | .dlInfo u => decide (u.toNat ∈ delayLineIds k ++ allpassIds k)
  | .apProcess u => decide (u.toNat ∈ allpassIds k)
  | .apSetGain u => decide (u.toNat ∈ allpassIds k)
  | .apInfo u => decide (u.toNat ∈ allpassIds k)
  | .lfoTick u => decide (u.toNat = 0x20)
  | .lfoReset u => decide (u.toNat = 0x20)
  | .lfoInfo u => decide (u.toNat = 0x20)
  | .dampProcess u => decide (u.toNat ∈ dampingIds k)
  | .dampInfo u => decide (u.toNat ∈ dampingIds k)
  | .nop => true
  | .prepare _ => true
  | .reset => true
  | .setParams => true
  | .getParam _ => true
  | .processBlock _ => true
  | .engInfo u => decide (u.toNat ∈ modulatedIds k)

/-- R140 step 2: every command but NOP and PREPARE needs `READY`. -/
def needsReady (i : Instr) : Bool := decide (i.opc ≠ 0x00) && decide (i.opc ≠ 0x01)

/-- The operands of PREPARE are in range (R313, R351). -/
structure PrepareOperandsOk (s : State) : Prop where
  rateLow : dle fsMin (s.arg.v1 ++ s.arg.v0) = true
  rateHigh : dle (s.arg.v1 ++ s.arg.v0) fsMax = true
  blockLow : 1 ≤ s.arg.v2.toNat
  blockHigh : s.arg.v2.toNat ≤ 4096
  channels : s.arg.v3.toNat = 1 ∨ s.arg.v3.toNat = 2

/-- R351: the code-4 condition of each command does not hold. -/
def OperandsOk (s : State) : Instr → Prop
  | .dlPush _ => True
  | .dlPopFixed u k => ∀ e l, s.engine = some e → lineOf e u = some l → 1 ≤ k.toNat ∧ k.toNat + 2 ≤ l.N
  | .dlReadFrac u => ∀ e l, s.engine = some e → lineOf e u = some l →
      isNaN s.arg.v0 = false ∧ fle 0x3F800000 s.arg.v0 = true ∧ fle s.arg.v0 (nat32 (l.N - 2)) = true
  | .dlInfo _ => True
  | .apProcess _ => True
  | .apSetGain _ => True
  | .apInfo _ => True
  | .lfoTick _ => True
  | .lfoReset _ => True
  | .lfoInfo _ => True
  | .dampProcess _ => True
  | .dampInfo _ => True
  | .nop => True
  | .prepare _ => PrepareOperandsOk s
  | .reset => True
  | .setParams => True
  | .getParam _ => True
  | .processBlock n => n.toNat ≤ s.prep.maxBlockSize
  | .engInfo _ => True

/-- Which of `RES0` to `RES3` a command writes (R134). -/
def resWritten : Instr → Quad Bool
  | .dlPush _ => ⟨false, false, false, false⟩
  | .dlPopFixed _ _ => ⟨true, false, false, false⟩
  | .dlReadFrac _ => ⟨true, false, false, false⟩
  | .dlInfo _ => ⟨true, true, false, false⟩
  | .apProcess _ => ⟨true, false, false, false⟩
  | .apSetGain _ => ⟨true, false, false, false⟩
  | .apInfo _ => ⟨true, true, false, false⟩
  | .lfoTick _ => ⟨true, true, false, false⟩
  | .lfoReset _ => ⟨false, false, false, false⟩
  | .lfoInfo _ => ⟨true, true, true, false⟩
  | .dampProcess _ => ⟨true, false, false, false⟩
  | .dampInfo _ => ⟨true, true, true, true⟩
  | .nop => ⟨false, false, false, false⟩
  | .prepare _ => ⟨false, false, false, false⟩
  | .reset => ⟨false, false, false, false⟩
  | .setParams => ⟨false, false, false, false⟩
  | .getParam _ => ⟨true, false, false, false⟩
  | .processBlock _ => ⟨false, false, false, false⟩
  | .engInfo _ => ⟨true, true, true, true⟩

/-! ### Coefficients and sizes, by the formulas of the spec: the constants of R12 and R60 stand as their encodings -/

/-- `(g, o)` is `coef(fc)` at sample rate `fs` (R231). -/
def IsCoef (fs fc : DWord) (g o : Word) : Prop :=
  g = toF32 (Config.exp64 (ddiv (dneg (dmul 0x401921FB54442D18 fc)) fs)) ∧ o = fsub 0x3F800000 g

/-- `g` is `f32(min(x, FB_CLAMP))`, `FB_CLAMP` = 0.995 (R252, R282). Of a NaN `x` it says nothing. -/
def IsClampedGain (x : DWord) (g : Word) : Prop :=
  (dle x 0x3FEFD70A3D70A3D7 = true → g = toF32 x) ∧ (dle 0x3FEFD70A3D70A3D7 x = true → g = 0x3F7EB852)

/-- `b` is `f32(ms * roomSize * fs / 1000)` (R252, R282). -/
def IsBaseDelay (par : ParamSet Word) (fs ms : DWord) (b : Word) : Prop :=
  b = toF32 (ddiv (dmul (dmul ms (toF64 par.roomSize)) fs) 0x408F400000000000)

/-- The coefficients of an oscillator (R212). -/
structure LfoCoefficients (par : ParamSet Word) (fs : DWord) (l : Lfo) : Prop where
  delta : l.delta = toF32 (ddiv (dmul 0x401921FB54442D18 (toF64 par.modRate)) fs)
  depth : l.depth = par.modDepth

/-- The coefficients of a damping chain (R232), with `HP_CUTOFF_HZ` = 20 and `PSY_RATIO` = 2. -/
structure DampCoefficients (par : ParamSet Word) (fs : DWord) (d : Damp) : Prop where
  lowPass : IsCoef fs (toF64 par.damping) d.gLP d.oLP
  highPass : IsCoef fs 0x4034000000000000 d.gHP d.oHP
  psy : IsCoef fs (dmul 0x4000000000000000 (toF64 par.damping)) d.gPSY d.oPSY
  enabled : d.hpEn = true

/-- The coefficients of `hall.recompute()` (R252), with `HALL_TANK_MS` = 87, 93. -/
structure HallCoefficients (par : ParamSet Word) (fs : DWord) (h : Hall) : Prop where
  base0 : IsBaseDelay par fs 0x4055C00000000000 h.base.v0
  base1 : IsBaseDelay par fs 0x4057400000000000 h.base.v1
  decay : IsClampedGain
    (Config.exp64 (ddiv
      (dmul 0xC01BA18A998FFFA0
        (ddiv (dmul (toF64 par.roomSize) (ddiv (dadd 0x4055C00000000000 0x4057400000000000) 0x4000000000000000)) 0x408F400000000000))
      (toF64 par.decayTime)))
    h.decay

/-- The coefficients of `plate.recompute()` (R282), with `PLATE_FDN_MS` = 31, 37, 45, 56, `PLATE_STRETCH` = 1 and
`PLATE_PRE_R_OFFSET_MS` = 0. -/
structure PlateCoefficients (par : ParamSet Word) (fs : DWord) (p : Plate) : Prop where
  base0 : IsBaseDelay par fs 0x403F000000000000 p.base.v0
  base1 : IsBaseDelay par fs 0x4042800000000000 p.base.v1
  base2 : IsBaseDelay par fs 0x4046800000000000 p.base.v2
  base3 : IsBaseDelay par fs 0x404C000000000000 p.base.v3
  gain : IsClampedGain
    (Config.exp64 (ddiv
      (dmul 0xC01BA18A998FFFA0
        (ddiv
          (dmul (toF64 par.roomSize)
            (ddiv (dadd (dadd (dadd 0x403F000000000000 0x4042800000000000) 0x4046800000000000) 0x404C000000000000)
              0x4010000000000000))
          0x408F400000000000))
      (dmul (toF64 par.decayTime) 0x3FF0000000000000)))
    p.g
  preL : p.preD.v0 = toF32 (ddiv (dmul (toF64 par.preDelay) fs) 0x408F400000000000)
  preR : p.preD.v1 = toF32 (ddiv (dmul (dadd (toF64 par.preDelay) 0x0000000000000000) fs) 0x408F400000000000)

/-- Every coefficient of an engine is the one that `par` and `fs` determine (R321). -/
structure DerivedCoefficients (par : ParamSet Word) (fs : DWord) (e : Engine) : Prop where
  lfo : LfoCoefficients par fs (engineLfo e)
  damps : ∀ u d, dampOf e u = some d → DampCoefficients par fs d
  hall : ∀ h, e = .hall h → HallCoefficients par fs h
  plate : ∀ p, e = .plate p → PlateCoefficients par fs p

/-- Unit `u` is a line whose longest delay is `x` samples (R163). -/
def IsLineFor (e : Engine) (u : UnitId) (x : DWord) : Prop :=
  ∃ l, lineOf e u = some l ∧ l.N = ceilVal (val64 x) + 4

/-- Unit `u` is an allpass of `ms` milliseconds (R191): `M = max(1, floor(ms * fs / 1000 + 0.5))` and `N = M + 4`. -/
def IsStageOf (fs : DWord) (e : Engine) (u : UnitId) (ms : DWord) : Prop :=
  ∃ a, allpassOf e u = some a ∧
    a.M = max 1 (floorVal (val64 (dadd (ddiv (dmul ms fs) 0x408F400000000000) 0x3FE0000000000000))) ∧ a.line.N = a.M + 4

/-- The sizes of a Hall engine (R163, R191, R251): tanks for `ms * 1.75 * (1 + 0.01) * fs / 1000` samples, and the stage
times of R60. -/
structure HallSizes (fs : DWord) (e : Engine) : Prop where
  tanks : ∀ r : UnitId × DWord, r ∈ [(0x00, 0x4055C00000000000), (0x01, 0x4057400000000000)] →
    IsLineFor e r.1 (ddiv (dmul (dmul (dmul r.2 0x3FFC000000000000) (dadd 0x3FF0000000000000 0x3F847AE147AE147B)) fs)
      0x408F400000000000)
  stages : ∀ r : UnitId × DWord,
    r ∈ [(0x10, 0x4013147AE147AE14), (0x11, 0x400CB851EB851EB8), (0x12, 0x40141EB851EB851F),
       (0x13, 0x400DD70A3D70A3D7), (0x18, 0x4021DC28F5C28F5C), (0x19, 0x40193D70A3D70A3D),
       (0x1A, 0x4022BD70A3D70A3D), (0x1B, 0x401AAE147AE147AE)] →
      IsStageOf fs e r.1 r.2

/-- The sizes of a Plate engine (R163, R191, R281): FDN lines for `ms * 1.75 * (1 + 0.0015) * fs / 1000` samples, the
pre-delay line for `(200 + 0) * fs / 1000`, and the stage times of R60. -/
structure PlateSizes (fs : DWord) (e : Engine) : Prop where
  lines : ∀ r : UnitId × DWord,
    r ∈ [(0x00, 0x403F000000000000), (0x01, 0x4042800000000000), (0x02, 0x4046800000000000),
       (0x03, 0x404C000000000000)] →
      IsLineFor e r.1 (ddiv (dmul (dmul (dmul r.2 0x3FFC000000000000) (dadd 0x3FF0000000000000 0x3F589374BC6A7EFA)) fs)
        0x408F400000000000)
  preDelay : IsLineFor e 0x04 (ddiv (dmul (dadd 0x4069000000000000 0x0000000000000000) fs) 0x408F400000000000)
  stages : ∀ r : UnitId × DWord,
    r ∈ [(0x10, 0x40113D70A3D70A3D), (0x11, 0x40095C28F5C28F5C), (0x12, 0x402675C28F5C28F6),
       (0x13, 0x40202E147AE147AE), (0x14, 0x40121EB851EB851F), (0x15, 0x400AF5C28F5C28F6),
       (0x16, 0x40276B851EB851EC), (0x17, 0x4020D1EB851EB852)] →
      IsStageOf fs e r.1 r.2

/-- The oscillator's phase is in `[0, TWO_PI_F32)` (R50, R214). -/
structure PhaseOk (l : Lfo) : Prop where
  low : fle 0 l.theta = true
  high : fle 0x40C90FDB l.theta = false
  number : isNaN l.theta = false

/-- The oscillator's increment is in the range of R212: above 0 and at most `f32(2 pi * 5 / 8000)`. -/
structure IncrementOk (l : Lfo) : Prop where
  number : isNaN l.delta = false
  low : fle l.delta 0 = false
  high : fle l.delta 0x3B80ADFD = true

/-! ### Runs -/

/-- `n` steps of the system. -/
def runSteps : Nat → State → Host.Outcome State Fault Refusal
  | 0, s => .next s
  | n + 1, s =>
    match step s with
    | .next t => runSteps n t
    | .fault r => .fault r
    | .refused r => .refused r

/-- The command the core's next step executes, if it moves next. -/
def executesNext (s : State) (i : Instr) : Prop := coreMovesNext s ∧ decode s.pending = .ok i

/-- `t` follows `s` by steps of the system, none of them hardware reset, PREPARE, SET_PARAMS or AP_SET_GAIN. -/
inductive SignalRun (s : State) : State → Prop where
  | refl : SignalRun s s
  | step {t u : State} (h : SignalRun s t) (hr : noResetNext t)
      (hi : ∀ i, executesNext t i → i.opc ≠ 0x01 ∧ i.opc ≠ 0x03 ∧ i.opc ≠ 0x21) (hs : step t = .next u) : SignalRun s u

/-- A binary32 word is neither an infinity nor a NaN. -/
def isFinite32 (a : Word) : Bool := decide (magOf binary32 a.toNat < binary32.infMag)

end Sys2Proof.Machine
end

