-- ==== Sys2Proof/Certificates/Slice0/Obligations.lean ====
section
/-! DEFINITION. The statements about the block, each formalising the rules of spec/ its docstring names. -/

open Sys2Proof Sys2Proof.Machine Sys2Proof.Machine.Ieee

/-! ### Hardware reset, registers, faults -/

/-- Hardware reset (R380), from every state: each row of the table, read on the bus where the bus can read it, and the
pending command is dropped. Two clauses are the model's own form: the environment's events to come go on (log 7), and
audio memory, which R380 leaves at any word, holds the free contents of the next epoch (logs 4 and 8). -/
def Obligations.HardwareResetSetsTheTable : Prop :=
  ∀ (s : State) (rest : List BusEvent), s.inputs = .hardwareReset :: rest →
    ∃ t, step s = .next t ∧ t.inputs = rest ∧ t.busy = false ∧ t.pending = 0 ∧
      (∀ r : BusAddr × Word,
        r ∈ [(0x000, 0x41445245), (0x004, 0x07321000), (0x008, 0), (0x00C, 0), (0x010, 0), (0x020, 0), (0x024, 0),
            (0x028, 0), (0x02C, 0), (0x030, 0), (0x034, 0), (0x038, 0), (0x03C, 0), (0x040, 0x3F800000),
            (0x044, 0x40000000), (0x048, 0x45FA0000), (0x04C, 0x3F000000), (0x050, 0x3F000000), (0x054, 0x00000000),
            (0x058, 0x3F000000)] → busReadValue r.1 t = (r.2, t)) ∧
      t.par = ⟨0x3F800000, 0x40000000, 0x45FA0000, 0x3F000000, 0x3F000000, 0x00000000, 0x3F000000⟩ ∧
      ctlState t = .uninit ∧ ctlEngine t = .hall ∧ t.engine = none ∧
      t.prep = { fs := 0, maxBlockSize := 0, numChannels := 0 } ∧
      (∀ a, audioByte t.audioEpoch t.audio a = Config.audioInit (s.audioEpoch + 1) a)

/-- `ID` and `CAPS` are constants in every state, and writes to them are ignored (R31, R32). -/
def Obligations.IdAndCapsAreConstant : Prop :=
  ∀ (s : State) (v : Word),
    busReadValue 0x000 s = (0x41445245, s) ∧ busWrite 0x000 v s = s ∧
    busReadValue 0x004 s = (0x07321000, s) ∧ busWrite 0x004 v s = s ∧
    (busReadValue 0x004 s).1.extractLsb' 0 16 = 4096#16 ∧ (busReadValue 0x004 s).1.extractLsb' 16 4 = 2#4 ∧
    (busReadValue 0x004 s).1.extractLsb' 20 4 = 0b0011#4 ∧ (busReadValue 0x004 s).1.extractLsb' 24 8 = 7#8

/-- `STATUS` read as its fields (R33), in every state that the invariant admits; writes are ignored; it resets to 0. -/
def Obligations.StatusReportsControlState : Prop :=
  (busReadValue 0x008 State.reset).1 = 0 ∧
  ∀ (s : State) (v : Word), Inv s →
    ∃ w, busReadValue 0x008 s = (w, s) ∧ busWrite 0x008 v s = s ∧
      (w.getLsbD 0 = true ↔ ctlState s = .ready) ∧
      (w.getLsbD 1 = true ↔ ctlState s = .ready ∧ ctlEngine s = .plate) ∧
      w.getLsbD 2 = s.busy ∧
      (w.getLsbD 3 = true ↔ s.faultBits ≠ 0) ∧
      w.extractLsb' 4 4 = 0 ∧
      (w.extractLsb' 8 8).toNat = (if ctlState s = .ready then s.prep.numChannels else 0) ∧
      (w.extractLsb' 16 16).toNat = (if ctlState s = .ready then s.prep.maxBlockSize else 0)

/-- `FAULT` (R34, R357): its fields, what a fault sets, that no step but hardware reset clears a bit or changes the first
code or `FAULT_INFO`, and that a write is ignored. -/
def Obligations.FaultRegisterIsSticky : Prop :=
  (∀ s v, busWrite 0x00C v s = s) ∧
  (∀ s, ∃ w, busReadValue 0x00C s = (w, s) ∧ w.extractLsb' 0 6 = s.faultBits ∧ w.extractLsb' 6 2 = 0 ∧
    w.extractLsb' 8 8 = s.firstCode ∧ w.extractLsb' 16 16 = 0) ∧
  (∀ c info s, (raiseFault c info s).faultBits.getLsbD (codeNumber c - 1) = true ∧
    (∀ b, b ≠ codeNumber c - 1 → (raiseFault c info s).faultBits.getLsbD b = s.faultBits.getLsbD b) ∧
    (s.firstCode ≠ 0 → (raiseFault c info s).firstCode = s.firstCode ∧ (raiseFault c info s).faultInfo = s.faultInfo)) ∧
  (∀ s t, noResetNext s → step s = .next t →
    (∀ b, s.faultBits.getLsbD b = true → t.faultBits.getLsbD b = true) ∧
    (s.firstCode ≠ 0 → t.firstCode = s.firstCode ∧ t.faultInfo = s.faultInfo)) ∧
  (busReadValue 0x00C State.reset).1 = 0

/-- `raise Fault(code, info)` (R352) does exactly what its rule says, with the codes and bits of R350. -/
def Obligations.RaisingRecordsExactly : Prop :=
  ∀ (c : FaultCode) (info : Word) (s : State),
    ∃ t, t = raiseFault c info s ∧
      codeNumber c = (match c with
        | .illegalCmd => 1 | .badState => 2 | .badUnit => 3 | .precond => 4 | .busyViolation => 5 | .busError => 6) ∧
      t.faultBits.getLsbD (codeNumber c - 1) = true ∧
      (∀ b, b ≠ codeNumber c - 1 → t.faultBits.getLsbD b = s.faultBits.getLsbD b) ∧
      (s.firstCode = 0 → t.firstCode.toNat = codeNumber c ∧ t.faultInfo = info) ∧
      (s.firstCode ≠ 0 → t.firstCode = s.firstCode ∧ t.faultInfo = s.faultInfo) ∧
      KeepsHost s t ∧ KeepsAudio s t ∧ t.res = s.res ∧ t.prep = s.prep ∧ t.par = s.par ∧ t.engine = s.engine ∧
      (busReadValue 0x008 t).1.getLsbD 3 = true

/-- Writes to the read-only registers do nothing, and a read of `CMD` returns 0 and does nothing (R104). -/
def Obligations.ReadOnlyWritesIgnored : Prop :=
  (∀ (s : State) (v : Word) (a : BusAddr),
    a ∈ [0x000, 0x004, 0x008, 0x00C, 0x010, 0x030, 0x034, 0x038, 0x03C] → busWrite a v s = s) ∧
  (∀ s, busReadValue 0x014 s = (0, s))

/-- A misaligned access, or one to a reserved address (R101), raises fault 6 with the address and does nothing else; the
read returns 0 (R106). -/
def Obligations.BusErrorsOnlyRecord : Prop :=
  ∀ (s : State) (a : BusAddr) (v : Word),
    (a.toNat % 4 ≠ 0 ∨ (0x018 ≤ a.toNat ∧ a.toNat < 0x020) ∨ (0x05C ≤ a.toNat ∧ a.toNat < 0x8000)) →
      busReadValue a s = (0, raiseFault .busError (a.zeroExtend 32) s) ∧
      busWrite a v s = raiseFault .busError (a.zeroExtend 32) s

/-- A write to `CMD` while idle is accepted and nothing else changes; while a command is pending it raises fault 5 with
the written word, and the pending command stays (R112, R113). -/
def Obligations.CommandWriteIsAcceptedOrRefused : Prop :=
  ∀ (s : State) (v : Word),
    (s.busy = false → ∃ t, busWrite 0x014 v s = t ∧ t.busy = true ∧ t.pending = v ∧ t.arg = s.arg ∧ t.stage = s.stage ∧
      t.res = s.res ∧ t.engine = s.engine ∧ t.prep = s.prep ∧ t.par = s.par ∧ KeepsFaults s t ∧ KeepsAudio s t ∧
      (busReadValue 0x008 t).1.getLsbD 2 = true) ∧
    (s.busy = true → busWrite 0x014 v s = raiseFault .busyViolation v s ∧ (busWrite 0x014 v s).pending = s.pending ∧
      (busWrite 0x014 v s).busy = true)

/-- While a command is pending, no host access changes what it will work on, the staging registers excepted: the command
word, `ARG`, the engine, the applied parameters, the configuration and audio memory (R113, R120, R391). A staging write is
performed, and changes what a pending SET_PARAMS may take (R114, R115; `AccessesWhileBusy`). -/
def Obligations.PendingCommandIsUndisturbed : Prop :=
  ∀ (s t : State) (ev : BusEvent) (rest : List BusEvent), s.busy = true → s.inputs = ev :: rest →
    ev ≠ .coreTurn → ev ≠ .hardwareReset → step s = .next t →
      t.busy = true ∧ t.pending = s.pending ∧ t.inputs = rest ∧ t.arg = s.arg ∧ t.res = s.res ∧ t.engine = s.engine ∧
      t.prep = s.prep ∧ t.par = s.par ∧ KeepsAudio s t

/-- Host accesses while a command is pending (R114): operand and audio writes are refused with fault 5 and their address;
a staging write is performed; the other registers read as they are. Two clauses are the model's own form: the value that
SET_PARAMS takes for a register written meanwhile is any the register has held since acceptance, which after one write is
R114's value before it or after it (log 6), and a `RES` or audio read returns a draw of `Config.freeWord` and changes
nothing but the count of draws (log 5). -/
def Obligations.AccessesWhileBusy : Prop :=
  ∀ (s : State) (a : BusAddr) (v : Word), s.busy = true → a.toNat % 4 = 0 →
    ((0x020 ≤ a.toNat ∧ a.toNat < 0x030) ∨ 0x8000 ≤ a.toNat →
      busWrite a v s = raiseFault .busyViolation (a.zeroExtend 32) s) ∧
    (0x040 ≤ a.toNat ∧ a.toNat < 0x05C → ∃ p, paramIdxOf ((a.toNat - 0x040) / 4) = some p ∧
      (busWrite a v s).stage = s.stage.set p v ∧ (busWrite a v s).pending = s.pending ∧
      (busWrite a v s).busy = true ∧ KeepsFaults s (busWrite a v s) ∧
      (stagedWord (busWrite a v s) p = v ∨ stagedWord (busWrite a v s) p = s.stage.get p ∨
        stagedWord (busWrite a v s) p ∈ s.stageOld.get p)) ∧
    ((0x030 ≤ a.toNat ∧ a.toNat < 0x040) ∨ 0x8000 ≤ a.toNat →
      busReadValue a s = (Config.freeWord s.freeCtr, { s with freeCtr := s.freeCtr + 1 })) ∧
    (a = 0x000 → busReadValue a s = (0x41445245, s)) ∧
    (a = 0x004 → busReadValue a s = (0x07321000, s)) ∧
    (a = 0x008 → busReadValue a s = (statusWord s, s)) ∧
    (a = 0x00C → busReadValue a s = (faultWord s, s)) ∧
    (a = 0x010 → busReadValue a s = (s.faultInfo, s)) ∧
    (a = 0x020 → busReadValue a s = (s.arg.v0, s)) ∧
    (a = 0x024 → busReadValue a s = (s.arg.v1, s)) ∧
    (a = 0x028 → busReadValue a s = (s.arg.v2, s)) ∧
    (a = 0x02C → busReadValue a s = (s.arg.v3, s)) ∧
    (0x040 ≤ a.toNat ∧ a.toNat < 0x05C → ∀ p, paramIdxOf ((a.toNat - 0x040) / 4) = some p →
      busReadValue a s = (s.stage.get p, s))

/-- The race of R115 and I18 (the model's form of it is log 6): after any staging writes made while a command is pending,
the value SET_PARAMS takes for a register is the one it held at acceptance or one written to it since; a register that
was not written gives its value. -/
def Obligations.RacedParameterIsOneTheHostHeld : Prop :=
  ∀ (s : State) (writes : List (ParamIdx × Word)) (p : ParamIdx), s.busy = true → s.stageOld = noStageOld →
    stagedWord (writes.foldl (fun t w => writeStage w.1 w.2 t) s) p ∈
        s.stage.get p :: (writes.filter fun w => decide (w.1 = p)).map Prod.snd ∧
      ((∀ w ∈ writes, w.1 ≠ p) → stagedWord (writes.foldl (fun t w => writeStage w.1 w.2 t) s) p = s.stage.get p)

/-- Audio memory (R103, R105): while idle, a word stored at an aligned audio address reads back, in little-endian bytes;
every other byte, every register and the engine are as before. -/
def Obligations.AudioStoreThenRead : Prop :=
  ∀ (s : State) (a : BusAddr) (v : Word), s.busy = false → a.toNat % 4 = 0 → 0x8000 ≤ a.toNat →
    ∃ t, busWrite a v s = t ∧ busReadValue a t = (v, t) ∧
      (∀ i, i < 4 → audioByte t.audioEpoch t.audio (a.toNat + i) = v.extractLsb' (8 * i) 8) ∧
      (∀ b, b < a.toNat ∨ a.toNat + 4 ≤ b →
        audioByte t.audioEpoch t.audio b = audioByte s.audioEpoch s.audio b) ∧
      KeepsRegisters s t ∧ t.res = s.res ∧ t.engine = s.engine

/-- `ARG` and the staging registers hold the word last written, whatever it is, and a write changes only its own word
(R37, R39, R44, R108). -/
def Obligations.HostRegistersHoldTheLastWrite : Prop :=
  ∀ (s : State) (a : BusAddr) (v : Word), s.busy = false → a.toNat % 4 = 0 →
    (0x020 ≤ a.toNat ∧ a.toNat < 0x030) ∨ (0x040 ≤ a.toNat ∧ a.toNat < 0x05C) →
      ∃ t, busWrite a v s = t ∧ busReadValue a t = (v, t) ∧
        (∀ b : BusAddr, b ≠ a → (busReadValue b t).1 = (busReadValue b s).1) ∧
        t.busy = false ∧ t.pending = s.pending ∧ t.engine = s.engine ∧ t.par = s.par ∧ t.prep = s.prep

/-! ### Command words -/

/-- Decoding the word of a well-formed command gives the command back, with every operand (R131, R134). -/
def Obligations.DecodeInvertsEncode : Prop :=
  ∀ i : Instr, i.wellFormed = true → decode (encode i) = .ok i

/-- A word that decodes is exactly the word of what it decodes to, which is well formed (R131, R134, R141). -/
def Obligations.EncodeInvertsDecode : Prop :=
  ∀ (v : Word) (i : Instr), decode v = .ok i → encode i = v ∧ i.wellFormed = true

/-- Sample words of R146, one or more of every family of the opcode map. -/
def Obligations.SampleWordsDecode : Prop :=
  decode 0x00000000 = .ok .nop ∧ decode 0x01000000 = .ok (.prepare .hall) ∧ decode 0x01010000 = .ok (.prepare .plate) ∧
  decode 0x02000000 = .ok .reset ∧ decode 0x03000000 = .ok .setParams ∧ decode 0x04000006 = .ok (.getParam 6) ∧
  decode 0x05000100 = .ok (.processBlock 256) ∧ decode 0x06010000 = .ok (.engInfo 0x01) ∧
  decode 0x10110000 = .ok (.dlPush 0x11) ∧ decode 0x11110020 = .ok (.dlPopFixed 0x11 32) ∧
  decode 0x20190000 = .ok (.apProcess 0x19) ∧ decode 0x30200000 = .ok (.lfoTick 0x20) ∧
  decode 0x40310000 = .ok (.dampProcess 0x31)

/-- The order of the checks of R140 on a pending command: the first that fails is recorded with the command word, and has
no other effect; a command that passes steps 1 to 3 runs its own rule, which records nothing or fault 4. -/
def Obligations.ChecksRunInOrder : Prop :=
  ∀ s : State,
    (illegalWord s.pending = true →
      coreStep s = .next (completeCommand (raiseFault .illegalCmd s.pending s))) ∧
    (illegalWord s.pending = false → ∃ i, decode s.pending = .ok i ∧
      (needsReady i = true → s.engine = none →
        coreStep s = .next (completeCommand (raiseFault .badState s.pending s))) ∧
      (∀ e, s.engine = some e → unitAllowed (engineKind e) i = false →
        coreStep s = .next (completeCommand (raiseFault .badUnit s.pending s))) ∧
      ((needsReady i = false ∨ ∃ e, s.engine = some e ∧ unitAllowed (engineKind e) i = true) →
        ∃ t, exec i s = .next t ∧ coreStep s = .next (completeCommand t) ∧
          (t = raiseFault .precond s.pending s ∨ KeepsFaults s t)))

/-- A step of the core is `exec` of the command that its pending word decodes to, with completion (R112) around it. When
the core moves is the model's schedule: at its turn, and when no event is left (log 7, for R396's "after finitely many host
steps"). That completion forgets the replaced staging values is the model's bookkeeping (log 6). -/
def Obligations.StepRunsTheDecodedCommand : Prop :=
  ∀ (s : State) (i : Instr), executesNext s i →
    ∃ t, exec i (afterEvent s) = .next t ∧
      step s = .next { t with busy := false, stageOld := ⟨[], [], [], [], [], [], []⟩ }

/-- There is no trap (R353, R356): every step answers a next state. With nothing pending the core's turn changes nothing
(R365). A host access is one step, in the host's order (R100, R110): a write does what `busWrite` says, and a read does what
`busReadValue` says and gives the host its word, which the model notes in `hostReads` (log 9). The order of the events is
that of `inputs` (log 7). -/
def Obligations.EveryStepAnswers : Prop :=
  (∀ s, ∃ t, step s = .next t) ∧
  (∀ s, s.busy = false → (s.inputs = [] ∨ ∃ rest, s.inputs = .coreTurn :: rest) → step s = .next (afterEvent s)) ∧
  (∀ (s : State) (addr : BusAddr) (v : Word) (rest : List BusEvent), s.inputs = .write addr v :: rest →
    ∃ t, step s = .next t ∧ t = busWrite addr v (afterEvent s) ∧ t.inputs = rest ∧ t.hostReads = s.hostReads) ∧
  (∀ (s : State) (addr : BusAddr) (rest : List BusEvent), s.inputs = .read addr :: rest →
    ∃ u w t, busReadValue addr (afterEvent s) = (w, u) ∧ step s = .next t ∧
      t = { u with hostReads := { addr := addr, value := w } :: s.hostReads } ∧ t.inputs = rest)

/-- When a command faults (R140 steps 2 and 3, R351), and that it then has no effect but the fault record (R142), as a word
that is no command has none; and that a command none of whose conditions holds records no fault. -/
def Obligations.FaultingCommandHasNoEffect : Prop :=
  (∀ s : State, illegalWord s.pending = true →
    coreStep s = .next (completeCommand (raiseFault .illegalCmd s.pending s))) ∧
  (∀ (i : Instr) (s : State), i.wellFormed = true →
    (needsReady i = true → s.engine = none → exec i s = .next (raiseFault .badState s.pending s)) ∧
    (∀ e, s.engine = some e → unitAllowed (engineKind e) i = false →
      exec i s = .next (raiseFault .badUnit s.pending s)) ∧
    ((needsReady i = false ∨ ∃ e, s.engine = some e ∧ unitAllowed (engineKind e) i = true) →
      (¬ OperandsOk s i → exec i s = .next (raiseFault .precond s.pending s)) ∧
      (OperandsOk s i → ∃ t, exec i s = .next t ∧ KeepsFaults s t))) ∧
  (∀ c info s t, t = raiseFault c info s →
    KeepsHost s t ∧ KeepsAudio s t ∧ t.res = s.res ∧ t.prep = s.prep ∧ t.par = s.par ∧ t.engine = s.engine)

/-- The unit tables (R135, R137): on each engine, which ids name a delay line (their own or an allpass's), an allpass, a
damping chain, the oscillator and a modulated line. -/
def Obligations.UnitTables : Prop :=
  ∀ (e : Engine) (u : UnitId),
    ((lineOf e u).isSome = true ↔ u.toNat ∈ delayLineIds (engineKind e) ++ allpassIds (engineKind e)) ∧
    ((allpassOf e u).isSome = true ↔ u.toNat ∈ allpassIds (engineKind e)) ∧
    ((dampOf e u).isSome = true ↔ u.toNat ∈ dampingIds (engineKind e)) ∧
    ((lfoOf e u).isSome = true ↔ u.toNat = 0x20) ∧
    ((reportOf e u).isSome = true ↔ u.toNat ∈ modulatedIds (engineKind e)) ∧
    (∀ a, allpassOf e u = some a → lineOf e u = some a.line)

/-! ### Delay lines -/

/-- After pushes onto a cleared line, offset `j` reads the sample pushed `j` pushes ago, and +0.0 where fewer samples have
been pushed (R161). -/
def Obligations.LineRemembersItsPushes : Prop :=
  ∀ (n : Nat) (xs : List Word) (j : Nat), 1 ≤ j → j ≤ n →
    (xs.foldl DelayLine.push (clearedLine n)).popFixed j =
      if j ≤ xs.length then xs.getD (xs.length - j) 0 else 0

/-- DL_PUSH (R166, R171): one sample into the named line, bit for bit; every other word, unit, register and byte stays. -/
def Obligations.PushCommand : Prop :=
  ∀ (s : State) (e : Engine) (u : UnitId) (l : DelayLine), s.engine = some e → lineOf e u = some l → LineOk l →
    ∃ t e' l', exec (.dlPush u) s = .next t ∧ t.engine = some e' ∧ lineOf e' u = some l' ∧
      bufWord l'.buf l.w = s.arg.v0 ∧ (∀ k, k ≠ l.w → bufWord l'.buf k = bufWord l.buf k) ∧
      l'.w = (l.w + 1) % l.N ∧ l'.N = l.N ∧
      (∀ a, allpassOf e u = some a → allpassOf e' u = some { a with line := l' }) ∧
      KeepsOtherUnits u e e' ∧ KeepsRegisters s t ∧ KeepsAudio s t ∧ t.res = s.res

/-- DL_POP_FIXED (R167, R172): in range, the word `k` pushes back goes to `RES0` and nothing else changes; out of range,
fault 4. -/
def Obligations.PopFixedCommand : Prop :=
  ∀ (s : State) (e : Engine) (u : UnitId) (k : BitVec 16) (l : DelayLine), s.engine = some e → lineOf e u = some l →
    (1 ≤ k.toNat ∧ (k.toNat : Int) ≤ (l.N : Int) - 2 →
      ∃ t, exec (.dlPopFixed u k) s = .next t ∧
        t.res.v0 = bufWord l.buf (((l.w : Int) - (k.toNat : Int)) % (l.N : Int)).toNat ∧
        t.res.v1 = s.res.v1 ∧ t.res.v2 = s.res.v2 ∧ t.res.v3 = s.res.v3 ∧ t.engine = s.engine ∧
        KeepsRegisters s t ∧ KeepsAudio s t) ∧
    (¬ (1 ≤ k.toNat ∧ (k.toNat : Int) ≤ (l.N : Int) - 2) →
      exec (.dlPopFixed u k) s = .next (raiseFault .precond s.pending s))

/-- DL_READ_FRAC (R168, R173): in range, the interpolation of the two neighbours goes to `RES0` and nothing else changes;
a NaN or an offset out of range is fault 4, not clamped. -/
def Obligations.ReadFractionCommand : Prop :=
  ∀ (s : State) (e : Engine) (u : UnitId) (l : DelayLine), s.engine = some e → lineOf e u = some l →
    (isNaN s.arg.v0 = false ∧ fle 0x3F800000 s.arg.v0 = true ∧ fle s.arg.v0 (nat32 (l.N - 2)) = true →
      ∃ t i a b, exec (.dlReadFrac u) s = .next t ∧ i = floorVal (val32 s.arg.v0) ∧
        a = bufWord l.buf (((l.w : Int) - (i : Int)) % (l.N : Int)).toNat ∧
        b = bufWord l.buf (((l.w : Int) - (i : Int) - 1) % (l.N : Int)).toNat ∧
        t.res.v0 = fadd a (fmul (fsub s.arg.v0 (nat32 i)) (fsub b a)) ∧
        t.res.v1 = s.res.v1 ∧ t.res.v2 = s.res.v2 ∧ t.res.v3 = s.res.v3 ∧ t.engine = s.engine ∧
        KeepsRegisters s t ∧ KeepsAudio s t) ∧
    (isNaN s.arg.v0 = true ∨ fle 0x3F800000 s.arg.v0 = false ∨ fle s.arg.v0 (nat32 (l.N - 2)) = false →
      exec (.dlReadFrac u) s = .next (raiseFault .precond s.pending s))

/-- `clampDelay` (R170): it maps every binary32 word into the valid range of R164, a NaN to 1.0, and leaves a valid offset
alone; and `f32(N - 2)` is exact. -/
def Obligations.ClampedOffsetIsValid : Prop :=
  ∀ (d : Word) (n : Nat), 3 ≤ n → n < 2 ^ 24 →
    (isNaN d = true → clampDelay d n = 0x3F800000) ∧
    (isNaN d = false → clampDelay d n = fmin (fmax d 0x3F800000) (nat32 (n - 2))) ∧
    isNaN (clampDelay d n) = false ∧ fle 0x3F800000 (clampDelay d n) = true ∧
    fle (clampDelay d n) (nat32 (n - 2)) = true ∧
    (fle 0x3F800000 d = true → fle d (nat32 (n - 2)) = true → clampDelay d n = d) ∧
    floorVal (val32 (nat32 (n - 2))) = n - 2 ∧ ceilVal (val32 (nat32 (n - 2))) = n - 2

/-- A fractional read at an integer offset (R169): the stored word itself where the neighbours differ by a finite amount,
but for a negative zero before a neighbour not below it; the canonical NaN where they do not. -/
def Obligations.IntegerOffsetReadsTheSample : Prop :=
  ∀ (l : DelayLine) (k : Nat), 1 ≤ k → k ≤ l.N - 2 → l.N < 2 ^ 24 →
    (isFinite32 (fsub (l.popFixed (k + 1)) (l.popFixed k)) = true → l.popFixed k ≠ 0x80000000 →
      l.readFractional (nat32 k) = l.popFixed k) ∧
    (isFinite32 (fsub (l.popFixed (k + 1)) (l.popFixed k)) = true → l.popFixed k = 0x80000000 →
      l.readFractional (nat32 k) =
        if (fsub (l.popFixed (k + 1)) (l.popFixed k)).getLsbD 31 then 0x80000000 else 0) ∧
    (isFinite32 (fsub (l.popFixed (k + 1)) (l.popFixed k)) = false → l.readFractional (nat32 k) = 0x7FC00000)

/-! ### Allpass units -/

/-- AP_PROCESS (R193, R196): the canonical Schroeder stage on the named unit; everything else stays. -/
def Obligations.AllpassCommand : Prop :=
  ∀ (s : State) (e : Engine) (u : UnitId) (a : Allpass), s.engine = some e → allpassOf e u = some a → LineOk a.line →
    ∃ t e' a' d w, exec (.apProcess u) s = .next t ∧ t.engine = some e' ∧ allpassOf e' u = some a' ∧
      d = bufWord a.line.buf (((a.line.w : Int) - (a.M : Int)) % (a.line.N : Int)).toNat ∧
      w = fadd s.arg.v0 (fmul a.g d) ∧ t.res.v0 = fsub d (fmul a.g w) ∧
      bufWord a'.line.buf a.line.w = w ∧ (∀ k, k ≠ a.line.w → bufWord a'.line.buf k = bufWord a.line.buf k) ∧
      a'.line.w = (a.line.w + 1) % a.line.N ∧ a'.line.N = a.line.N ∧ a'.M = a.M ∧ a'.g = a.g ∧
      t.res.v1 = s.res.v1 ∧ t.res.v2 = s.res.v2 ∧ t.res.v3 = s.res.v3 ∧
      KeepsOtherUnits u e e' ∧ KeepsRegisters s t ∧ KeepsAudio s t

/-- AP_SET_GAIN (R194, R197): the clamped gain is stored and reported, the line stays, and the stored gain is always in
`[0, f32(0.85)]`, with a NaN stored as +0.0 and −0.0 as −0.0. -/
def Obligations.SetGainCommand : Prop :=
  ∀ (s : State) (e : Engine) (u : UnitId) (a : Allpass), s.engine = some e → allpassOf e u = some a →
    ∃ t e' g, exec (.apSetGain u) s = .next t ∧ t.engine = some e' ∧ allpassOf e' u = some { a with g := g } ∧
      t.res.v0 = g ∧ t.res.v1 = s.res.v1 ∧ t.res.v2 = s.res.v2 ∧ t.res.v3 = s.res.v3 ∧
      fle 0 g = true ∧ fle g 0x3F59999A = true ∧
      (isNaN s.arg.v0 = true → g = 0) ∧
      (isNaN s.arg.v0 = false → g = fmin (fmax s.arg.v0 0) 0x3F59999A) ∧
      (s.arg.v0 = 0x80000000 → g = 0x80000000) ∧
      KeepsOtherUnits u e e' ∧ KeepsRegisters s t ∧ KeepsAudio s t

/-! ### The oscillator -/

/-- LFO_TICK (R213, R218): the outputs at the current phase, then one sample's advance with one wrap; the increment, the
depth and everything else stay. -/
def Obligations.LfoTickCommand : Prop :=
  ∀ (s : State) (e : Engine), s.engine = some e →
    ∃ t e' x, exec (.lfoTick 0x20) s = .next t ∧ t.engine = some e' ∧
      t.res.v0 = fmul (engineLfo e).depth (Config.sin32 (engineLfo e).theta) ∧
      t.res.v1 = fmul (engineLfo e).depth (Config.sin32 (fadd (engineLfo e).theta 0x3FC90FDB)) ∧
      t.res.v2 = s.res.v2 ∧ t.res.v3 = s.res.v3 ∧
      x = fadd (engineLfo e).theta (engineLfo e).delta ∧
      (fle 0x40C90FDB x = true → (engineLfo e').theta = fsub x 0x40C90FDB) ∧
      (fle 0x40C90FDB x = false → (engineLfo e').theta = x) ∧
      (engineLfo e').delta = (engineLfo e).delta ∧ (engineLfo e').depth = (engineLfo e).depth ∧
      KeepsOtherUnits 0x20 e e' ∧ KeepsRegisters s t ∧ KeepsAudio s t

/-- LFO_RESET (R219): the phase is +0.0, and everything else stays; a second one changes nothing. -/
def Obligations.LfoResetCommand : Prop :=
  ∀ (s : State) (e : Engine), s.engine = some e →
    ∃ t e', exec (.lfoReset 0x20) s = .next t ∧ t.engine = some e' ∧ (engineLfo e').theta = 0 ∧
      (engineLfo e').delta = (engineLfo e).delta ∧ (engineLfo e').depth = (engineLfo e).depth ∧
      KeepsOtherUnits 0x20 e e' ∧ KeepsRegisters s t ∧ KeepsAudio s t ∧ t.res = s.res ∧
      exec (.lfoReset 0x20) t = .next t

/-- The phase stays in `[0, TWO_PI_F32)` (R50, R214): across a tick when it and the increment are in their ranges, and
across every step of a state that meets the invariant, whose prepared engine's increment is in R212's range. After hardware
reset there is no engine, and PREPARE starts the phase at +0.0. -/
def Obligations.PhaseStaysInRange : Prop :=
  (∀ l : Lfo, fle 0 l.theta = true → fle 0x40C90FDB l.theta = false → isNaN l.theta = false →
    fle 0 l.delta = true → fle l.delta 0x3B83126F = true →
      fle 0 l.tick.1.theta = true ∧ fle 0x40C90FDB l.tick.1.theta = false ∧ isNaN l.tick.1.theta = false) ∧
  (∀ (s : State) (e : Engine), Inv s → s.engine = some e → IncrementOk (engineLfo e)) ∧
  (∀ s t : State, Inv s → (∀ e, s.engine = some e → PhaseOk (engineLfo e)) → step s = .next t →
    ∀ e, t.engine = some e → PhaseOk (engineLfo e) ∧ IncrementOk (engineLfo e))

/-! ### Damping chains -/

/-- DAMP_PROCESS (R233, R236): low-pass, high-pass if enabled, psychoacoustic stage; the coefficients and everything else
stay. -/
def Obligations.DampingCommand : Prop :=
  ∀ (s : State) (e : Engine) (u : UnitId) (d : Damp), s.engine = some e → dampOf e u = some d →
    ∃ t e' d' y2, exec (.dampProcess u) s = .next t ∧ t.engine = some e' ∧ dampOf e' u = some d' ∧
      d'.sLP = fadd (fmul d.gLP d.sLP) (fmul d.oLP s.arg.v0) ∧
      (d.hpEn = true → d'.sHP = fadd (fmul d.gHP d.sHP) (fmul d.oHP d'.sLP) ∧ y2 = fsub d'.sLP d'.sHP) ∧
      (d.hpEn = false → d'.sHP = d.sHP ∧ y2 = d'.sLP) ∧
      d'.sPSY = fadd (fmul d.gPSY d.sPSY) (fmul d.oPSY y2) ∧ t.res.v0 = d'.sPSY ∧
      { d' with sLP := d.sLP, sHP := d.sHP, sPSY := d.sPSY } = d ∧
      t.res.v1 = s.res.v1 ∧ t.res.v2 = s.res.v2 ∧ t.res.v3 = s.res.v3 ∧
      KeepsOtherUnits u e e' ∧ KeepsRegisters s t ∧ KeepsAudio s t

/-- A NaN sample makes all three states of a chain NaN, and they stay NaN whatever samples follow; every output is then
the canonical NaN (R236, I21). -/
def Obligations.NanSticksInDamping : Prop :=
  ∀ (d : Damp) (x : Word) (xs : List Word), d.hpEn = true → isNaN x = true →
    ∃ d', d' = xs.foldl (fun c y => (c.process y).1) (d.process x).1 ∧
      d'.sLP = 0x7FC00000 ∧ d'.sHP = 0x7FC00000 ∧ d'.sPSY = 0x7FC00000 ∧ ∀ y, (d'.process y).2 = 0x7FC00000

/-! ### Reports -/

/-- What DL_INFO, AP_INFO, LFO_INFO, DAMP_INFO and GET_PARAM report (R174, R198, R220, R237, R325), with the seven parameter
indices of R45 one by one. -/
def Obligations.InfoCommandsReport : Prop :=
  ∀ (s : State) (e : Engine) (u : UnitId), s.engine = some e →
    (∀ l, lineOf e u = some l → ∃ t, exec (.dlInfo u) s = .next t ∧
      t.res = { s.res with v0 := BitVec.ofNat 32 l.N, v1 := BitVec.ofNat 32 l.w }) ∧
    (∀ a, allpassOf e u = some a → ∃ t, exec (.apInfo u) s = .next t ∧
      t.res = { s.res with v0 := BitVec.ofNat 32 a.M, v1 := a.g }) ∧
    (∃ t, exec (.lfoInfo 0x20) s = .next t ∧
      t.res = { s.res with v0 := (engineLfo e).theta, v1 := (engineLfo e).delta, v2 := (engineLfo e).depth }) ∧
    (∀ d, dampOf e u = some d → ∃ t, exec (.dampInfo u) s = .next t ∧
      t.res = ⟨d.gLP, d.gHP, d.gPSY, if d.hpEn then 1 else 0⟩) ∧
    (∃ t, exec (.getParam 0) s = .next t ∧ t.res = { s.res with v0 := s.par.roomSize }) ∧
    (∃ t, exec (.getParam 1) s = .next t ∧ t.res = { s.res with v0 := s.par.decayTime }) ∧
    (∃ t, exec (.getParam 2) s = .next t ∧ t.res = { s.res with v0 := s.par.damping }) ∧
    (∃ t, exec (.getParam 3) s = .next t ∧ t.res = { s.res with v0 := s.par.modRate }) ∧
    (∃ t, exec (.getParam 4) s = .next t ∧ t.res = { s.res with v0 := s.par.modDepth }) ∧
    (∃ t, exec (.getParam 5) s = .next t ∧ t.res = { s.res with v0 := s.par.preDelay }) ∧
    (∃ t, exec (.getParam 6) s = .next t ∧ t.res = { s.res with v0 := s.par.mix })

/-- What ENG_INFO reports (R335), on each engine. -/
def Obligations.EngInfoReports : Prop :=
  (∀ (s : State) (h : Hall) (c : Ix2) (u : UnitId), s.engine = some (.hall h) →
    u.toNat = (match c with | .i0 => 0 | .i1 => 1) →
      ∃ t, exec (.engInfo u) s = .next t ∧ t.res = ⟨h.dcur.get c, h.base.get c, h.decay, h.fb.get c⟩) ∧
  (∀ (s : State) (p : Plate) (c : Ix4) (u : UnitId), s.engine = some (.plate p) →
    u.toNat = (match c with | .i0 => 0 | .i1 => 1 | .i2 => 2 | .i3 => 3) →
      ∃ t, exec (.engInfo u) s = .next t ∧ t.res = ⟨p.dcur.get c, p.base.get c, p.g, 0⟩)

/-- The inspection commands change nothing but `RES`, when they record no fault (R364, R395). -/
def Obligations.InspectionChangesOnlyResults : Prop :=
  ∀ (i : Instr) (s t : State),
    (match i with
      | .dlInfo _ | .dlPopFixed _ _ | .dlReadFrac _ | .apInfo _ | .lfoInfo _ | .dampInfo _ | .engInfo _
      | .getParam _ => True
      | _ => False) →
    exec i s = .next t → KeepsFaults s t →
      KeepsRegisters s t ∧ KeepsAudio s t ∧ t.engine = s.engine

/-- A command writes only the result registers that R134 names for it, and one that faults writes none; no host write and
no read changes `RES`; hardware reset clears them (R38). -/
def Obligations.ResultRegistersWritten : Prop :=
  (∀ (i : Instr) (s t : State) (j : Ix4), exec i s = .next t → (resWritten i).get j = false →
    t.res.get j = s.res.get j) ∧
  (∀ (i : Instr) (s t : State) (c : FaultCode), exec i s = .next t → t = raiseFault c s.pending s → t.res = s.res) ∧
  (∀ a v s, (busWrite a v s).res = s.res) ∧ (∀ a s, (busReadValue a s).2.res = s.res) ∧
  (∀ s, (hardwareReset s).res = ⟨0, 0, 0, 0⟩)

/-! ### The contract commands -/

/-- NOP (R312): in every state, nothing. -/
def Obligations.NopDoesNothing : Prop := ∀ s : State, exec .nop s = .next s

/-- PREPARE with operands in range (R313): the configuration and the selected engine, every line cleared, every state word
+0.0, every modulated line at its base, gains those of R192, capacities and allpass delays those of R163 and R191 at every
accepted rate, coefficients those of R321; nothing else is written. -/
def Obligations.PrepareBuildsACleanEngine : Prop :=
  ∀ (s : State) (k : EngineKind), PrepareOperandsOk s →
    ∃ t e, exec (.prepare k) s = .next t ∧ t.engine = some e ∧ engineKind e = k ∧
      t.prep = { fs := s.arg.v1 ++ s.arg.v0, maxBlockSize := s.arg.v2.toNat, numChannels := s.arg.v3.toNat } ∧
      (∀ u l, lineOf e u = some l → l.w = 0 ∧ 0 < l.N ∧ ∀ i, bufWord l.buf i = 0) ∧
      (∀ u a, allpassOf e u = some a → 1 ≤ a.M ∧ a.line.N = a.M + 4 ∧
        a.g = (match k with
          | .hall => if u.toNat < 0x18 then 0x3F333333 else 0x3F000000
          | .plate => 0x3F400000)) ∧
      (∀ u d, dampOf e u = some d → d.sLP = 0 ∧ d.sHP = 0 ∧ d.sPSY = 0) ∧
      (engineLfo e).theta = 0 ∧
      (∀ u r, reportOf e u = some r → r.dcur = r.base ∧ r.fb = 0) ∧
      (k = .hall → HallSizes t.prep.fs e) ∧ (k = .plate → PlateSizes t.prep.fs e) ∧
      recomputeEngine preset s.par t.prep.fs e = e ∧ DerivedCoefficients s.par t.prep.fs e ∧
      KeepsHost s t ∧ KeepsFaults s t ∧ KeepsAudio s t ∧ t.par = s.par ∧ t.res = s.res

/-- The sizes PREPARE gives at 48000 Hz (R163, R191, R251, R281), for any parameters. -/
def Obligations.PreparedSizesAt48k : Prop :=
  ∀ par : ParamSet Word,
    (∀ r : UnitId × Nat, r ∈ [(0x00, 7386), (0x01, 7895)] →
      (lineOf (buildEngine preset .hall 0x40E7700000000000 par) r.1).map DelayLine.N = some r.2) ∧
    (∀ r : UnitId × Nat, r ∈ [(0x10, 229), (0x11, 172), (0x12, 241), (0x13, 179), (0x18, 429), (0x19, 303), (0x1A, 450),
        (0x1B, 320)] →
      (allpassOf (buildEngine preset .hall 0x40E7700000000000 par) r.1).map Allpass.M = some r.2) ∧
    (∀ r : UnitId × Nat, r ∈ [(0x00, 2612), (0x01, 3117), (0x02, 3790), (0x03, 4716), (0x04, 9604)] →
      (lineOf (buildEngine preset .plate 0x40E7700000000000 par) r.1).map DelayLine.N = some r.2) ∧
    (∀ r : UnitId × Nat, r ∈ [(0x10, 207), (0x11, 152), (0x12, 539), (0x13, 388), (0x14, 217), (0x15, 162), (0x16, 562),
        (0x17, 404)] →
      (allpassOf (buildEngine preset .plate 0x40E7700000000000 par) r.1).map Allpass.M = some r.2)

/-- PREPARE's effect depends on its operands and the applied parameters alone (R314). -/
def Obligations.PrepareForgetsThePast : Prop :=
  ∀ (k : EngineKind) (s s' t t' : State), s.arg = s'.arg → s.par = s'.par → PrepareOperandsOk s →
    exec (.prepare k) s = .next t → exec (.prepare k) s' = .next t' → t.engine = t'.engine ∧ t.prep = t'.prep

/-- RESET (R316): the signal state is cleared; capacities, delays, gains, coefficients and everything else stay; two in a
row do what one does. -/
def Obligations.ResetClearsTheSignalState : Prop :=
  ∀ (s : State) (e : Engine), s.engine = some e →
    ∃ t e', exec .reset s = .next t ∧ t.engine = some e' ∧ engineKind e' = engineKind e ∧
      (∀ u l, lineOf e u = some l → ∃ l', lineOf e' u = some l' ∧ l'.N = l.N ∧ l'.w = 0 ∧ ∀ i, bufWord l'.buf i = 0) ∧
      (∀ u a, allpassOf e u = some a → ∃ a', allpassOf e' u = some a' ∧ a'.M = a.M ∧ a'.g = a.g) ∧
      (∀ u d, dampOf e u = some d → dampOf e' u = some { d with sLP := 0, sHP := 0, sPSY := 0 }) ∧
      engineLfo e' = { engineLfo e with theta := 0 } ∧
      (∀ u r, reportOf e u = some r → reportOf e' u = some { r with dcur := r.base, fb := 0 }) ∧
      engineRegs e' = (match engineRegs e with
        | .hall _ _ base decay => .hall ⟨0, 0⟩ base base decay
        | .plate _ base g preD => .plate base base g preD) ∧
      KeepsRegisters s t ∧ KeepsAudio s t ∧ t.res = s.res ∧ exec .reset t = .next t

/-- RESET after any run without AP_SET_GAIN, SET_PARAMS or a further PREPARE gives back the engine PREPARE built (R317). -/
def Obligations.ResetRestoresThePreparedEngine : Prop :=
  ∀ (s p q r : State) (k : EngineKind), PrepareOperandsOk s → exec (.prepare k) s = .next p → SignalRun p q →
    exec .reset q = .next r → r.engine = p.engine ∧ r.prep = p.prep ∧ r.par = p.par

/-- SET_PARAMS (R320, R321): each field from the staging register's word, clamped or kept; every coefficient recomputed by
the formulas of R212, R231, R232, R252 and R282; no line, state word, phase, current delay, feedback, allpass or other
register changes. Where the host has written a register since acceptance, the word is one the register has held since: the
model's form of R114's race (log 6). -/
def Obligations.SetParamsAppliesAndRecomputes : Prop :=
  ∀ (s : State) (e : Engine), s.engine = some e →
    ∃ t e', exec .setParams s = .next t ∧ t.engine = some e' ∧
      (∀ p, ∃ x, (s.stageOld.get p = [] → x = s.stage.get p) ∧ (x = s.stage.get p ∨ x ∈ s.stageOld.get p) ∧
        t.par.get p = if isNaN x then s.par.get p else fmin (fmax x (parLo.get p)) (parHi.get p)) ∧
      DerivedCoefficients t.par s.prep.fs e' ∧ KeepsSignalState e e' ∧
      KeepsHost s t ∧ KeepsFaults s t ∧ KeepsAudio s t ∧ t.prep = s.prep ∧ t.res = s.res

/-- `recompute()` (R321): every coefficient is the one the formulas of R212, R232, R252 and R282 give for `par.*` and
`cfg.fs`, and no signal state changes; SET_PARAMS runs it with the parameters it has applied, and PREPARE leaves an engine
that it would not change. -/
def Obligations.RecomputeDerivesEveryCoefficient : Prop :=
  (∀ (par : ParamSet Word) (fs : DWord) (e : Engine),
    DerivedCoefficients par fs (recomputeEngine preset par fs e) ∧ KeepsSignalState e (recomputeEngine preset par fs e)) ∧
  (∀ (s : State) (e : Engine), s.engine = some e →
    ∃ t, exec .setParams s = .next t ∧ t.engine = some (recomputeEngine preset t.par s.prep.fs e)) ∧
  (∀ (s : State) (k : EngineKind), PrepareOperandsOk s →
    ∃ t e, exec (.prepare k) s = .next t ∧ t.engine = some e ∧ recomputeEngine preset t.par t.prep.fs e = e)

/-- SET_PARAMS is idempotent, and with the staging registers equal to the applied parameters it changes nothing (R322). -/
def Obligations.SetParamsIsIdempotent : Prop :=
  (∀ s t : State, s.stageOld = noStageOld → s.engine ≠ none → exec .setParams s = .next t →
    exec .setParams t = .next t) ∧
  (∀ s : State, Inv s → s.stageOld = noStageOld → s.engine ≠ none → s.stage = s.par → exec .setParams s = .next s)

/-- Every applied parameter is a finite value in its range, from reset on and across every step (R46). -/
def Obligations.ParametersStayInRange : Prop :=
  ParamsOk State.reset.par ∧ (∀ s t : State, ParamsOk s.par → step s = .next t → ParamsOk t.par) ∧
  (∀ par p, ParamsOk par → isFinite32 (par.get p) = true)

/-- The applied parameters change only in a SET_PARAMS step or at hardware reset (R117). -/
def Obligations.OnlySetParamsChangesParameters : Prop :=
  ∀ s t : State, step s = .next t → t.par ≠ s.par →
    (∃ rest, s.inputs = .hardwareReset :: rest) ∨ executesNext s .setParams

/-- PROCESS_BLOCK (R330, R331): an empty block does nothing; a block of `n + 1` frames is the block of `n` frames and then
frame `n`, which reads the input words, steps the engine once, and writes the mixed words; no other byte and no register
changes. -/
def Obligations.ProcessBlockRunsFrameByFrame : Prop :=
  ∀ (s : State) (e : Engine), s.engine = some e → s.prep.maxBlockSize ≤ 4096 →
    s.prep.numChannels = 1 ∨ s.prep.numChannels = 2 →
    exec (.processBlock 0) s = .next s ∧
    ∀ k k' : BitVec 16, k'.toNat = k.toNat + 1 → k'.toNat ≤ s.prep.maxBlockSize →
      ∃ t t' f e' u0 u1 xr wl wr wet, exec (.processBlock k) s = .next t ∧ exec (.processBlock k') s = .next t' ∧
        t.engine = some f ∧ t'.engine = some e' ∧
        u0 = audioWord s.audioEpoch s.audio (0x8000 + 4 * k.toNat) ∧
        u1 = audioWord s.audioEpoch s.audio (0xC000 + 4 * k.toNat) ∧
        xr = (if s.prep.numChannels = 2 then u1 else u0) ∧
        sampleEngine preset f ⟨u0, xr⟩ = (e', ⟨wl, wr⟩) ∧
        wet = (if s.prep.numChannels = 2 then wl else fmul 0x3F000000 (fadd wl wr)) ∧
        audioWord t'.audioEpoch t'.audio (0x8000 + 4 * k.toNat) =
          (if isZero s.par.mix then u0 else fadd (fmul u0 (fsub 0x3F800000 s.par.mix)) (fmul wet s.par.mix)) ∧
        (s.prep.numChannels = 2 → audioWord t'.audioEpoch t'.audio (0xC000 + 4 * k.toNat) =
          (if isZero s.par.mix then u1 else fadd (fmul u1 (fsub 0x3F800000 s.par.mix)) (fmul wr s.par.mix))) ∧
        (∀ a, ¬ (0x8000 + 4 * k.toNat ≤ a ∧ a < 0x8004 + 4 * k.toNat) →
          ¬ (s.prep.numChannels = 2 ∧ 0xC000 + 4 * k.toNat ≤ a ∧ a < 0xC004 + 4 * k.toNat) →
          audioByte t'.audioEpoch t'.audio a = audioByte t.audioEpoch t.audio a) ∧
        KeepsRegisters s t' ∧ t'.res = s.res

/-- Mix bypass (R332): with `par.mix` a zero of either sign, PROCESS_BLOCK leaves every byte of audio memory as it is,
whatever the engine and the input are. -/
def Obligations.MixBypassKeepsAudio : Prop :=
  ∀ (s : State) (e : Engine) (k : BitVec 16), s.engine = some e → k.toNat ≤ s.prep.maxBlockSize →
    s.prep.maxBlockSize ≤ 4096 → s.par.mix = 0x00000000 ∨ s.par.mix = 0x80000000 →
      ∃ t, exec (.processBlock k) s = .next t ∧ KeepsAudio s t

/-- Splitting (R332): a block of `a + b` frames gives the words and the engine that a block of `a` frames, and then a
block of `b` frames with the rest of the input moved to audio words 0 on, give. -/
def Obligations.BlocksSplit : Prop :=
  ∀ (s m m' t w : State) (a b ab : BitVec 16), s.engine ≠ none → s.prep.maxBlockSize ≤ 4096 →
    ab.toNat = a.toNat + b.toNat → ab.toNat ≤ s.prep.maxBlockSize →
    exec (.processBlock a) s = .next m →
    m'.engine = m.engine → m'.prep = m.prep → m'.par = m.par →
    (∀ c n, n < b.toNat → audioWord m'.audioEpoch m'.audio (audioAddr c n) =
      audioWord s.audioEpoch s.audio (audioAddr c (a.toNat + n))) →
    exec (.processBlock b) m' = .next t → exec (.processBlock ab) s = .next w →
      w.engine = t.engine ∧
      (∀ c n, n < a.toNat → audioWord w.audioEpoch w.audio (audioAddr c n) =
        audioWord m.audioEpoch m.audio (audioAddr c n)) ∧
      (∀ c n, n < b.toNat → audioWord w.audioEpoch w.audio (audioAddr c (a.toNat + n)) =
        audioWord t.audioEpoch t.audio (audioAddr c n))

/-- All lines are read before any is pushed (R256, R287): the wet output of a frame does not depend on that frame's input,
and nor do the current delays, the oscillator or the Hall feedback it leaves. -/
def Obligations.WetOutputIgnoresThisFramesInput : Prop :=
  ∀ (P : Preset) (e : Engine) (x y : Frame),
    (sampleEngine P e x).2 = (sampleEngine P e y).2 ∧
    engineRegs (sampleEngine P e x).1 = engineRegs (sampleEngine P e y).1 ∧
    engineLfo (sampleEngine P e x).1 = engineLfo (sampleEngine P e y).1

/-- `hall.sample` (R255), with the constants of R60: one tick, slew of both delays, both tanks read, late diffusion and
damping, early diffusion of the input, both tanks written with the old feedback, the new feedback, the wet frame; nothing
else of the engine changes; and the unit ids of its units. -/
def Obligations.HallSample : Prop :=
  ∀ (h : Hall) (x : Frame), ∃ (h' : Hall) (r y e : Pair Word),
    h.sample preset x = (h', ⟨y.v0, y.v1⟩) ∧
    h'.lfo = h.lfo.tick.1 ∧
    h'.dcur.v0 = fadd h.dcur.v0 (fmul 0x3A83126F
      (fsub (fmul h.base.v0 (fadd 0x3F800000 (fmul 0x3C23D70A h.lfo.tick.2.n))) h.dcur.v0)) ∧
    h'.dcur.v1 = fadd h.dcur.v1 (fmul 0x3A83126F
      (fsub (fmul h.base.v1 (fadd 0x3F800000 (fmul 0x3C23D70A h.lfo.tick.2.q))) h.dcur.v1)) ∧
    (∀ c, r.get c = (h.tank.get c).readFractional (clampDelay (h'.dcur.get c) (h.tank.get c).N)) ∧
    (∀ c, ∃ a0 a1, (h.late.get c).v0.process (r.get c) = ((h'.late.get c).v0, a0) ∧
      (h.late.get c).v1.process a0 = ((h'.late.get c).v1, a1) ∧
      (h.damp.get c).process a1 = (h'.damp.get c, y.get c)) ∧
    (∀ c, ∃ e0, (h.early.get c).v0.process (match c with | .i0 => x.l | .i1 => x.r) = ((h'.early.get c).v0, e0) ∧
      (h.early.get c).v1.process e0 = ((h'.early.get c).v1, e.get c)) ∧
    (∀ c, h'.tank.get c =
      (h.tank.get c).push (fadd (fmul 0x3F000000 (e.get c)) (fmul 0x3F000000 (h.fb.get c)))) ∧
    h'.fb.v0 = fmul (fadd y.v0 (fmul 0x3E99999A y.v1)) h.decay ∧
    h'.fb.v1 = fmul (fadd y.v1 (fmul 0x3E99999A y.v0)) h.decay ∧
    h'.base = h.base ∧ h'.decay = h.decay ∧
    (lineOf (.hall h) 0x00 = some h.tank.v0 ∧ lineOf (.hall h) 0x01 = some h.tank.v1) ∧
    (allpassOf (.hall h) 0x10 = some h.early.v0.v0 ∧ allpassOf (.hall h) 0x11 = some h.early.v0.v1 ∧
      allpassOf (.hall h) 0x12 = some h.early.v1.v0 ∧ allpassOf (.hall h) 0x13 = some h.early.v1.v1) ∧
    (allpassOf (.hall h) 0x18 = some h.late.v0.v0 ∧ allpassOf (.hall h) 0x19 = some h.late.v0.v1 ∧
      allpassOf (.hall h) 0x1A = some h.late.v1.v0 ∧ allpassOf (.hall h) 0x1B = some h.late.v1.v1) ∧
    (dampOf (.hall h) 0x30 = some h.damp.v0 ∧ dampOf (.hall h) 0x31 = some h.damp.v1)

/-- `plate.sample` (R285), with the constants of R60: pre-delay read before its push, early diffusion and mono sum, one
tick, slew of the four delays, all four lines read, the mix, feedback, injection and damping, all four lines written, the
stereo decode of the raw line outputs; nothing else of the engine changes; and the unit ids of its units. -/
def Obligations.PlateSample : Prop :=
  ∀ (p : Plate) (x : Frame), ∃ (p' : Plate) (o m w : Quad Word) (e : Pair Word) (u : Word),
    p'.pre = p.pre.push (fmul 0x3F000000 (fadd x.l x.r)) ∧
    (∀ c, ∃ v0 v1 v2, (p.early.get c).v0.process (p.pre.readFractional (clampDelay (p.preD.get c) p.pre.N)) =
        ((p'.early.get c).v0, v0) ∧
      (p.early.get c).v1.process v0 = ((p'.early.get c).v1, v1) ∧
      (p.early.get c).v2.process v1 = ((p'.early.get c).v2, v2) ∧
      (p.early.get c).v3.process v2 = ((p'.early.get c).v3, e.get c)) ∧
    u = fmul 0x3F000000 (fadd e.v0 e.v1) ∧
    p'.lfo = p.lfo.tick.1 ∧
    (m.v0 = p.lfo.tick.2.n ∧ m.v1 = p.lfo.tick.2.q ∧ m.v2 = fneg p.lfo.tick.2.n ∧ m.v3 = fneg p.lfo.tick.2.q) ∧
    (∀ i, p'.dcur.get i = fadd (p.dcur.get i) (fmul 0x3A83126F
      (fsub (fmul (p.base.get i) (fadd 0x3F800000 (fmul 0x3AC49BA6 (m.get i)))) (p.dcur.get i)))) ∧
    (∀ i, o.get i = (p.fdn.get i).readFractional (clampDelay (p'.dcur.get i) (p.fdn.get i).N)) ∧
    (∀ i, (p.damp.get i).process (fadd (fmul p.g (match i with
        | .i0 => fmul 0x3F000000 (fadd (fadd (fadd o.v0 o.v1) o.v2) o.v3)
        | .i1 => fmul 0x3F000000 (fsub (fadd (fsub o.v0 o.v1) o.v2) o.v3)
        | .i2 => fmul 0x3F000000 (fsub (fsub (fadd o.v0 o.v1) o.v2) o.v3)
        | .i3 => fmul 0x3F000000 (fadd (fsub (fsub o.v0 o.v1) o.v2) o.v3)))
      (fmul (match i with
        | .i0 => 0x3F333333
        | .i1 => 0xBF000000
        | .i2 => 0x3F000000
        | .i3 => 0xBF333333) u)) = (p'.damp.get i, w.get i)) ∧
    (∀ i, p'.fdn.get i = (p.fdn.get i).push (w.get i)) ∧
    p.sample preset x = (p',
      ⟨fmul (fadd (fmul 0x3EB33333 (fadd o.v0 o.v2)) (fmul 0x3E19999A (fsub o.v1 o.v3))) 0x3FA00000,
        fmul (fadd (fmul 0x3EB33333 (fadd o.v1 o.v3)) (fmul 0x3E19999A (fsub o.v0 o.v2))) 0x3FA00000⟩) ∧
    p'.base = p.base ∧ p'.g = p.g ∧ p'.preD = p.preD ∧
    (∀ i, lineOf (.plate p) (match i with | .i0 => 0x00 | .i1 => 0x01 | .i2 => 0x02 | .i3 => 0x03) = some (p.fdn.get i)) ∧
    lineOf (.plate p) 0x04 = some p.pre ∧
    (∀ k, allpassOf (.plate p) (match k with | .i0 => 0x10 | .i1 => 0x11 | .i2 => 0x12 | .i3 => 0x13) =
      some (p.early.v0.get k)) ∧
    (∀ k, allpassOf (.plate p) (match k with | .i0 => 0x14 | .i1 => 0x15 | .i2 => 0x16 | .i3 => 0x17) =
      some (p.early.v1.get k)) ∧
    (∀ i, dampOf (.plate p) (match i with | .i0 => 0x30 | .i1 => 0x31 | .i2 => 0x32 | .i3 => 0x33) = some (p.damp.get i))

/-- The Hall engine does not use `par.preDelay` (R254): two states that differ only in it are left with the same engine and
audio by PREPARE HALL, PROCESS_BLOCK, RESET and the coefficient part of SET_PARAMS. -/
def Obligations.HallIgnoresPreDelay : Prop :=
  ∀ (s : State) (h : Hall) (x : Word) (k : BitVec 16) (fs : DWord), s.engine = some (.hall h) →
    buildEngine preset .hall fs { s.par with preDelay := x } = buildEngine preset .hall fs s.par ∧
    recomputeEngine preset { s.par with preDelay := x } fs (.hall h) = recomputeEngine preset s.par fs (.hall h) ∧
    ∃ t t', exec (.processBlock k) s = .next t ∧
      exec (.processBlock k) { s with par := { s.par with preDelay := x } } = .next t' ∧
      t'.engine = t.engine ∧ KeepsAudio t t'

/-! ### Whole-machine rules -/

/-- Capacities are fixed by PREPARE (R122): across any step but hardware reset and PREPARE, the engine has the same lines
with the same capacities, and the same allpasses with the same delays. -/
def Obligations.CapacitiesAreFixed : Prop :=
  ∀ (s t : State) (e : Engine), s.engine = some e → noResetNext s → (∀ k, ¬ executesNext s (.prepare k)) →
    step s = .next t → ∃ e', t.engine = some e' ∧ engineKind e' = engineKind e ∧
      (∀ u, (lineOf e' u).map DelayLine.N = (lineOf e u).map DelayLine.N) ∧
      (∀ u, (allpassOf e' u).map Allpass.M = (allpassOf e u).map Allpass.M)

/-- Every pending command completes (R112, R396; the model's schedule is log 7): if no hardware reset is among the events
to come, after finitely many host steps that leave it pending, the core's step executes it and it is no longer pending. -/
def Obligations.PendingCommandCompletes : Prop :=
  ∀ s : State, s.busy = true → .hardwareReset ∉ s.inputs →
    ∃ n m t, n ≤ s.inputs.length ∧ runSteps n s = .next m ∧ m.busy = true ∧ m.pending = s.pending ∧ coreMovesNext m ∧
      coreStep (afterEvent m) = .next t ∧ runSteps (n + 1) s = .next t ∧ t.busy = false

/-- The invariant holds after hardware reset. -/
def Obligations.InvAtReset : Prop := Inv State.reset

/-- Every step keeps the invariant: audio memory stays canonical, parameters in range, the fault record consistent, and a
prepared engine is the one PREPARE would build, but for its signal state and gains, with every line well formed. -/
def Obligations.StepKeepsInv : Prop := ∀ s t : State, Inv s → step s = .next t → Inv t
end

