-- ==== Sys2Proof/Laws/Cells.lean ====
section
/-! SUPPORT. Sparse cells: reading after writing, and the canonical form. -/

namespace Sys2Proof.Machine

variable {α : Type}

@[simp] theorem cellsGet_nil (a : Nat) : cellsGet ([] : List (Nat × α)) a = none := rfl

theorem cellsGet_cons (k : Nat) (v : α) (m : List (Nat × α)) (a : Nat) :
    cellsGet ((k, v) :: m) a = if k = a then some v else cellsGet m a := rfl

@[simp] theorem cellsGet_put_same (a : Nat) (v : α) (m : List (Nat × α)) : cellsGet (cellsPut a v m) a = some v := by
  induction m with
  | nil => simp [cellsPut, cellsGet_cons]
  | cons c m ih =>
    obtain ⟨k, x⟩ := c
    simp only [cellsPut]
    split
    · simp [cellsGet_cons]
    · split
      · simp [cellsGet_cons]
      · rw [cellsGet_cons, if_neg (by omega), ih]

theorem cellsGet_put_ne {a b : Nat} (h : b ≠ a) (v : α) (m : List (Nat × α)) :
    cellsGet (cellsPut a v m) b = cellsGet m b := by
  induction m with
  | nil => simp [cellsPut, cellsGet_cons, h.symm]
  | cons c m ih =>
    obtain ⟨k, x⟩ := c
    simp only [cellsPut]
    split
    · rw [cellsGet_cons, if_neg (Ne.symm h)]
    · split
      · rename_i hk
        subst hk
        rw [cellsGet_cons, cellsGet_cons, if_neg (Ne.symm h), if_neg (Ne.symm h)]
      · rw [cellsGet_cons, cellsGet_cons, ih]

theorem cellsGet_erase_ne {a b : Nat} (h : b ≠ a) (m : List (Nat × α)) : cellsGet (cellsErase a m) b = cellsGet m b := by
  induction m with
  | nil => rfl
  | cons c m ih =>
    obtain ⟨k, x⟩ := c
    simp only [cellsErase]
    split
    · rename_i hk
      subst hk
      rw [cellsGet_cons, if_neg (Ne.symm h)]
    · rw [cellsGet_cons, cellsGet_cons, ih]

theorem cellsRisingFrom_mono {lo lo' : Nat} (h : lo' ≤ lo) {m : List (Nat × α)} (hm : cellsRisingFrom lo m = true) :
    cellsRisingFrom lo' m = true := by
  cases m with
  | nil => rfl
  | cons c m =>
    obtain ⟨k, x⟩ := c
    simp only [cellsRisingFrom, Bool.and_eq_true, decide_eq_true_eq] at hm ⊢
    exact ⟨by omega, hm.2⟩

theorem cellsGet_below {lo a : Nat} (h : a < lo) {m : List (Nat × α)} (hm : cellsRisingFrom lo m = true) :
    cellsGet m a = none := by
  induction m generalizing lo with
  | nil => rfl
  | cons c m ih =>
    obtain ⟨k, x⟩ := c
    simp only [cellsRisingFrom, Bool.and_eq_true, decide_eq_true_eq] at hm
    rw [cellsGet_cons, if_neg (by omega), ih (by omega) hm.2]

theorem cellsGet_erase_same {lo a : Nat} {m : List (Nat × α)} (hm : cellsRisingFrom lo m = true) :
    cellsGet (cellsErase a m) a = none := by
  induction m generalizing lo with
  | nil => rfl
  | cons c m ih =>
    obtain ⟨k, x⟩ := c
    simp only [cellsRisingFrom, Bool.and_eq_true, decide_eq_true_eq] at hm
    simp only [cellsErase]
    split
    · exact cellsGet_below (by omega) hm.2
    · rename_i hk
      rw [cellsGet_cons, if_neg hk, ih hm.2]

theorem cellsRisingFrom_put {lo a : Nat} (h : lo ≤ a) (v : α) {m : List (Nat × α)} (hm : cellsRisingFrom lo m = true) :
    cellsRisingFrom lo (cellsPut a v m) = true := by
  induction m generalizing lo with
  | nil => simp [cellsPut, cellsRisingFrom, h]
  | cons c m ih =>
    obtain ⟨k, x⟩ := c
    simp only [cellsRisingFrom, Bool.and_eq_true, decide_eq_true_eq] at hm
    simp only [cellsPut]
    split
    · simp only [cellsRisingFrom, Bool.and_eq_true, decide_eq_true_eq]
      exact ⟨h, by omega, hm.2⟩
    · split
      · rename_i hk
        subst hk
        simp only [cellsRisingFrom, Bool.and_eq_true, decide_eq_true_eq]
        exact ⟨h, hm.2⟩
      · simp only [cellsRisingFrom, Bool.and_eq_true, decide_eq_true_eq]
        exact ⟨hm.1, ih (by omega) hm.2⟩

theorem cellsRisingFrom_erase {lo a : Nat} {m : List (Nat × α)} (hm : cellsRisingFrom lo m = true) :
    cellsRisingFrom lo (cellsErase a m) = true := by
  induction m generalizing lo with
  | nil => rfl
  | cons c m ih =>
    obtain ⟨k, x⟩ := c
    simp only [cellsRisingFrom, Bool.and_eq_true, decide_eq_true_eq] at hm
    simp only [cellsErase]
    split
    · exact cellsRisingFrom_mono (by omega) hm.2
    · simp only [cellsRisingFrom, Bool.and_eq_true, decide_eq_true_eq]
      exact ⟨hm.1, ih hm.2⟩

theorem mem_cellsPut {a : Nat} {v : α} {m : List (Nat × α)} {c : Nat × α} (h : c ∈ cellsPut a v m) : c ∈ m ∨ c = (a, v) := by
  induction m with
  | nil => right; simpa [cellsPut] using h
  | cons d m ih =>
    obtain ⟨k, x⟩ := d
    simp only [cellsPut] at h
    split at h
    · rcases List.mem_cons.1 h with h | h
      · exact .inr h
      · exact .inl h
    · split at h
      · rcases List.mem_cons.1 h with h | h
        · exact .inr h
        · exact .inl (List.mem_cons_of_mem _ h)
      · rcases List.mem_cons.1 h with h | h
        · exact .inl (h ▸ List.mem_cons_self)
        · rcases ih h with h | h
          · exact .inl (List.mem_cons_of_mem _ h)
          · exact .inr h

theorem mem_cellsErase {a : Nat} {m : List (Nat × α)} {c : Nat × α} (h : c ∈ cellsErase a m) : c ∈ m := by
  induction m with
  | nil => exact h
  | cons d m ih =>
    obtain ⟨k, x⟩ := d
    simp only [cellsErase] at h
    split at h
    · exact List.mem_cons_of_mem _ h
    · rcases List.mem_cons.1 h with h | h
      · exact h ▸ List.mem_cons_self
      · exact List.mem_cons_of_mem _ (ih h)

/-! ### Delay-line buffers -/

@[simp] theorem bufWord_nil (i : Nat) : bufWord [] i = 0 := rfl

theorem bufWord_put_same {lo : Nat} {buf : List (Nat × Word)} (h : cellsRisingFrom lo buf = true) (i : Nat) (x : Word) :
    bufWord (bufPut i x buf) i = x := by
  by_cases hx : x = 0
  · subst hx
    simp only [bufPut, if_pos, bufWord, cellsGet_erase_same h]
  · simp only [bufPut, if_neg hx, bufWord, cellsGet_put_same]

theorem bufWord_put_ne {i j : Nat} (h : j ≠ i) (x : Word) (buf : List (Nat × Word)) :
    bufWord (bufPut i x buf) j = bufWord buf j := by
  by_cases hx : x = 0
  · subst hx
    simp only [bufPut, if_pos, bufWord, cellsGet_erase_ne h]
  · simp only [bufPut, if_neg hx, bufWord, cellsGet_put_ne h]

theorem cellsRising_bufPut (i : Nat) (x : Word) {buf : List (Nat × Word)} (h : cellsRising buf = true) :
    cellsRising (bufPut i x buf) = true := by
  unfold bufPut
  split
  · exact cellsRisingFrom_erase h
  · exact cellsRisingFrom_put (Nat.zero_le _) _ h

theorem mem_bufPut {i : Nat} {x : Word} {buf : List (Nat × Word)} {c : Nat × Word} (h : c ∈ bufPut i x buf) :
    c ∈ buf ∨ (c = (i, x) ∧ x ≠ 0) := by
  unfold bufPut at h
  split at h
  · exact .inl (mem_cellsErase h)
  · rename_i hx
    rcases mem_cellsPut h with h | h
    · exact .inl h
    · exact .inr ⟨h, hx⟩

end Sys2Proof.Machine
end

