-- ==== Sys2Proof/Laws/Memory.lean ====
section
/-! SUPPORT. Audio memory: reading after writing, and the canonical form (spec/20_memory.md R103, R105, R107). -/

namespace Sys2Proof.Machine

theorem audioByte_put_out {a b : Nat} (h : b < a ∨ a + 4 ≤ b) (epoch : Nat) (v : Word) (m : List Host.Cell) :
    audioByte epoch (audioPut a v m) b = audioByte epoch m b := by
  unfold audioByte audioPut
  rw [cellsGet_put_ne (by omega), cellsGet_put_ne (by omega), cellsGet_put_ne (by omega), cellsGet_put_ne (by omega)]

theorem audioByte_put0 (epoch a : Nat) (v : Word) (m : List Host.Cell) :
    audioByte epoch (audioPut a v m) a = v.extractLsb' 0 8 := by
  unfold audioByte audioPut
  rw [cellsGet_put_ne (by omega), cellsGet_put_ne (by omega), cellsGet_put_ne (by omega), cellsGet_put_same]

theorem audioByte_put1 (epoch a : Nat) (v : Word) (m : List Host.Cell) :
    audioByte epoch (audioPut a v m) (a + 1) = v.extractLsb' 8 8 := by
  unfold audioByte audioPut
  rw [cellsGet_put_ne (by omega), cellsGet_put_ne (by omega), cellsGet_put_same]

theorem audioByte_put2 (epoch a : Nat) (v : Word) (m : List Host.Cell) :
    audioByte epoch (audioPut a v m) (a + 2) = v.extractLsb' 16 8 := by
  unfold audioByte audioPut
  rw [cellsGet_put_ne (by omega), cellsGet_put_same]

theorem audioByte_put3 (epoch a : Nat) (v : Word) (m : List Host.Cell) :
    audioByte epoch (audioPut a v m) (a + 3) = v.extractLsb' 24 8 := by
  unfold audioByte audioPut
  rw [cellsGet_put_same]

/-- The four byte lanes of a word, from the most significant down, make the word (R105). -/
theorem lanes_append (v : Word) :
    v.extractLsb' 24 8 ++ v.extractLsb' 16 8 ++ v.extractLsb' 8 8 ++ v.extractLsb' 0 8 = v := by
  ext i hi
  simp only [BitVec.getElem_append, BitVec.getElem_extractLsb', ← BitVec.getLsbD_eq_getElem (x := v)]
  repeat' split
  all_goals (congr 1; omega)

@[simp] theorem audioWord_put_same (epoch a : Nat) (v : Word) (m : List Host.Cell) :
    audioWord epoch (audioPut a v m) a = v := by
  unfold audioWord
  rw [audioByte_put0, audioByte_put1, audioByte_put2, audioByte_put3]
  exact lanes_append v

theorem audioWord_put_out {a b : Nat} (h : b + 4 ≤ a ∨ a + 4 ≤ b) (epoch : Nat) (v : Word) (m : List Host.Cell) :
    audioWord epoch (audioPut a v m) b = audioWord epoch m b := by
  unfold audioWord
  rw [audioByte_put_out (by omega), audioByte_put_out (by omega), audioByte_put_out (by omega), audioByte_put_out (by omega)]

/-- A store inside the audio window keeps the canonical form. -/
theorem Memory.wf_put {a : Nat} (lo : audioBase ≤ a) (hi : a + 4 ≤ audioEnd) (v : Word) {m : List Host.Cell}
    (h : Memory.wf m = true) : Memory.wf (audioPut a v m) = true := by
  simp only [Memory.wf, Bool.and_eq_true, List.all_eq_true, decide_eq_true_eq] at h ⊢
  refine ⟨?_, fun c hc => ?_⟩
  · exact cellsRisingFrom_put (by omega) _ (cellsRisingFrom_put (by omega) _ (cellsRisingFrom_put (by omega) _
      (cellsRisingFrom_put lo _ h.1)))
  · rcases mem_cellsPut hc with hc | rfl
    · rcases mem_cellsPut hc with hc | rfl
      · rcases mem_cellsPut hc with hc | rfl
        · rcases mem_cellsPut hc with hc | rfl
          · exact h.2 c hc
          · simp only; omega
        · simp only; omega
      · simp only; omega
    · simp only; omega

theorem audioAddr_window {c : Ix2} {n : Nat} (h : n < 4096) : audioBase ≤ audioAddr c n ∧ audioAddr c n + 4 ≤ audioEnd := by
  cases c <;> simp only [audioAddr, audioBase, audioEnd] <;> omega

/-- Reset memory, and the memory of no write, has the canonical form. -/
theorem Memory.wf_nil : Memory.wf [] = true := rfl

end Sys2Proof.Machine
end

