-- ==== Sys2Proof/Laws/Blocks.lean ====
section
/-! SUPPORT. Frames and blocks: what a frame reads and writes, that a block is its frames in order, and that a block
depends on its own input words alone (spec/46_host_commands.md R330 to R332). -/

namespace Sys2Proof.Machine

/-- The bytes of a word, put together again. -/
theorem lanes_of_append (b3 b2 b1 b0 : Byte) :
    (b3 ++ b2 ++ b1 ++ b0).extractLsb' 0 8 = b0 ∧ (b3 ++ b2 ++ b1 ++ b0).extractLsb' 8 8 = b1 ∧
      (b3 ++ b2 ++ b1 ++ b0).extractLsb' 16 8 = b2 ∧ (b3 ++ b2 ++ b1 ++ b0).extractLsb' 24 8 = b3 := by
  refine ⟨?_, ?_, ?_, ?_⟩ <;>
  · ext i hi
    simp only [BitVec.getElem_extractLsb', BitVec.getLsbD_append]
    have e1 : ¬ (8 + i < 8) := by omega
    have e2 : ¬ (16 + i < 8) := by omega
    have e3 : ¬ (16 + i - 8 < 8) := by omega
    have e4 : ¬ (24 + i < 8) := by omega
    have e5 : ¬ (24 + i - 8 < 8) := by omega
    have e6 : ¬ (24 + i - 8 - 8 < 8) := by omega
    have f1 : 8 + i - 8 = i := by omega
    have f2 : 16 + i - 8 - 8 = i := by omega
    have f3 : 24 + i - 8 - 8 - 8 = i := by omega
    simp [hi, e1, e2, e3, e4, e5, e6, f1, f2, f3, BitVec.getLsbD_eq_getElem]

/-- Writing back the word read changes no byte. -/
theorem audioByte_put_self (epoch a b : Nat) (m : List Host.Cell) :
    audioByte epoch (audioPut a (audioWord epoch m a) m) b = audioByte epoch m b := by
  have h := lanes_of_append (audioByte epoch m (a + 3)) (audioByte epoch m (a + 2)) (audioByte epoch m (a + 1))
    (audioByte epoch m a)
  by_cases h0 : b = a
  · subst h0; rw [audioByte_put0]; exact h.1
  · by_cases h1 : b = a + 1
    · subst h1; rw [audioByte_put1]; exact h.2.1
    · by_cases h2 : b = a + 2
      · subst h2; rw [audioByte_put2]; exact h.2.2.1
      · by_cases h3 : b = a + 3
        · subst h3; rw [audioByte_put3]; exact h.2.2.2
        · exact audioByte_put_out (by omega) _ _ _

/-- The right input of a frame: channel 1, or for one channel the same word again (R331). -/
def rightInput (channels epoch n : Nat) (m : List Host.Cell) : Word :=
  if channels = 2 then audioWord epoch m (audioAddr .i1 n) else audioWord epoch m (audioAddr .i0 n)

/-- What `sample` answers in frame `n`. -/
def frameResult (P : Preset) (channels epoch n : Nat) (b : BlockState) : Engine × Frame :=
  sampleEngine P b.engine ⟨audioWord epoch b.audio (audioAddr .i0 n), rightInput channels epoch n b.audio⟩

/-- The wet word of channel `c` (R331). -/
def wetWord (channels : Nat) (c : Ix2) (w : Frame) : Word :=
  match c with
  | .i0 => if channels = 2 then w.l else Ieee.fmul Ieee.half32 (Ieee.fadd w.l w.r)
  | .i1 => w.r

theorem frameStep_engine (P : Preset) (ch : Nat) (mix : Word) (epoch n : Nat) (b : BlockState) :
    (frameStep P ch mix epoch n b).engine = (frameResult P ch epoch n b).1 := by
  unfold frameStep frameResult rightInput
  by_cases h : ch = 2
  · simp only [if_pos h]; rfl
  · simp only [if_neg h]; rfl

/-- Frame `n` writes the mixed word of each channel it has at index `n`. -/
theorem frameStep_word (P : Preset) {ch : Nat} (mix : Word) (epoch n : Nat) (b : BlockState) (c : Ix2)
    (h : c = .i0 ∨ ch = 2) :
    audioWord epoch (frameStep P ch mix epoch n b).audio (audioAddr c n) =
      mixWord mix (audioWord epoch b.audio (audioAddr c n)) (wetWord ch c (frameResult P ch epoch n b).2) := by
  unfold frameStep frameResult rightInput wetWord
  by_cases hc : ch = 2
  · simp only [if_pos hc, frameStereo]
    cases c with
    | i0 =>
      rw [audioWord_put_out (by simp only [audioAddr]; omega)]
      exact audioWord_put_same ..
    | i1 => exact audioWord_put_same ..
  · simp only [if_neg hc, frameMono]
    cases c with
    | i0 => exact audioWord_put_same ..
    | i1 => exact absurd (h.resolve_left (by decide)) hc

/-- Frame `n` writes no other byte. -/
theorem frameStep_byte (P : Preset) (ch : Nat) (mix : Word) (epoch n : Nat) (b : BlockState) (a : Nat)
    (h0 : a < audioAddr .i0 n ∨ audioAddr .i0 n + 4 ≤ a)
    (h1 : ch = 2 → a < audioAddr .i1 n ∨ audioAddr .i1 n + 4 ≤ a) :
    audioByte epoch (frameStep P ch mix epoch n b).audio a = audioByte epoch b.audio a := by
  unfold frameStep
  by_cases hc : ch = 2
  · simp only [if_pos hc, frameStereo]
    rw [audioByte_put_out (h1 hc), audioByte_put_out h0]
  · simp only [if_neg hc, frameMono]
    rw [audioByte_put_out h0]

theorem frameStep_word_other (P : Preset) (ch : Nat) (mix : Word) (epoch : Nat) {n k : Nat} (hn : n < 4096) (hk : k < 4096)
    (hne : k ≠ n) (b : BlockState) (c : Ix2) :
    audioWord epoch (frameStep P ch mix epoch n b).audio (audioAddr c k) = audioWord epoch b.audio (audioAddr c k) := by
  unfold audioWord
  rw [frameStep_byte, frameStep_byte, frameStep_byte, frameStep_byte] <;>
    (cases c <;> simp only [audioAddr] <;> omega)

theorem frameStep_word_mono (P : Preset) {ch : Nat} (hc : ch ≠ 2) (mix : Word) (epoch n : Nat) (b : BlockState) :
    audioWord epoch (frameStep P ch mix epoch n b).audio (audioAddr .i1 n) = audioWord epoch b.audio (audioAddr .i1 n) := by
  unfold audioWord
  rw [frameStep_byte, frameStep_byte, frameStep_byte, frameStep_byte] <;>
    (simp only [audioAddr]; omega)

/-- A block of `k + 1` frames is a block of `k` frames and then one frame. -/
theorem runFrames_succ (P : Preset) (ch : Nat) (mix : Word) (epoch k n : Nat) (b : BlockState) :
    runFrames P ch mix epoch (k + 1) n b = frameStep P ch mix epoch (n + k) (runFrames P ch mix epoch k n b) := by
  induction k generalizing n b with
  | zero => rfl
  | succ k ih =>
    rw [runFrames, ih, runFrames]
    congr 1; omega

/-- A block of `j + k` frames is its first `j` frames and then its last `k`. -/
theorem runFrames_add (P : Preset) (ch : Nat) (mix : Word) (epoch j k n : Nat) (b : BlockState) :
    runFrames P ch mix epoch (j + k) n b = runFrames P ch mix epoch k (n + j) (runFrames P ch mix epoch j n b) := by
  induction k with
  | zero => rfl
  | succ k ih => rw [← Nat.add_assoc, runFrames_succ, ih, runFrames_succ, Nat.add_assoc]

/-- A block leaves the words of other frames alone. -/
theorem runFrames_word_other (P : Preset) (ch : Nat) (mix : Word) (epoch k n : Nat) (b : BlockState) (hk : n + k ≤ 4096)
    {j : Nat} (hj : j < n ∨ n + k ≤ j) (hj' : j < 4096) (c : Ix2) :
    audioWord epoch (runFrames P ch mix epoch k n b).audio (audioAddr c j) = audioWord epoch b.audio (audioAddr c j) := by
  induction k with
  | zero => rfl
  | succ k ih =>
    rw [runFrames_succ, frameStep_word_other P ch mix epoch (by omega) hj' (by omega)]
    exact ih (by omega) (by omega)

/-- With a zero mix, a block changes no byte of audio memory (R332). -/
theorem runFrames_bypass (P : Preset) (ch : Nat) {mix : Word} (hm : Ieee.isZero mix = true) (epoch k n : Nat) (b : BlockState)
    (hk : n + k ≤ 4096) (a : Nat) :
    audioByte epoch (runFrames P ch mix epoch k n b).audio a = audioByte epoch b.audio a := by
  induction k with
  | zero => rfl
  | succ k ih =>
    rw [runFrames_succ]
    refine Eq.trans ?_ (ih (by omega))
    generalize runFrames P ch mix epoch k n b = b'
    unfold frameStep frameStereo frameMono mixWord
    simp only [hm, if_true]
    by_cases hc : ch = 2
    · simp only [if_pos hc]
      have h := audioByte_put_self epoch (audioAddr .i1 (n + k)) a
        (audioPut (audioAddr .i0 (n + k)) (audioWord epoch b'.audio (audioAddr .i0 (n + k))) b'.audio)
      rw [audioWord_put_out (by simp only [audioAddr]; omega)] at h
      rw [h, audioByte_put_self]
    · simp only [if_neg hc]
      rw [audioByte_put_self]

/-- A frame depends on the engine and on its own input words alone, wherever in audio memory they lie. -/
theorem frameStep_congr (P : Preset) (ch : Nat) (mix : Word) {epoch epoch' n n' : Nat} {b b' : BlockState} (he : b.engine = b'.engine)
    (hw : ∀ c, audioWord epoch b.audio (audioAddr c n) = audioWord epoch' b'.audio (audioAddr c n')) :
    (frameStep P ch mix epoch n b).engine = (frameStep P ch mix epoch' n' b').engine ∧
      ∀ c, audioWord epoch (frameStep P ch mix epoch n b).audio (audioAddr c n) =
        audioWord epoch' (frameStep P ch mix epoch' n' b').audio (audioAddr c n') := by
  have hr : frameResult P ch epoch n b = frameResult P ch epoch' n' b' := by
    simp only [frameResult, rightInput, he, hw]
  refine ⟨by rw [frameStep_engine, frameStep_engine, hr], fun c => ?_⟩
  by_cases h : c = .i0 ∨ ch = 2
  · rw [frameStep_word P mix epoch n b c h, frameStep_word P mix epoch' n' b' c h, hr, hw]
  · cases c with
    | i0 => exact absurd (.inl rfl) h
    | i1 =>
      have hc : ch ≠ 2 := fun hc => h (.inr hc)
      rw [frameStep_word_mono P hc, frameStep_word_mono P hc, hw]

/-- A block depends on the engine and on its own input words alone. -/
theorem runFrames_congr (P : Preset) (ch : Nat) (mix : Word) {epoch epoch' : Nat} (k : Nat) {n n' : Nat} (hn : n + k ≤ 4096)
    (hn' : n' + k ≤ 4096) {b b' : BlockState} (he : b.engine = b'.engine)
    (hw : ∀ c i, i < k → audioWord epoch b.audio (audioAddr c (n + i)) = audioWord epoch' b'.audio (audioAddr c (n' + i))) :
    (runFrames P ch mix epoch k n b).engine = (runFrames P ch mix epoch' k n' b').engine ∧
      ∀ c i, i < k → audioWord epoch (runFrames P ch mix epoch k n b).audio (audioAddr c (n + i)) =
        audioWord epoch' (runFrames P ch mix epoch' k n' b').audio (audioAddr c (n' + i)) := by
  induction k with
  | zero => exact ⟨he, fun c i hi => absurd hi (Nat.not_lt_zero i)⟩
  | succ k ih =>
    have hs := ih (by omega) (by omega) fun c i hi => hw c i (by omega)
    have hf := frameStep_congr P ch mix (epoch := epoch) (epoch' := epoch') (n := n + k) (n' := n' + k)
      hs.1 fun c => by
        rw [runFrames_word_other P ch mix epoch k n b (by omega) (by omega) (by omega),
          runFrames_word_other P ch mix epoch' k n' b' (by omega) (by omega) (by omega)]
        exact hw c k (by omega)
    rw [runFrames_succ, runFrames_succ]
    refine ⟨hf.1, fun c i hi => ?_⟩
    rcases Nat.lt_succ_iff_lt_or_eq.mp hi with hlt | rfl
    · rw [frameStep_word_other P ch mix epoch (by omega) (by omega) (by omega),
        frameStep_word_other P ch mix epoch' (by omega) (by omega) (by omega)]
      exact hs.2 c i hlt
    · exact hf.2 c

end Sys2Proof.Machine
end

