-- ==== Sys2Proof/Laws/Encoding.lean ====
section
/-! SUPPORT. The fields of a command word (spec/30_encoding.md R131). -/

namespace Sys2Proof

@[simp] theorem opcOf_commandWord (o : BitVec 8) (u : UnitId) (m : BitVec 16) : opcOf (commandWord o u m) = o := by
  unfold opcOf commandWord
  ext i hi
  simp only [BitVec.getElem_extractLsb', BitVec.getLsbD_append]
  rw [if_neg (by omega), if_neg (by omega), BitVec.getLsbD_eq_getElem (by omega)]
  congr 1; omega

@[simp] theorem unitOf_commandWord (o : BitVec 8) (u : UnitId) (m : BitVec 16) : unitOf (commandWord o u m) = u := by
  unfold unitOf commandWord
  ext i hi
  simp only [BitVec.getElem_extractLsb', BitVec.getLsbD_append]
  rw [if_neg (by omega), if_pos (by omega), BitVec.getLsbD_eq_getElem (by omega)]
  congr 1; omega

@[simp] theorem immOf_commandWord (o : BitVec 8) (u : UnitId) (m : BitVec 16) : immOf (commandWord o u m) = m := by
  unfold immOf commandWord
  ext i hi
  simp only [BitVec.getElem_extractLsb', BitVec.getLsbD_append]
  rw [if_pos (by omega), BitVec.getLsbD_eq_getElem (by omega)]
  congr 1; omega

/-- A command word is its three fields. -/
theorem commandWord_fields (v : Word) : commandWord (opcOf v) (unitOf v) (immOf v) = v := by
  unfold opcOf unitOf immOf commandWord
  ext i hi
  simp only [BitVec.getElem_append, BitVec.getElem_extractLsb', ← BitVec.getLsbD_eq_getElem (x := v)]
  repeat' split
  all_goals (congr 1; omega)

@[simp] theorem opcOf_encode (i : Instr) : opcOf (encode i) = i.opc := opcOf_commandWord _ _ _

@[simp] theorem unitOf_encode (i : Instr) : unitOf (encode i) = i.unitField := unitOf_commandWord _ _ _

@[simp] theorem immOf_encode (i : Instr) : immOf (encode i) = i.immField := immOf_commandWord _ _ _

/-- Two words with the same fields are the same word. -/
theorem word_eq_of_fields {v w : Word} (ho : opcOf v = opcOf w) (hu : unitOf v = unitOf w) (hm : immOf v = immOf w) :
    v = w := by
  rw [← commandWord_fields v, ← commandWord_fields w, ho, hu, hm]

/-! What each kind of row answers, read backwards. -/

theorem unitRow_ok {v : Word} {mk : UnitId → Instr} {i : Instr} (h : unitRow v mk = .ok i) :
    immOf v = 0 ∧ i = mk (unitOf v) := by
  unfold unitRow at h
  split at h
  · exact ⟨‹_›, (Except.ok.inj h).symm⟩
  · cases h

theorem bareRow_ok {v : Word} {j i : Instr} (h : bareRow v j = .ok i) : unitOf v = 0 ∧ immOf v = 0 ∧ i = j := by
  unfold bareRow at h
  split at h
  · rename_i hz
    exact ⟨hz.1, hz.2, (Except.ok.inj h).symm⟩
  · cases h

theorem prepareRow_ok {v : Word} {i : Instr} (h : prepareRow v = .ok i) :
    ∃ k, immOf v = 0 ∧ unitOf v = engineSelect k ∧ i = .prepare k := by
  unfold prepareRow at h
  split at h
  · split at h
    · exact ⟨.hall, ‹_›, ‹_›, (Except.ok.inj h).symm⟩
    · split at h
      · exact ⟨.plate, ‹_›, ‹_›, (Except.ok.inj h).symm⟩
      · cases h
  · cases h

theorem getParamRow_ok {v : Word} {i : Instr} (h : getParamRow v = .ok i) :
    unitOf v = 0 ∧ paramIndexOk (immOf v) = true ∧ i = .getParam (immOf v) := by
  unfold getParamRow at h
  split at h
  · split at h
    · exact ⟨‹_›, ‹_›, (Except.ok.inj h).symm⟩
    · cases h
  · cases h

theorem processBlockRow_ok {v : Word} {i : Instr} (h : processBlockRow v = .ok i) :
    unitOf v = 0 ∧ i = .processBlock (immOf v) := by
  unfold processBlockRow at h
  split at h
  · exact ⟨‹_›, (Except.ok.inj h).symm⟩
  · cases h

end Sys2Proof
end

