-- ==== Sys2Proof/Laws/State.lean ====
section
/-! SUPPORT. What each update of the state does to each field: one lemma per field per update. -/

namespace Sys2Proof.Machine

/-! ### setRes0 -/

@[simp] theorem setRes0_inputs (v : Word) (s : State) : (setRes0 v s).inputs = s.inputs := rfl
@[simp] theorem setRes0_hostReads (v : Word) (s : State) : (setRes0 v s).hostReads = s.hostReads := rfl
@[simp] theorem setRes0_busy (v : Word) (s : State) : (setRes0 v s).busy = s.busy := rfl
@[simp] theorem setRes0_pending (v : Word) (s : State) : (setRes0 v s).pending = s.pending := rfl
@[simp] theorem setRes0_prep (v : Word) (s : State) : (setRes0 v s).prep = s.prep := rfl
@[simp] theorem setRes0_faultBits (v : Word) (s : State) : (setRes0 v s).faultBits = s.faultBits := rfl
@[simp] theorem setRes0_firstCode (v : Word) (s : State) : (setRes0 v s).firstCode = s.firstCode := rfl
@[simp] theorem setRes0_faultInfo (v : Word) (s : State) : (setRes0 v s).faultInfo = s.faultInfo := rfl
@[simp] theorem setRes0_arg (v : Word) (s : State) : (setRes0 v s).arg = s.arg := rfl
@[simp] theorem setRes0_res (v : Word) (s : State) : (setRes0 v s).res = { s.res with v0 := v } := rfl
@[simp] theorem setRes0_stage (v : Word) (s : State) : (setRes0 v s).stage = s.stage := rfl
@[simp] theorem setRes0_par (v : Word) (s : State) : (setRes0 v s).par = s.par := rfl
@[simp] theorem setRes0_engine (v : Word) (s : State) : (setRes0 v s).engine = s.engine := rfl
@[simp] theorem setRes0_audio (v : Word) (s : State) : (setRes0 v s).audio = s.audio := rfl
@[simp] theorem setRes0_stageOld (v : Word) (s : State) : (setRes0 v s).stageOld = s.stageOld := rfl
@[simp] theorem setRes0_freeCtr (v : Word) (s : State) : (setRes0 v s).freeCtr = s.freeCtr := rfl
@[simp] theorem setRes0_audioEpoch (v : Word) (s : State) : (setRes0 v s).audioEpoch = s.audioEpoch := rfl

/-! ### setRes1 -/

@[simp] theorem setRes1_inputs (v : Word) (s : State) : (setRes1 v s).inputs = s.inputs := rfl
@[simp] theorem setRes1_hostReads (v : Word) (s : State) : (setRes1 v s).hostReads = s.hostReads := rfl
@[simp] theorem setRes1_busy (v : Word) (s : State) : (setRes1 v s).busy = s.busy := rfl
@[simp] theorem setRes1_pending (v : Word) (s : State) : (setRes1 v s).pending = s.pending := rfl
@[simp] theorem setRes1_prep (v : Word) (s : State) : (setRes1 v s).prep = s.prep := rfl
@[simp] theorem setRes1_faultBits (v : Word) (s : State) : (setRes1 v s).faultBits = s.faultBits := rfl
@[simp] theorem setRes1_firstCode (v : Word) (s : State) : (setRes1 v s).firstCode = s.firstCode := rfl
@[simp] theorem setRes1_faultInfo (v : Word) (s : State) : (setRes1 v s).faultInfo = s.faultInfo := rfl
@[simp] theorem setRes1_arg (v : Word) (s : State) : (setRes1 v s).arg = s.arg := rfl
@[simp] theorem setRes1_res (v : Word) (s : State) : (setRes1 v s).res = { s.res with v1 := v } := rfl
@[simp] theorem setRes1_stage (v : Word) (s : State) : (setRes1 v s).stage = s.stage := rfl
@[simp] theorem setRes1_par (v : Word) (s : State) : (setRes1 v s).par = s.par := rfl
@[simp] theorem setRes1_engine (v : Word) (s : State) : (setRes1 v s).engine = s.engine := rfl
@[simp] theorem setRes1_audio (v : Word) (s : State) : (setRes1 v s).audio = s.audio := rfl
@[simp] theorem setRes1_stageOld (v : Word) (s : State) : (setRes1 v s).stageOld = s.stageOld := rfl
@[simp] theorem setRes1_freeCtr (v : Word) (s : State) : (setRes1 v s).freeCtr = s.freeCtr := rfl
@[simp] theorem setRes1_audioEpoch (v : Word) (s : State) : (setRes1 v s).audioEpoch = s.audioEpoch := rfl

/-! ### setRes2 -/

@[simp] theorem setRes2_inputs (v : Word) (s : State) : (setRes2 v s).inputs = s.inputs := rfl
@[simp] theorem setRes2_hostReads (v : Word) (s : State) : (setRes2 v s).hostReads = s.hostReads := rfl
@[simp] theorem setRes2_busy (v : Word) (s : State) : (setRes2 v s).busy = s.busy := rfl
@[simp] theorem setRes2_pending (v : Word) (s : State) : (setRes2 v s).pending = s.pending := rfl
@[simp] theorem setRes2_prep (v : Word) (s : State) : (setRes2 v s).prep = s.prep := rfl
@[simp] theorem setRes2_faultBits (v : Word) (s : State) : (setRes2 v s).faultBits = s.faultBits := rfl
@[simp] theorem setRes2_firstCode (v : Word) (s : State) : (setRes2 v s).firstCode = s.firstCode := rfl
@[simp] theorem setRes2_faultInfo (v : Word) (s : State) : (setRes2 v s).faultInfo = s.faultInfo := rfl
@[simp] theorem setRes2_arg (v : Word) (s : State) : (setRes2 v s).arg = s.arg := rfl
@[simp] theorem setRes2_res (v : Word) (s : State) : (setRes2 v s).res = { s.res with v2 := v } := rfl
@[simp] theorem setRes2_stage (v : Word) (s : State) : (setRes2 v s).stage = s.stage := rfl
@[simp] theorem setRes2_par (v : Word) (s : State) : (setRes2 v s).par = s.par := rfl
@[simp] theorem setRes2_engine (v : Word) (s : State) : (setRes2 v s).engine = s.engine := rfl
@[simp] theorem setRes2_audio (v : Word) (s : State) : (setRes2 v s).audio = s.audio := rfl
@[simp] theorem setRes2_stageOld (v : Word) (s : State) : (setRes2 v s).stageOld = s.stageOld := rfl
@[simp] theorem setRes2_freeCtr (v : Word) (s : State) : (setRes2 v s).freeCtr = s.freeCtr := rfl
@[simp] theorem setRes2_audioEpoch (v : Word) (s : State) : (setRes2 v s).audioEpoch = s.audioEpoch := rfl

/-! ### setRes3 -/

@[simp] theorem setRes3_inputs (v : Word) (s : State) : (setRes3 v s).inputs = s.inputs := rfl
@[simp] theorem setRes3_hostReads (v : Word) (s : State) : (setRes3 v s).hostReads = s.hostReads := rfl
@[simp] theorem setRes3_busy (v : Word) (s : State) : (setRes3 v s).busy = s.busy := rfl
@[simp] theorem setRes3_pending (v : Word) (s : State) : (setRes3 v s).pending = s.pending := rfl
@[simp] theorem setRes3_prep (v : Word) (s : State) : (setRes3 v s).prep = s.prep := rfl
@[simp] theorem setRes3_faultBits (v : Word) (s : State) : (setRes3 v s).faultBits = s.faultBits := rfl
@[simp] theorem setRes3_firstCode (v : Word) (s : State) : (setRes3 v s).firstCode = s.firstCode := rfl
@[simp] theorem setRes3_faultInfo (v : Word) (s : State) : (setRes3 v s).faultInfo = s.faultInfo := rfl
@[simp] theorem setRes3_arg (v : Word) (s : State) : (setRes3 v s).arg = s.arg := rfl
@[simp] theorem setRes3_res (v : Word) (s : State) : (setRes3 v s).res = { s.res with v3 := v } := rfl
@[simp] theorem setRes3_stage (v : Word) (s : State) : (setRes3 v s).stage = s.stage := rfl
@[simp] theorem setRes3_par (v : Word) (s : State) : (setRes3 v s).par = s.par := rfl
@[simp] theorem setRes3_engine (v : Word) (s : State) : (setRes3 v s).engine = s.engine := rfl
@[simp] theorem setRes3_audio (v : Word) (s : State) : (setRes3 v s).audio = s.audio := rfl
@[simp] theorem setRes3_stageOld (v : Word) (s : State) : (setRes3 v s).stageOld = s.stageOld := rfl
@[simp] theorem setRes3_freeCtr (v : Word) (s : State) : (setRes3 v s).freeCtr = s.freeCtr := rfl
@[simp] theorem setRes3_audioEpoch (v : Word) (s : State) : (setRes3 v s).audioEpoch = s.audioEpoch := rfl

/-! ### setEngine -/

@[simp] theorem setEngine_inputs (e : Engine) (s : State) : (setEngine e s).inputs = s.inputs := rfl
@[simp] theorem setEngine_hostReads (e : Engine) (s : State) : (setEngine e s).hostReads = s.hostReads := rfl
@[simp] theorem setEngine_busy (e : Engine) (s : State) : (setEngine e s).busy = s.busy := rfl
@[simp] theorem setEngine_pending (e : Engine) (s : State) : (setEngine e s).pending = s.pending := rfl
@[simp] theorem setEngine_prep (e : Engine) (s : State) : (setEngine e s).prep = s.prep := rfl
@[simp] theorem setEngine_faultBits (e : Engine) (s : State) : (setEngine e s).faultBits = s.faultBits := rfl
@[simp] theorem setEngine_firstCode (e : Engine) (s : State) : (setEngine e s).firstCode = s.firstCode := rfl
@[simp] theorem setEngine_faultInfo (e : Engine) (s : State) : (setEngine e s).faultInfo = s.faultInfo := rfl
@[simp] theorem setEngine_arg (e : Engine) (s : State) : (setEngine e s).arg = s.arg := rfl
@[simp] theorem setEngine_res (e : Engine) (s : State) : (setEngine e s).res = s.res := rfl
@[simp] theorem setEngine_stage (e : Engine) (s : State) : (setEngine e s).stage = s.stage := rfl
@[simp] theorem setEngine_par (e : Engine) (s : State) : (setEngine e s).par = s.par := rfl
@[simp] theorem setEngine_engine (e : Engine) (s : State) : (setEngine e s).engine = some e := rfl
@[simp] theorem setEngine_audio (e : Engine) (s : State) : (setEngine e s).audio = s.audio := rfl
@[simp] theorem setEngine_stageOld (e : Engine) (s : State) : (setEngine e s).stageOld = s.stageOld := rfl
@[simp] theorem setEngine_freeCtr (e : Engine) (s : State) : (setEngine e s).freeCtr = s.freeCtr := rfl
@[simp] theorem setEngine_audioEpoch (e : Engine) (s : State) : (setEngine e s).audioEpoch = s.audioEpoch := rfl

/-! ### raiseFault -/

@[simp] theorem raiseFault_inputs (c : FaultCode) (v : Word) (s : State) : (raiseFault c v s).inputs = s.inputs := rfl
@[simp] theorem raiseFault_hostReads (c : FaultCode) (v : Word) (s : State) : (raiseFault c v s).hostReads =
    s.hostReads := rfl
@[simp] theorem raiseFault_busy (c : FaultCode) (v : Word) (s : State) : (raiseFault c v s).busy = s.busy := rfl
@[simp] theorem raiseFault_pending (c : FaultCode) (v : Word) (s : State) : (raiseFault c v s).pending = s.pending := rfl
@[simp] theorem raiseFault_prep (c : FaultCode) (v : Word) (s : State) : (raiseFault c v s).prep = s.prep := rfl
@[simp] theorem raiseFault_faultBits (c : FaultCode) (v : Word) (s : State) : (raiseFault c v s).faultBits =
    s.faultBits ||| codeBit c := rfl
@[simp] theorem raiseFault_firstCode (c : FaultCode) (v : Word) (s : State) : (raiseFault c v s).firstCode =
    if s.firstCode = 0 then BitVec.ofNat 8 (codeNumber c) else s.firstCode := rfl
@[simp] theorem raiseFault_faultInfo (c : FaultCode) (v : Word) (s : State) : (raiseFault c v s).faultInfo =
    if s.firstCode = 0 then v else s.faultInfo := rfl
@[simp] theorem raiseFault_arg (c : FaultCode) (v : Word) (s : State) : (raiseFault c v s).arg = s.arg := rfl
@[simp] theorem raiseFault_res (c : FaultCode) (v : Word) (s : State) : (raiseFault c v s).res = s.res := rfl
@[simp] theorem raiseFault_stage (c : FaultCode) (v : Word) (s : State) : (raiseFault c v s).stage = s.stage := rfl
@[simp] theorem raiseFault_par (c : FaultCode) (v : Word) (s : State) : (raiseFault c v s).par = s.par := rfl
@[simp] theorem raiseFault_engine (c : FaultCode) (v : Word) (s : State) : (raiseFault c v s).engine = s.engine := rfl
@[simp] theorem raiseFault_audio (c : FaultCode) (v : Word) (s : State) : (raiseFault c v s).audio = s.audio := rfl
@[simp] theorem raiseFault_stageOld (c : FaultCode) (v : Word) (s : State) : (raiseFault c v s).stageOld = s.stageOld := rfl
@[simp] theorem raiseFault_freeCtr (c : FaultCode) (v : Word) (s : State) : (raiseFault c v s).freeCtr = s.freeCtr := rfl
@[simp] theorem raiseFault_audioEpoch (c : FaultCode) (v : Word) (s : State) : (raiseFault c v s).audioEpoch =
    s.audioEpoch := rfl

/-! ### acceptCommand -/

@[simp] theorem acceptCommand_inputs (v : Word) (s : State) : (acceptCommand v s).inputs = s.inputs := rfl
@[simp] theorem acceptCommand_hostReads (v : Word) (s : State) : (acceptCommand v s).hostReads = s.hostReads := rfl
@[simp] theorem acceptCommand_busy (v : Word) (s : State) : (acceptCommand v s).busy = true := rfl
@[simp] theorem acceptCommand_pending (v : Word) (s : State) : (acceptCommand v s).pending = v := rfl
@[simp] theorem acceptCommand_prep (v : Word) (s : State) : (acceptCommand v s).prep = s.prep := rfl
@[simp] theorem acceptCommand_faultBits (v : Word) (s : State) : (acceptCommand v s).faultBits = s.faultBits := rfl
@[simp] theorem acceptCommand_firstCode (v : Word) (s : State) : (acceptCommand v s).firstCode = s.firstCode := rfl
@[simp] theorem acceptCommand_faultInfo (v : Word) (s : State) : (acceptCommand v s).faultInfo = s.faultInfo := rfl
@[simp] theorem acceptCommand_arg (v : Word) (s : State) : (acceptCommand v s).arg = s.arg := rfl
@[simp] theorem acceptCommand_res (v : Word) (s : State) : (acceptCommand v s).res = s.res := rfl
@[simp] theorem acceptCommand_stage (v : Word) (s : State) : (acceptCommand v s).stage = s.stage := rfl
@[simp] theorem acceptCommand_par (v : Word) (s : State) : (acceptCommand v s).par = s.par := rfl
@[simp] theorem acceptCommand_engine (v : Word) (s : State) : (acceptCommand v s).engine = s.engine := rfl
@[simp] theorem acceptCommand_audio (v : Word) (s : State) : (acceptCommand v s).audio = s.audio := rfl
@[simp] theorem acceptCommand_stageOld (v : Word) (s : State) : (acceptCommand v s).stageOld = noStageOld := rfl
@[simp] theorem acceptCommand_freeCtr (v : Word) (s : State) : (acceptCommand v s).freeCtr = s.freeCtr := rfl
@[simp] theorem acceptCommand_audioEpoch (v : Word) (s : State) : (acceptCommand v s).audioEpoch = s.audioEpoch := rfl

/-! ### completeCommand -/

@[simp] theorem completeCommand_inputs (s : State) : (completeCommand s).inputs = s.inputs := rfl
@[simp] theorem completeCommand_hostReads (s : State) : (completeCommand s).hostReads = s.hostReads := rfl
@[simp] theorem completeCommand_busy (s : State) : (completeCommand s).busy = false := rfl
@[simp] theorem completeCommand_pending (s : State) : (completeCommand s).pending = s.pending := rfl
@[simp] theorem completeCommand_prep (s : State) : (completeCommand s).prep = s.prep := rfl
@[simp] theorem completeCommand_faultBits (s : State) : (completeCommand s).faultBits = s.faultBits := rfl
@[simp] theorem completeCommand_firstCode (s : State) : (completeCommand s).firstCode = s.firstCode := rfl
@[simp] theorem completeCommand_faultInfo (s : State) : (completeCommand s).faultInfo = s.faultInfo := rfl
@[simp] theorem completeCommand_arg (s : State) : (completeCommand s).arg = s.arg := rfl
@[simp] theorem completeCommand_res (s : State) : (completeCommand s).res = s.res := rfl
@[simp] theorem completeCommand_stage (s : State) : (completeCommand s).stage = s.stage := rfl
@[simp] theorem completeCommand_par (s : State) : (completeCommand s).par = s.par := rfl
@[simp] theorem completeCommand_engine (s : State) : (completeCommand s).engine = s.engine := rfl
@[simp] theorem completeCommand_audio (s : State) : (completeCommand s).audio = s.audio := rfl
@[simp] theorem completeCommand_stageOld (s : State) : (completeCommand s).stageOld = noStageOld := rfl
@[simp] theorem completeCommand_freeCtr (s : State) : (completeCommand s).freeCtr = s.freeCtr := rfl
@[simp] theorem completeCommand_audioEpoch (s : State) : (completeCommand s).audioEpoch = s.audioEpoch := rfl

/-! ### prepared -/

@[simp] theorem prepared_inputs (k : EngineKind) (s : State) : (prepared k s).inputs = s.inputs := rfl
@[simp] theorem prepared_hostReads (k : EngineKind) (s : State) : (prepared k s).hostReads = s.hostReads := rfl
@[simp] theorem prepared_busy (k : EngineKind) (s : State) : (prepared k s).busy = s.busy := rfl
@[simp] theorem prepared_pending (k : EngineKind) (s : State) : (prepared k s).pending = s.pending := rfl
@[simp] theorem prepared_prep (k : EngineKind) (s : State) : (prepared k s).prep =
    { fs := argF64 s, maxBlockSize := argU32₂ s, numChannels := argU32₃ s } := rfl
@[simp] theorem prepared_faultBits (k : EngineKind) (s : State) : (prepared k s).faultBits = s.faultBits := rfl
@[simp] theorem prepared_firstCode (k : EngineKind) (s : State) : (prepared k s).firstCode = s.firstCode := rfl
@[simp] theorem prepared_faultInfo (k : EngineKind) (s : State) : (prepared k s).faultInfo = s.faultInfo := rfl
@[simp] theorem prepared_arg (k : EngineKind) (s : State) : (prepared k s).arg = s.arg := rfl
@[simp] theorem prepared_res (k : EngineKind) (s : State) : (prepared k s).res = s.res := rfl
@[simp] theorem prepared_stage (k : EngineKind) (s : State) : (prepared k s).stage = s.stage := rfl
@[simp] theorem prepared_par (k : EngineKind) (s : State) : (prepared k s).par = s.par := rfl
@[simp] theorem prepared_engine (k : EngineKind) (s : State) : (prepared k s).engine =
    some (buildEngine preset k (argF64 s) s.par) := rfl
@[simp] theorem prepared_audio (k : EngineKind) (s : State) : (prepared k s).audio = s.audio := rfl
@[simp] theorem prepared_stageOld (k : EngineKind) (s : State) : (prepared k s).stageOld = s.stageOld := rfl
@[simp] theorem prepared_freeCtr (k : EngineKind) (s : State) : (prepared k s).freeCtr = s.freeCtr := rfl
@[simp] theorem prepared_audioEpoch (k : EngineKind) (s : State) : (prepared k s).audioEpoch = s.audioEpoch := rfl

/-! ### processed -/

@[simp] theorem processed_inputs (k : Nat) (e : Engine) (s : State) : (processed k e s).inputs = s.inputs := rfl
@[simp] theorem processed_hostReads (k : Nat) (e : Engine) (s : State) : (processed k e s).hostReads = s.hostReads := rfl
@[simp] theorem processed_busy (k : Nat) (e : Engine) (s : State) : (processed k e s).busy = s.busy := rfl
@[simp] theorem processed_pending (k : Nat) (e : Engine) (s : State) : (processed k e s).pending = s.pending := rfl
@[simp] theorem processed_prep (k : Nat) (e : Engine) (s : State) : (processed k e s).prep = s.prep := rfl
@[simp] theorem processed_faultBits (k : Nat) (e : Engine) (s : State) : (processed k e s).faultBits = s.faultBits := rfl
@[simp] theorem processed_firstCode (k : Nat) (e : Engine) (s : State) : (processed k e s).firstCode = s.firstCode := rfl
@[simp] theorem processed_faultInfo (k : Nat) (e : Engine) (s : State) : (processed k e s).faultInfo = s.faultInfo := rfl
@[simp] theorem processed_arg (k : Nat) (e : Engine) (s : State) : (processed k e s).arg = s.arg := rfl
@[simp] theorem processed_res (k : Nat) (e : Engine) (s : State) : (processed k e s).res = s.res := rfl
@[simp] theorem processed_stage (k : Nat) (e : Engine) (s : State) : (processed k e s).stage = s.stage := rfl
@[simp] theorem processed_par (k : Nat) (e : Engine) (s : State) : (processed k e s).par = s.par := rfl
@[simp] theorem processed_engine (k : Nat) (e : Engine) (s : State) : (processed k e s).engine =
    some (runFrames preset s.prep.numChannels s.par.mix s.audioEpoch k 0 ⟨e, s.audio⟩).engine := rfl
@[simp] theorem processed_audio (k : Nat) (e : Engine) (s : State) : (processed k e s).audio =
    (runFrames preset s.prep.numChannels s.par.mix s.audioEpoch k 0 ⟨e, s.audio⟩).audio := rfl
@[simp] theorem processed_stageOld (k : Nat) (e : Engine) (s : State) : (processed k e s).stageOld = s.stageOld := rfl
@[simp] theorem processed_freeCtr (k : Nat) (e : Engine) (s : State) : (processed k e s).freeCtr = s.freeCtr := rfl
@[simp] theorem processed_audioEpoch (k : Nat) (e : Engine) (s : State) : (processed k e s).audioEpoch = s.audioEpoch := rfl

@[simp] theorem commandFault_eq (c : FaultCode) (s : State) : commandFault c s = raiseFault c s.pending s := rfl

end Sys2Proof.Machine
end

