-- ==== Sys2Proof/Laws/Exec.lean ====
section
/-! SUPPORT. What the shared checks and the commands can answer, said once (spec/30_encoding.md R140, R142). -/

namespace Sys2Proof.Machine

/-! ### The shared checks -/

theorem whenReady_none {s : State} (h : s.engine = none) (run : Engine → State) :
    whenReady s run = raiseFault .badState s.pending s := by simp only [whenReady, h]; rfl

theorem whenReady_some {s : State} {e : Engine} (h : s.engine = some e) (run : Engine → State) :
    whenReady s run = run e := by simp only [whenReady, h]

theorem withUnit_none {α : Type} (s : State) (run : α → State) :
    withUnit s none run = raiseFault .badUnit s.pending s := rfl

@[simp] theorem withUnit_some {α : Type} (s : State) (a : α) (run : α → State) : withUnit s (some a) run = run a := rfl

theorem withPrecond_true {s : State} {ok : Bool} (h : ok = true) (run : State) : withPrecond s ok run = run := by
  subst h; rfl

theorem withPrecond_false {s : State} {ok : Bool} (h : ok = false) (run : State) :
    withPrecond s ok run = raiseFault .precond s.pending s := by subst h; rfl

/-- A property that a recorded command fault has and that the command's run has on the prepared engine holds of what the
command leaves. -/
theorem whenReady_of {P : State → Prop} {s : State} {run : Engine → State} (hf : ∀ c, P (raiseFault c s.pending s))
    (hr : ∀ e, s.engine = some e → P (run e)) : P (whenReady s run) := by
  unfold whenReady
  split
  · exact hf _
  · exact hr _ ‹_›

theorem withUnit_of {α : Type} {P : State → Prop} {s : State} {o : Option α} {run : α → State}
    (hf : ∀ c, P (raiseFault c s.pending s)) (hr : ∀ a, o = some a → P (run a)) : P (withUnit s o run) := by
  unfold withUnit
  split
  · exact hf _
  · exact hr _ rfl

theorem withPrecond_of {P : State → Prop} {s : State} {ok : Bool} {run : State} (hf : ∀ c, P (raiseFault c s.pending s))
    (hr : ok = true → P run) : P (withPrecond s ok run) := by
  unfold withPrecond
  split
  · exact hr ‹_›
  · exact hf _

/-! ### Every command, case by case -/

/-- What a command can do, beside recording a fault: it runs on the unit its row names (one case per row of R134). -/
inductive Ran (s : State) : Instr → State → Prop where
  | dlPush {u e l} (he : s.engine = some e) (hu : lineOf e u = some l) :
    Ran s (.dlPush u) (setEngine (setLineOf e u (l.push (argF32 s))) s)
  | dlPopFixed {u k e l} (he : s.engine = some e) (hu : lineOf e u = some l) (hk : l.validOffset k.toNat = true) :
    Ran s (.dlPopFixed u k) (setRes0 (l.popFixed k.toNat) s)
  | dlReadFrac {u e l} (he : s.engine = some e) (hu : lineOf e u = some l) (hd : l.validFraction (argF32 s) = true) :
    Ran s (.dlReadFrac u) (setRes0 (l.readFractional (argF32 s)) s)
  | dlInfo {u e l} (he : s.engine = some e) (hu : lineOf e u = some l) :
    Ran s (.dlInfo u) (setRes1 (u32 l.w) (setRes0 (u32 l.N) s))
  | apProcess {u e a} (he : s.engine = some e) (hu : allpassOf e u = some a) :
    Ran s (.apProcess u) (setRes0 (a.process (argF32 s)).2 (setEngine (setAllpassOf e u (a.process (argF32 s)).1) s))
  | apSetGain {u e a} (he : s.engine = some e) (hu : allpassOf e u = some a) :
    Ran s (.apSetGain u) (setRes0 (clampGain preset (argF32 s))
      (setEngine (setAllpassOf e u { a with g := clampGain preset (argF32 s) }) s))
  | apInfo {u e a} (he : s.engine = some e) (hu : allpassOf e u = some a) :
    Ran s (.apInfo u) (setRes1 a.g (setRes0 (u32 a.M) s))
  | lfoTick {u e l} (he : s.engine = some e) (hu : lfoOf e u = some l) :
    Ran s (.lfoTick u) (setRes1 l.tick.2.q (setRes0 l.tick.2.n (setEngine (setEngineLfo e l.tick.1) s)))
  | lfoReset {u e l} (he : s.engine = some e) (hu : lfoOf e u = some l) :
    Ran s (.lfoReset u) (setEngine (setEngineLfo e l.restart) s)
  | lfoInfo {u e l} (he : s.engine = some e) (hu : lfoOf e u = some l) :
    Ran s (.lfoInfo u) (setRes2 l.depth (setRes1 l.delta (setRes0 l.theta s)))
  | dampProcess {u e d} (he : s.engine = some e) (hu : dampOf e u = some d) :
    Ran s (.dampProcess u) (setRes0 (d.process (argF32 s)).2 (setEngine (setDampOf e u (d.process (argF32 s)).1) s))
  | dampInfo {u e d} (he : s.engine = some e) (hu : dampOf e u = some d) :
    Ran s (.dampInfo u) (setRes3 (flagWord d.hpEn) (setRes2 d.gPSY (setRes1 d.gHP (setRes0 d.gLP s))))
  | nop : Ran s .nop s
  | prepare {k} (hk : prepareOk s = true) : Ran s (.prepare k) (prepared k s)
  | reset {e} (he : s.engine = some e) : Ran s .reset (setEngine (clearEngine e) s)
  | setParams {e} (he : s.engine = some e) :
    Ran s .setParams (setEngine (recomputeEngine preset (appliedParams s) s.prep.fs e) { s with par := appliedParams s })
  | getParam {index p e} (hp : paramIdxOf index.toNat = some p) (he : s.engine = some e) :
    Ran s (.getParam index) (setRes0 (s.par.get p) s)
  | processBlock {k e} (he : s.engine = some e) (hk : k.toNat ≤ s.prep.maxBlockSize) :
    Ran s (.processBlock k) (processed k.toNat e s)
  | engInfo {u e r} (he : s.engine = some e) (hu : reportOf e u = some r) :
    Ran s (.engInfo u) (setRes3 r.fb (setRes2 r.gain (setRes1 r.base (setRes0 r.dcur s))))

/-- What a command leaves: its fault recorded, or its row run. -/
def Answers (s : State) (i : Instr) (t : State) : Prop := (∃ c, t = raiseFault c s.pending s) ∨ Ran s i t

/-- Everything a command can answer: a next state, in which its fault is recorded or its row has run. -/
theorem exec_cases (i : Instr) (s : State) :
    ∃ t, exec i s = .next t ∧ Answers s i t := by
  have fault : ∀ c, Answers s i (raiseFault c s.pending s) := fun c => .inl ⟨c, rfl⟩
  cases i with
  | dlPush u =>
    exact ⟨_, rfl, whenReady_of (P := Answers s _) fault fun e he => withUnit_of (P := Answers s _) fault fun l hl => .inr (.dlPush he hl)⟩
  | dlPopFixed u k =>
    exact ⟨_, rfl, whenReady_of (P := Answers s _) fault fun e he => withUnit_of (P := Answers s _) fault fun l hl =>
      withPrecond_of (P := Answers s _) fault fun hk => .inr (.dlPopFixed he hl hk)⟩
  | dlReadFrac u =>
    exact ⟨_, rfl, whenReady_of (P := Answers s _) fault fun e he => withUnit_of (P := Answers s _) fault fun l hl =>
      withPrecond_of (P := Answers s _) fault fun hd => .inr (.dlReadFrac he hl hd)⟩
  | dlInfo u =>
    exact ⟨_, rfl, whenReady_of (P := Answers s _) fault fun e he => withUnit_of (P := Answers s _) fault fun l hl => .inr (.dlInfo he hl)⟩
  | apProcess u =>
    exact ⟨_, rfl, whenReady_of (P := Answers s _) fault fun e he => withUnit_of (P := Answers s _) fault fun a ha => .inr (.apProcess he ha)⟩
  | apSetGain u =>
    exact ⟨_, rfl, whenReady_of (P := Answers s _) fault fun e he => withUnit_of (P := Answers s _) fault fun a ha => .inr (.apSetGain he ha)⟩
  | apInfo u =>
    exact ⟨_, rfl, whenReady_of (P := Answers s _) fault fun e he => withUnit_of (P := Answers s _) fault fun a ha => .inr (.apInfo he ha)⟩
  | lfoTick u =>
    exact ⟨_, rfl, whenReady_of (P := Answers s _) fault fun e he => withUnit_of (P := Answers s _) fault fun l hl => .inr (.lfoTick he hl)⟩
  | lfoReset u =>
    exact ⟨_, rfl, whenReady_of (P := Answers s _) fault fun e he => withUnit_of (P := Answers s _) fault fun l hl => .inr (.lfoReset he hl)⟩
  | lfoInfo u =>
    exact ⟨_, rfl, whenReady_of (P := Answers s _) fault fun e he => withUnit_of (P := Answers s _) fault fun l hl => .inr (.lfoInfo he hl)⟩
  | dampProcess u =>
    exact ⟨_, rfl, whenReady_of (P := Answers s _) fault fun e he => withUnit_of (P := Answers s _) fault fun d hd => .inr (.dampProcess he hd)⟩
  | dampInfo u =>
    exact ⟨_, rfl, whenReady_of (P := Answers s _) fault fun e he => withUnit_of (P := Answers s _) fault fun d hd => .inr (.dampInfo he hd)⟩
  | nop => exact ⟨_, rfl, .inr .nop⟩
  | prepare k => exact ⟨_, rfl, withPrecond_of (P := Answers s _) fault fun hk => .inr (.prepare hk)⟩
  | reset => exact ⟨_, rfl, whenReady_of (P := Answers s _) fault fun e he => .inr (.reset he)⟩
  | setParams => exact ⟨_, rfl, whenReady_of (P := Answers s _) fault fun e he => .inr (.setParams he)⟩
  | getParam index =>
    refine ⟨_, rfl, ?_⟩
    split
    · exact fault _
    · exact whenReady_of (P := Answers s _) fault fun e he => .inr (.getParam ‹_› he)
  | processBlock k =>
    exact ⟨_, rfl, whenReady_of (P := Answers s _) fault fun e he =>
      withPrecond_of (P := Answers s _) fault fun hk => .inr (.processBlock he (of_decide_eq_true hk))⟩
  | engInfo u =>
    exact ⟨_, rfl, whenReady_of (P := Answers s _) fault fun e he => withUnit_of (P := Answers s _) fault fun r hr => .inr (.engInfo he hr)⟩

/-- A command whose row can run does run: the converse, which completion statements cite. -/
theorem Ran.exec {i : Instr} {s t : State} (h : Ran s i t) : exec i s = .next t := by
  cases h with
  | dlPush he hu => simp only [Machine.exec, execDlPush, done, whenReady_some he, hu, withUnit_some]
  | dlPopFixed he hu hk =>
    simp only [Machine.exec, execDlPopFixed, done, whenReady_some he, hu, withUnit_some, withPrecond_true hk]
  | dlReadFrac he hu hd =>
    simp only [Machine.exec, execDlReadFrac, done, whenReady_some he, hu, withUnit_some, withPrecond_true hd]
  | dlInfo he hu => simp only [Machine.exec, execDlInfo, done, whenReady_some he, hu, withUnit_some]
  | apProcess he hu => simp only [Machine.exec, execApProcess, done, whenReady_some he, hu, withUnit_some]
  | apSetGain he hu => simp only [Machine.exec, execApSetGain, done, whenReady_some he, hu, withUnit_some]
  | apInfo he hu => simp only [Machine.exec, execApInfo, done, whenReady_some he, hu, withUnit_some]
  | lfoTick he hu => simp only [Machine.exec, execLfoTick, done, whenReady_some he, hu, withUnit_some]
  | lfoReset he hu => simp only [Machine.exec, execLfoReset, done, whenReady_some he, hu, withUnit_some]
  | lfoInfo he hu => simp only [Machine.exec, execLfoInfo, done, whenReady_some he, hu, withUnit_some]
  | dampProcess he hu => simp only [Machine.exec, execDampProcess, done, whenReady_some he, hu, withUnit_some]
  | dampInfo he hu => simp only [Machine.exec, execDampInfo, done, whenReady_some he, hu, withUnit_some]
  | nop => rfl
  | prepare hk => simp only [Machine.exec, execPrepare, done, withPrecond_true hk]
  | reset he => simp only [Machine.exec, execReset, done, whenReady_some he]
  | setParams he => simp only [Machine.exec, execSetParams, done, whenReady_some he]
  | getParam hp he => simp only [Machine.exec, execGetParam, done, hp, whenReady_some he]
  | processBlock he hk =>
    simp only [Machine.exec, execProcessBlock, done, whenReady_some he, withPrecond_true (decide_eq_true hk)]
  | engInfo he hu => simp only [Machine.exec, execEngInfo, done, whenReady_some he, hu, withUnit_some]

/-- The same, for a known answer. -/
theorem exec_next_cases {i : Instr} {s t : State} (h : exec i s = .next t) :
    (∃ c, t = raiseFault c s.pending s) ∨ Ran s i t := by
  obtain ⟨t', h', hc⟩ := exec_cases i s
  rw [h] at h'
  cases h'
  exact hc

theorem exec_keepsHost {i : Instr} {s t : State} (h : exec i s = .next t) : KeepsHost s t := by
  rcases exec_next_cases h with ⟨c, rfl⟩ | h
  · exact ⟨rfl, rfl, rfl, rfl, rfl, rfl, rfl, rfl, rfl⟩
  · cases h <;> constructor <;> simp

/-- A command that runs records no fault. -/
theorem Ran.faults {i : Instr} {s t : State} (h : Ran s i t) : KeepsFaults s t := by
  cases h <;> constructor <;> simp

/-! ### The step -/

/-- A step of the core, with what it adds to the command: completion (R112). -/
theorem coreStep_ok {s t : State} {i : Instr} (hd : decode s.pending = .ok i) (h : exec i s = .next t) :
    coreStep s = .next (completeCommand t) := by
  simp only [coreStep, hd, h]

theorem coreStep_error {s : State} {err : DecodeError} (hd : decode s.pending = .error err) :
    coreStep s = .next (completeCommand (raiseFault .illegalCmd s.pending s)) := by
  simp only [coreStep, hd]; rfl

/-- Everything a core step can answer. -/
theorem coreStep_cases (s : State) :
    ∃ t, coreStep s = .next (completeCommand t) ∧
      ((∃ c, t = raiseFault c s.pending s) ∨ ∃ i, decode s.pending = .ok i ∧ Ran s i t) := by
  cases hd : decode s.pending with
  | error err => exact ⟨_, coreStep_error hd, .inl ⟨_, rfl⟩⟩
  | ok i =>
    obtain ⟨t, h, hc⟩ := exec_cases i s
    exact ⟨t, coreStep_ok hd h, hc.imp id fun hr => ⟨i, rfl, hr⟩⟩

theorem coreTurn_busy {s : State} (h : s.busy = true) : coreTurn s = coreStep s := by simp [coreTurn, h]

theorem coreTurn_idle {s : State} (h : s.busy = false) : coreTurn s = .next s := by simp [coreTurn, h]

theorem step_nil {s : State} (h : s.inputs = []) : step s = coreTurn s := by simp only [step, h]

theorem step_cons {s : State} {ev : BusEvent} {rest : List BusEvent} (h : s.inputs = ev :: rest) :
    step s = eventStep ev { s with inputs := rest } := by simp only [step, h]

end Sys2Proof.Machine
end

