-- ==== Sys2Proof/Laws/Float.lean ====
section
/-! SUPPORT. Binary32 arithmetic: NaNs, the order and clamping, encodings that round to themselves, and rounding as a
monotone function (spec/00_scope.md R11). -/

namespace Sys2Proof.Machine.Ieee

/-! ### NaNs -/

theorem val32_nan {a : Word} (h : isNaN a = true) : val32 a = .nan := by
  simp only [isNaN, isNaNEnc, decide_eq_true_eq] at h
  have hi : binary32.infMag = 2139095040 := by decide
  have h2 : (2 : Nat) ^ binary32.fracBits = 8388608 := by decide
  rw [hi] at h
  simp only [val32, valueOf, hi, h2]
  rw [if_neg (by omega), if_neg (by omega), if_neg (by omega)]

theorem val32_ne_nan {a : Word} (h : isNaN a = false) : val32 a ≠ .nan := by
  simp only [isNaN, isNaNEnc, decide_eq_false_iff_not] at h
  have hi : binary32.infMag = 2139095040 := by decide
  rw [hi] at h
  simp only [val32, valueOf, hi]
  intro hv
  split at hv
  · cases hv
  · split at hv
    · cases hv
    · rw [if_pos (by omega)] at hv
      cases hv

theorem enc32_nan : enc32 .nan = 0x7FC00000 := by decide

theorem addVal_nan_right (v : Val) : addVal v .nan = .nan := by cases v <;> rfl

theorem mulVal_nan_right (v : Val) : mulVal v .nan = .nan := by cases v <;> rfl

/-- An operation on a NaN gives the canonical NaN. -/
theorem fadd_nan_left {a : Word} (h : isNaN a = true) (b : Word) : fadd a b = 0x7FC00000 := by
  rw [fadd, val32_nan h]; exact enc32_nan

theorem fadd_nan_right {b : Word} (h : isNaN b = true) (a : Word) : fadd a b = 0x7FC00000 := by
  rw [fadd, val32_nan h, addVal_nan_right]; exact enc32_nan

theorem fmul_nan_left {a : Word} (h : isNaN a = true) (b : Word) : fmul a b = 0x7FC00000 := by
  rw [fmul, val32_nan h]; exact enc32_nan

theorem fmul_nan_right {b : Word} (h : isNaN b = true) (a : Word) : fmul a b = 0x7FC00000 := by
  rw [fmul, val32_nan h, mulVal_nan_right]; exact enc32_nan

theorem isNaN_quiet : isNaN 0x7FC00000 = true := by decide

theorem magOf_fneg (a : Word) : magOf binary32 (fneg a).toNat = magOf binary32 a.toNat := by
  have h : binary32.signBit = 2 ^ 31 := by decide
  simp only [magOf, fneg, h, BitVec.toNat_xor]
  rw [← Nat.and_two_pow_sub_one_eq_mod, ← Nat.and_two_pow_sub_one_eq_mod, Nat.and_xor_distrib_right]
  have : (0x80000000 : BitVec 32).toNat &&& (2 ^ 31 - 1) = 0 := by decide
  rw [this, Nat.xor_zero]

theorem isNaN_fneg (a : Word) : isNaN (fneg a) = isNaN a := by simp only [isNaN, isNaNEnc, magOf_fneg]

theorem fsub_nan_left {a : Word} (h : isNaN a = true) (b : Word) : fsub a b = 0x7FC00000 := fadd_nan_left h _

theorem fsub_nan_right {b : Word} (h : isNaN b = true) (a : Word) : fsub a b = 0x7FC00000 :=
  fadd_nan_right (by rw [isNaN_fneg]; exact h) _

/-! ### The order, and clamping -/

/-- The place of a binary32 word in the order of the reals. -/
def key32 (a : Word) : Int := orderKey binary32 a.toNat

theorem fle_iff {a b : Word} : fle a b = true ↔ isNaN a = false ∧ isNaN b = false ∧ key32 a ≤ key32 b := by
  simp [fle, leEnc, isNaN, key32, and_assoc]

theorem fle_false_iff {a b : Word} (ha : isNaN a = false) (hb : isNaN b = false) :
    fle a b = false ↔ key32 b < key32 a := by
  rw [← Bool.not_eq_true, fle_iff]
  constructor
  · intro h
    exact Int.not_le.mp fun hk => h ⟨ha, hb, hk⟩
  · intro h hk
    exact absurd hk.2.2 (Int.not_le.mpr h)

theorem fle_refl {a : Word} (h : isNaN a = false) : fle a a = true := fle_iff.mpr ⟨h, h, Int.le_refl _⟩

theorem fle_trans {a b c : Word} (h : fle a b = true) (k : fle b c = true) : fle a c = true := by
  rw [fle_iff] at *
  exact ⟨h.1, k.2.1, Int.le_trans h.2.2 k.2.2⟩

theorem fle_of_not_fle {a b : Word} (ha : isNaN a = false) (hb : isNaN b = false) (h : fle a b = false) :
    fle b a = true := fle_iff.mpr ⟨hb, ha, Int.le_of_lt ((fle_false_iff ha hb).mp h)⟩

/-- Clamping into a range gives a value of the range. -/
theorem clamp_range {x lo hi : Word} (hx : isNaN x = false) (h : fle lo hi = true) :
    fle lo (fmin (fmax x lo) hi) = true ∧ fle (fmin (fmax x lo) hi) hi = true := by
  have hlo : isNaN lo = false := (fle_iff.mp h).1
  have hhi : isNaN hi = false := (fle_iff.mp h).2.1
  have hm : fle lo (fmax x lo) = true ∧ isNaN (fmax x lo) = false := by
    unfold fmax
    split
    · exact ⟨‹_›, hx⟩
    · exact ⟨fle_refl hlo, hlo⟩
  unfold fmin
  split
  · exact ⟨hm.1, ‹_›⟩
  · exact ⟨h, fle_refl hhi⟩

/-- Clamping a value of the range leaves it. -/
theorem clamp_self {x lo hi : Word} (h : fle lo x = true) (k : fle x hi = true) : fmin (fmax x lo) hi = x := by
  simp [fmin, fmax, h, k]

/-! ### Encodings that round to themselves -/

theorem log2_le_of_lt {m k : Nat} (h0 : m ≠ 0) (h : m < 2 ^ (k + 1)) : Nat.log2 m ≤ k :=
  Nat.lt_succ_iff.mp ((Nat.log2_lt h0).mpr h)

theorem log2_eq {m k : Nat} (lo : 2 ^ k ≤ m) (hi : m < 2 ^ (k + 1)) : Nat.log2 m = k := by
  have h0 : m ≠ 0 := by have := Nat.two_pow_pos k; omega
  have h1 := log2_le_of_lt h0 hi
  have h2 : k ≤ Nat.log2 m := (Nat.le_log2 h0).mpr lo
  omega

theorem minExp32 : binary32.minExp = -149 := by decide

theorem infMag32 : binary32.infMag = 2139095040 := by decide

theorem frac32 : (binary32.fracBits : Nat) = 23 := rfl

theorem signBit32 : binary32.signBit = 2147483648 := by decide

theorem roundMag_subnormal {m : Nat} (h : m < 8388608) : roundMag binary32 m (-149) = m := by
  by_cases h0 : m = 0
  · subst h0; rfl
  · have hl : Nat.log2 m ≤ 22 := log2_le_of_lt h0 (by omega)
    have hq : lastPlace binary32 m (-149) = -149 := by
      simp only [lastPlace, minExp32, frac32]; omega
    simp only [roundMag, hq, minExp32, infMag32, if_neg h0, Int.sub_self, Int.toNat_zero, Nat.zero_mul, Nat.zero_add,
      Nat.pow_zero, Nat.mul_one, Int.le_refl, if_true]
    omega

theorem roundMag_normal {m : Nat} {k : Nat} (lo : 8388608 ≤ m) (hi : m < 16777216)
    (h : k * 8388608 + m ≤ 2139095040) : roundMag binary32 m (-149 + (k : Int)) = k * 8388608 + m := by
  have hl : Nat.log2 m = 23 := log2_eq lo hi
  have hq : lastPlace binary32 m (-149 + (k : Int)) = -149 + (k : Int) := by
    simp only [lastPlace, minExp32, frac32, hl]; omega
  have hk : ((-149 + (k : Int)) - (-149)).toNat = k := by omega
  simp only [roundMag, hq, minExp32, infMag32, if_neg (show m ≠ 0 by omega), hk, Int.sub_self]
  simp [binary32]
  omega

/-- The parts of a word that is no NaN: its sign, and the magnitude that its value rounds to. -/
theorem encodingOf_val32 {a : Word} (h : isNaN a = false) : encodingOf binary32 (val32 a) = a.toNat := by
  simp only [isNaN, isNaNEnc, decide_eq_false_iff_not, infMag32, magOf, signBit32] at h
  have hb : a.toNat < 2 ^ 32 := a.isLt
  have hs : (if isNeg binary32 a.toNat then binary32.signBit else 0) + a.toNat % 2147483648 = a.toNat := by
    simp only [isNeg, signBit32, decide_eq_true_eq]
    split <;> omega
  simp only [val32, valueOf, magOf, signBit32, infMag32, show (2 : Nat) ^ binary32.fracBits = 8388608 from by decide]
  split
  · simp only [encodingOf, minExp32, roundMag_subnormal ‹_›]; exact hs
  · split
    · simp only [encodingOf, minExp32]
      rw [roundMag_normal (by omega) (by omega) (by omega)]
      have : (a.toNat % 2147483648 / 8388608 - 1) * 8388608 + (8388608 + a.toNat % 2147483648 % 8388608)
          = a.toNat % 2147483648 := by omega
      rw [this]; exact hs
    · rw [if_pos (by omega)]
      simp only [encodingOf, infMag32]
      rw [show (2139095040 : Nat) = a.toNat % 2147483648 by omega]; exact hs

theorem enc32_val32 {a : Word} (h : isNaN a = false) : enc32 (val32 a) = a := by
  rw [enc32, encodingOf_val32 h, BitVec.ofNat_toNat, BitVec.setWidth_eq]

/-! ### Rounding does not depend on how a value is written, and is monotone -/

theorem log2_mul_pow {m : Nat} (h : m ≠ 0) (k : Nat) : Nat.log2 (m * 2 ^ k) = Nat.log2 m + k := by
  have hp := Nat.two_pow_pos k
  apply log2_eq
  · rw [Nat.pow_add]
    exact Nat.mul_le_mul_right _ (Nat.log2_self_le h)
  · rw [show Nat.log2 m + k + 1 = (Nat.log2 m + 1) + k by omega, Nat.pow_add]
    exact Nat.mul_lt_mul_of_pos_right (Nat.lt_log2_self) hp

theorem shiftRightEven_mul (m d k : Nat) : shiftRightEven (m * 2 ^ k) (d + k) = shiftRightEven m d := by
  have hp := Nat.two_pow_pos k
  have hq : m * 2 ^ k / 2 ^ (d + k) = m / 2 ^ d := by rw [Nat.pow_add, Nat.mul_div_mul_right _ _ hp]
  have hr : m * 2 ^ k % 2 ^ (d + k) = m % 2 ^ d * 2 ^ k := by rw [Nat.pow_add, Nat.mul_mod_mul_right]
  have h2 : (2 : Nat) ^ (d + k) = 2 ^ d * 2 ^ k := Nat.pow_add ..
  have hmul : 2 * (m % 2 ^ d * 2 ^ k) = 2 * (m % 2 ^ d) * 2 ^ k := by rw [Nat.mul_assoc]
  rw [h2] at hq hr
  simp only [shiftRightEven, h2, hq, hr, hmul, gt_iff_lt, Nat.mul_lt_mul_right hp, Nat.mul_left_inj (Nat.ne_of_gt hp)]

theorem shiftRightEven_zero (m : Nat) : shiftRightEven m 0 = m := by
  simp [shiftRightEven, Nat.mod_one]

/-- The significand field's contribution, by the shift `q - e`. -/
theorem roundMag_scale (f : Format) (m k : Nat) (e : Int) : roundMag f (m * 2 ^ k) (e - k) = roundMag f m e := by
  have hp := Nat.two_pow_pos k
  by_cases h : m = 0
  · subst h; simp [roundMag]
  · have hm : m * 2 ^ k ≠ 0 := Nat.mul_ne_zero h (by omega)
    have hq : lastPlace f (m * 2 ^ k) (e - k) = lastPlace f m e := by
      simp only [lastPlace, log2_mul_pow h]
      congr 1; omega
    simp only [roundMag, hm, h, if_false, hq]
    generalize lastPlace f m e = q
    have ht : (if q ≤ e - ↑k then m * 2 ^ k * 2 ^ (e - ↑k - q).toNat else shiftRightEven (m * 2 ^ k) (q - (e - ↑k)).toNat) =
        if q ≤ e then m * 2 ^ (e - q).toNat else shiftRightEven m (q - e).toNat := by
      by_cases h1 : q ≤ e - ↑k
      · rw [if_pos h1, if_pos (by omega), Nat.mul_assoc, ← Nat.pow_add]
        congr 2; omega
      · rw [if_neg h1]
        by_cases h2 : q ≤ e
        · rw [if_pos h2]
          have hk : 2 ^ k = 2 ^ (e - q).toNat * 2 ^ (q - (e - ↑k)).toNat := by
            rw [← Nat.pow_add]; congr 1; omega
          rw [hk, ← Nat.mul_assoc]
          have := shiftRightEven_mul (m * 2 ^ (e - q).toNat) 0 (q - (e - ↑k)).toNat
          rw [Nat.zero_add] at this
          rw [this, shiftRightEven_zero]
        · rw [if_neg h2]
          have : (q - (e - ↑k)).toNat = (q - e).toNat + k := by omega
          rw [this, shiftRightEven_mul]
    rw [ht]

theorem shiftRightEven_le (m d : Nat) : shiftRightEven m d ≤ m / 2 ^ d + 1 := by
  simp only [shiftRightEven]; split <;> omega

theorem le_shiftRightEven (m d : Nat) : m / 2 ^ d ≤ shiftRightEven m d := by
  simp only [shiftRightEven]; split <;> omega

theorem shiftRightEven_mono {m n : Nat} (h : m ≤ n) (d : Nat) : shiftRightEven m d ≤ shiftRightEven n d := by
  have hp := Nat.two_pow_pos d
  have hq : m / 2 ^ d ≤ n / 2 ^ d := Nat.div_le_div_right h
  rcases Nat.lt_or_ge (m / 2 ^ d) (n / 2 ^ d) with hlt | hge
  · have h1 := shiftRightEven_le m d
    have h2 := le_shiftRightEven n d
    omega
  · have he : m / 2 ^ d = n / 2 ^ d := by omega
    have h1 := Nat.div_add_mod m (2 ^ d)
    have h2 := Nat.div_add_mod n (2 ^ d)
    simp only [shiftRightEven]
    rw [he] at h1 ⊢
    split
    · rename_i hc
      rw [if_pos (by omega)]
      all_goals omega
    · split <;> omega

theorem log2_mono {m n : Nat} (hm : m ≠ 0) (h : m ≤ n) : Nat.log2 m ≤ Nat.log2 n := by
  have hn : n ≠ 0 := by omega
  exact (Nat.le_log2 hn).mpr (Nat.le_trans (Nat.log2_self_le hm) h)

/-- Rounding is monotone. -/
theorem roundMag_mono (f : Format) {m n : Nat} (h : m ≤ n) (e : Int) : roundMag f m e ≤ roundMag f n e := by
  by_cases hm : m = 0
  · subst hm; simp [roundMag]
  · have hn : n ≠ 0 := by omega
    have hl := log2_mono hm h
    simp only [roundMag, hm, hn, if_false]
    suffices hs : (lastPlace f m e - f.minExp).toNat * 2 ^ f.fracBits +
        (if lastPlace f m e ≤ e then m * 2 ^ (e - lastPlace f m e).toNat
          else shiftRightEven m (lastPlace f m e - e).toNat) ≤
        (lastPlace f n e - f.minExp).toNat * 2 ^ f.fracBits +
        (if lastPlace f n e ≤ e then n * 2 ^ (e - lastPlace f n e).toNat
          else shiftRightEven n (lastPlace f n e - e).toNat) by omega
    generalize hq : lastPlace f m e = q
    generalize hr : lastPlace f n e = r
    have hqr : q ≤ r := by rw [← hq, ← hr]; simp only [lastPlace]; omega
    have hmin : f.minExp ≤ q := by rw [← hq]; simp only [lastPlace]; omega
    rcases (show q < r ∨ q = r by omega) with hlt | hge
    · -- the greater value has a greater last place, so its significand is at least `2^fracBits`
      have hrl : r = (Nat.log2 n : Int) + e - f.fracBits := by rw [← hr] at hlt ⊢; simp only [lastPlace] at *; omega
      have ht : (if q ≤ e then m * 2 ^ (e - q).toNat else shiftRightEven m (q - e).toNat) ≤ 2 ^ (f.fracBits + 1) := by
        have hlq : (Nat.log2 m : Int) + e - f.fracBits ≤ q := by rw [← hq]; simp only [lastPlace]; omega
        have hlt2 := @Nat.lt_log2_self m
        split
        · have h1 : m * 2 ^ (e - q).toNat < 2 ^ (Nat.log2 m + 1) * 2 ^ (e - q).toNat :=
            Nat.mul_lt_mul_of_pos_right hlt2 (Nat.two_pow_pos _)
          rw [← Nat.pow_add] at h1
          exact Nat.le_trans (Nat.le_of_lt h1) (Nat.pow_le_pow_right (by omega) (by omega))
        · refine Nat.le_trans (shiftRightEven_le _ _) ?_
          have : m / 2 ^ (q - e).toNat < 2 ^ (f.fracBits + 1) := by
            rw [Nat.div_lt_iff_lt_mul (Nat.two_pow_pos _), ← Nat.pow_add]
            exact Nat.lt_of_lt_of_le hlt2 (Nat.pow_le_pow_right (by omega) (by omega))
          omega
      have hu : 2 ^ f.fracBits ≤ (if r ≤ e then n * 2 ^ (e - r).toNat else shiftRightEven n (r - e).toNat) := by
        have hself := Nat.log2_self_le hn
        split
        · refine Nat.le_trans ?_ (Nat.mul_le_mul_right _ hself)
          rw [← Nat.pow_add]
          exact Nat.pow_le_pow_right (by omega) (by omega)
        · refine Nat.le_trans ?_ (le_shiftRightEven _ _)
          rw [Nat.le_div_iff_mul_le (Nat.two_pow_pos _), ← Nat.pow_add]
          exact Nat.le_trans (Nat.pow_le_pow_right (by omega) (by omega)) hself
      have hk : (q - f.minExp).toNat + 1 ≤ (r - f.minExp).toNat := by omega
      have hmul := Nat.mul_le_mul_right (2 ^ f.fracBits) hk
      rw [Nat.add_mul, Nat.one_mul] at hmul
      rw [Nat.pow_succ] at ht
      omega
    · subst hge
      refine Nat.add_le_add_left ?_ _
      split
      · exact Nat.mul_le_mul_right _ h
      · exact shiftRightEven_mono h _

end Sys2Proof.Machine.Ieee
end

