-- ==== Sys2Proof/Laws/FloatExact.lean ====
section
/-! SUPPORT. Binary32 arithmetic where it is exact or bounded: naturals below 2^24, negation, sums with a zero, and sums
and differences of finite values in their order (spec/00_scope.md R11). -/

namespace Sys2Proof.Machine.Ieee

/-! ### Naturals below 2^24 -/

theorem toNat_enc32_fin (m : Nat) (e : Int) : (enc32 (.fin false m e)).toNat = roundMag binary32 m e := by
  have h : roundMag binary32 m e ≤ 2139095040 := by
    rw [← infMag32]
    unfold roundMag
    split
    · omega
    · exact Nat.min_le_right _ _
  simp only [enc32, encodingOf, BitVec.toNat_ofNat]
  simp only [Bool.false_eq_true, if_false, Nat.zero_add]
  exact Nat.mod_eq_of_lt (by omega)

theorem roundMag_nat {m : Nat} (h0 : m ≠ 0) (h : m < 2 ^ 24) :
    roundMag binary32 m 0 = (Nat.log2 m + 126) * 8388608 + m * 2 ^ (23 - Nat.log2 m) := by
  have hl : Nat.log2 m ≤ 23 := log2_le_of_lt h0 h
  have hs := roundMag_scale binary32 m (23 - Nat.log2 m) 0
  have lo : 8388608 ≤ m * 2 ^ (23 - Nat.log2 m) := by
    have := Nat.mul_le_mul_right (2 ^ (23 - Nat.log2 m)) (Nat.log2_self_le h0)
    rw [← Nat.pow_add, show Nat.log2 m + (23 - Nat.log2 m) = 23 by omega] at this
    exact this
  have hi : m * 2 ^ (23 - Nat.log2 m) < 16777216 := by
    have := Nat.mul_lt_mul_of_pos_right (@Nat.lt_log2_self m) (Nat.two_pow_pos (23 - Nat.log2 m))
    rw [← Nat.pow_add, show Nat.log2 m + 1 + (23 - Nat.log2 m) = 24 by omega] at this
    exact this
  rw [← hs, show (0 : Int) - ((23 - Nat.log2 m : Nat) : Int) = -149 + ((Nat.log2 m + 126 : Nat) : Int) by omega]
  exact roundMag_normal lo hi (by omega)

theorem valueOf_normal {k t : Nat} (lo : 8388608 ≤ t) (hi : t < 16777216) (hk : k * 8388608 + t < 2139095040) :
    valueOf binary32 (k * 8388608 + t) = .fin false t (-149 + (k : Int)) := by
  have hm : magOf binary32 (k * 8388608 + t) = k * 8388608 + t := by
    simp only [magOf, signBit32]; exact Nat.mod_eq_of_lt (by omega)
  have hn : isNeg binary32 (k * 8388608 + t) = false := by
    simp only [isNeg, signBit32, decide_eq_false_iff_not]; omega
  simp only [valueOf, hm, hn, infMag32, minExp32, show (2 : Nat) ^ binary32.fracBits = 8388608 from by decide]
  rw [if_neg (by omega), if_pos hk]
  have e1 : (k * 8388608 + t) % 8388608 = t - 8388608 := by omega
  have e2 : (k * 8388608 + t) / 8388608 - 1 = k := by omega
  have e3 : 8388608 + (t - 8388608) = t := by omega
  rw [e1, e2, e3]

theorem val32_nat32 {m : Nat} (h0 : m ≠ 0) (h : m < 2 ^ 24) :
    val32 (nat32 m) = .fin false (m * 2 ^ (23 - Nat.log2 m)) ((Nat.log2 m : Int) - 23) := by
  have hl : Nat.log2 m ≤ 23 := log2_le_of_lt h0 h
  have lo : 8388608 ≤ m * 2 ^ (23 - Nat.log2 m) := by
    have := Nat.mul_le_mul_right (2 ^ (23 - Nat.log2 m)) (Nat.log2_self_le h0)
    rw [← Nat.pow_add, show Nat.log2 m + (23 - Nat.log2 m) = 23 by omega] at this
    exact this
  have hi : m * 2 ^ (23 - Nat.log2 m) < 16777216 := by
    have := Nat.mul_lt_mul_of_pos_right (@Nat.lt_log2_self m) (Nat.two_pow_pos (23 - Nat.log2 m))
    rw [← Nat.pow_add, show Nat.log2 m + 1 + (23 - Nat.log2 m) = 24 by omega] at this
    exact this
  rw [val32, nat32, toNat_enc32_fin, roundMag_nat h0 h, valueOf_normal lo hi (by omega),
    show (-149 : Int) + ((Nat.log2 m + 126 : Nat) : Int) = (Nat.log2 m : Int) - 23 by omega]

/-- `f32` of a natural below 2^24 is exact: its floor and its ceiling are the natural itself. -/
theorem floor_nat32 {m : Nat} (h0 : m ≠ 0) (h : m < 2 ^ 24) : floorVal (val32 (nat32 m)) = m := by
  have hl : Nat.log2 m ≤ 23 := log2_le_of_lt h0 h
  rw [val32_nat32 h0 h]
  simp only [floorVal]
  split
  · rw [show 23 - Nat.log2 m = 0 by omega, show ((Nat.log2 m : Int) - 23).toNat = 0 by omega]; omega
  · rw [show (-((Nat.log2 m : Int) - 23)).toNat = 23 - Nat.log2 m by omega]
    exact Nat.mul_div_cancel _ (Nat.two_pow_pos _)

theorem ceil_nat32 {m : Nat} (h0 : m ≠ 0) (h : m < 2 ^ 24) : ceilVal (val32 (nat32 m)) = m := by
  have hl : Nat.log2 m ≤ 23 := log2_le_of_lt h0 h
  rw [val32_nat32 h0 h]
  simp only [ceilVal]
  split
  · rw [show 23 - Nat.log2 m = 0 by omega, show ((Nat.log2 m : Int) - 23).toNat = 0 by omega]; omega
  · rw [show (-((Nat.log2 m : Int) - 23)).toNat = 23 - Nat.log2 m by omega]
    have hp := Nat.two_pow_pos (23 - Nat.log2 m)
    rw [Nat.mul_comm, Nat.mul_add_div hp, Nat.div_eq_of_lt (by omega), Nat.add_zero]

theorem roundMag_nat_lt {m : Nat} (h : m < 2 ^ 24) : roundMag binary32 m 0 < 2139095040 := by
  have h1 := roundMag_mono binary32 (show m ≤ 2 ^ 24 by omega) 0
  have h2 : roundMag binary32 (2 ^ 24) 0 < 2139095040 := by decide
  omega

theorem key32_of_lt {a : Word} (h : a.toNat < 2147483648) : key32 a = (a.toNat : Int) := by
  have hn : isNeg binary32 a.toNat = false := by simp only [isNeg, signBit32, decide_eq_false_iff_not]; omega
  simp only [key32, orderKey, hn, magOf, signBit32]
  rw [if_neg (by decide), Nat.mod_eq_of_lt h]

theorem isNaN_nat32 {m : Nat} (h : m < 2 ^ 24) : isNaN (nat32 m) = false := by
  have hr := roundMag_nat_lt h
  simp only [isNaN, isNaNEnc, infMag32, magOf, signBit32, decide_eq_false_iff_not, nat32, toNat_enc32_fin]
  omega

/-- `f32` keeps the order of the naturals below 2^24. -/
theorem fle_nat32 {m n : Nat} (h : m ≤ n) (hn : n < 2 ^ 24) : fle (nat32 m) (nat32 n) = true := by
  have hm : m < 2 ^ 24 := by omega
  have hrm := roundMag_nat_lt hm
  have hrn := roundMag_nat_lt hn
  have hle := roundMag_mono binary32 h 0
  refine fle_iff.mpr ⟨isNaN_nat32 hm, isNaN_nat32 hn, ?_⟩
  have e1 : (nat32 m).toNat = roundMag binary32 m 0 := toNat_enc32_fin m 0
  have e2 : (nat32 n).toNat = roundMag binary32 n 0 := toNat_enc32_fin n 0
  rw [key32_of_lt (by omega), key32_of_lt (by omega)]
  omega

/-! ### Negation and sums with a zero -/

def negVal : Val → Val
  | .nan => .nan
  | .inf s => .inf (!s)
  | .fin s m e => .fin (!s) m e

theorem isNeg_fneg (a : Word) : isNeg binary32 (fneg a).toNat = !isNeg binary32 a.toNat := by
  have h : ∀ b : Word, isNeg binary32 b.toNat = b.getLsbD 31 := by
    intro b
    have hb : b.toNat < 2 ^ 32 := b.isLt
    simp only [isNeg, signBit32, BitVec.getLsbD, Nat.testBit_eq_decide_div_mod_eq]
  rw [h, h, fneg, BitVec.getLsbD_xor, show (0x80000000 : Word).getLsbD 31 = true from by decide, Bool.xor_true]

theorem val32_fneg (a : Word) : val32 (fneg a) = negVal (val32 a) := by
  simp only [val32, valueOf, magOf_fneg, isNeg_fneg]
  split
  · rfl
  · split
    · rfl
    · split <;> rfl

theorem enc32_zero (s : Bool) (e : Int) : enc32 (.fin s 0 e) = if s then 0x80000000 else 0 := by
  cases s <;> rfl

/-- A finite value minus itself is +0. -/
theorem fsub_self {a : Word} {s : Bool} {m : Nat} {e : Int} (h : val32 a = .fin s m e) : fsub a a = 0 := by
  rw [fsub, fadd, val32_fneg, h]
  have hx : scaled s m e (min e e) + scaled (!s) m e (min e e) = 0 := by
    cases s <;> simp only [scaled, Bool.not_true, Bool.not_false, if_true, Bool.false_eq_true, if_false] <;> omega
  simp only [negVal, addVal, hx, if_true]
  cases s <;> exact enc32_zero false _

theorem finite_val32 {a : Word} (h : magOf binary32 a.toNat < binary32.infMag) :
    ∃ m e, val32 a = .fin (isNeg binary32 a.toNat) m e ∧ -149 ≤ e := by
  simp only [val32, valueOf, minExp32]
  split
  · exact ⟨_, _, rfl, by omega⟩
  · exact ⟨_, _, rfl, by omega⟩

theorem not_finite_val32 {a : Word} (h : ¬ magOf binary32 a.toNat < binary32.infMag) :
    val32 a = .nan ∨ ∃ s, val32 a = .inf s := by
  have h2 : (2 : Nat) ^ binary32.fracBits = 8388608 := by decide
  rw [infMag32] at h
  simp only [val32, valueOf, infMag32, h2]
  rw [if_neg (by omega), if_neg h]
  split
  · exact .inr ⟨_, rfl⟩
  · exact .inl rfl

theorem enc32_add_zero (s t : Bool) {m : Nat} {e : Int} (h0 : m ≠ 0) (he : -149 ≤ e) :
    enc32 (addVal (.fin s m e) (.fin t 0 (-149))) = enc32 (.fin s m e) := by
  have hp := Nat.two_pow_pos (e + 149).toNat
  have hmp : m * 2 ^ (e + 149).toNat ≠ 0 := Nat.mul_ne_zero h0 (by omega)
  have hmin : min e (-149) = -149 := by omega
  have hround := roundMag_scale binary32 m (e + 149).toNat e
  rw [show e - ((e + 149).toNat : Int) = -149 by omega] at hround
  have hee : (e - -149).toNat = (e + 149).toNat := by omega
  have hz : scaled t 0 (-149) (-149) = 0 := by cases t <;> rfl
  simp only [addVal, hmin, hz, Int.add_zero]
  cases s with
  | false =>
    have hx : scaled false m e (-149) = ((m * 2 ^ (e + 149).toNat : Nat) : Int) := by simp only [scaled, hee]; rfl
    rw [hx, if_neg (by omega), show decide (((m * 2 ^ (e + 149).toNat : Nat) : Int) < 0) = false from decide_eq_false (by omega),
      Int.natAbs_natCast]
    simp only [enc32, encodingOf, hround]
  | true =>
    have hx : scaled true m e (-149) = -((m * 2 ^ (e + 149).toNat : Nat) : Int) := by simp only [scaled, hee]; rfl
    rw [hx, if_neg (by omega), show decide (-((m * 2 ^ (e + 149).toNat : Nat) : Int) < 0) = true from decide_eq_true (by omega),
      Int.natAbs_neg, Int.natAbs_natCast]
    simp only [enc32, encodingOf, hround]

/-- A sum with a zero of either sign is the other operand, but for `-0 + +0`. -/
theorem fadd_zero {a : Word} (ha : isNaN a = false) (t : Bool) :
    fadd a (if t then 0x80000000 else 0) = if a = 0x80000000 ∧ t = false then 0 else a := by
  have hz : val32 (if t then 0x80000000 else 0 : Word) = .fin t 0 (-149) := by cases t <;> decide
  rw [fadd, hz]
  have henc := enc32_val32 ha
  by_cases hf : magOf binary32 a.toNat < binary32.infMag
  · obtain ⟨m, e, hv, he⟩ := finite_val32 hf
    by_cases h0 : m = 0
    · subst h0
      have hav : a = if isNeg binary32 a.toNat then 0x80000000 else 0 := by rw [← enc32_zero _ e, ← hv, henc]
      rw [hav]
      cases isNeg binary32 a.toNat <;> cases t <;> decide
    · have hne : a ≠ 0x80000000 := by
        intro hc
        have hv0 : val32 a = .fin true 0 (-149) := by rw [hc]; decide
        rw [hv0] at hv
        injection hv with _ hm _
        exact h0 hm.symm
      rw [if_neg (fun hc => hne hc.1), hv, enc32_add_zero _ _ h0 he, ← hv, henc]
  · rcases not_finite_val32 hf with hv | ⟨s, hv⟩
    · exact absurd hv (val32_ne_nan ha)
    · have hne : a ≠ 0x80000000 := by
        intro hc; rw [hc] at hf; exact hf (by decide)
      rw [if_neg (fun hc => hne hc.1), hv]
      rw [hv] at henc
      exact henc

/-- `+0` times a finite value is a zero of its sign; times anything else it is the canonical NaN. -/
theorem fmul_zero_finite {a : Word} (h : magOf binary32 a.toNat < binary32.infMag) :
    fmul 0 a = if isNeg binary32 a.toNat then 0x80000000 else 0 := by
  obtain ⟨m, e, hv, _⟩ := finite_val32 h
  have hz : val32 (0 : Word) = .fin false 0 (-149) := by decide
  rw [fmul, hv, hz]
  simp only [mulVal, Nat.zero_mul, enc32_zero, Bool.false_bne]

theorem fmul_zero_not_finite {a : Word} (h : ¬ magOf binary32 a.toNat < binary32.infMag) : fmul 0 a = 0x7FC00000 := by
  have hz : val32 (0 : Word) = .fin false 0 (-149) := by decide
  rw [fmul, hz]
  rcases not_finite_val32 h with hv | ⟨s, hv⟩ <;> rw [hv] <;> exact enc32_nan

/-! ### Sums in units of `2^-149`, of which every finite value is a multiple -/

/-- The significand that a magnitude stands for. -/
def sig32 (mag : Nat) : Nat := if mag < 8388608 then mag else 8388608 + mag % 8388608

/-- The exponent, above that of the subnormals, that a magnitude stands for. -/
def exp32 (mag : Nat) : Nat := mag / 8388608 - 1

/-- The value of a magnitude, in units of `2^-149`. -/
def units (mag : Nat) : Nat := sig32 mag * 2 ^ exp32 mag

/-- The value of a finite word, in units of `2^-149`. -/
def units32 (a : Word) : Int :=
  if isNeg binary32 a.toNat then -(units (magOf binary32 a.toNat) : Int) else (units (magOf binary32 a.toNat) : Int)

theorem val32_units {a : Word} (h : magOf binary32 a.toNat < binary32.infMag) :
    val32 a = .fin (isNeg binary32 a.toNat) (sig32 (magOf binary32 a.toNat)) (-149 + (exp32 (magOf binary32 a.toNat) : Int)) := by
  have h2 : (2 : Nat) ^ binary32.fracBits = 8388608 := by decide
  simp only [val32, valueOf, minExp32, h2, sig32, exp32]
  by_cases h0 : magOf binary32 a.toNat < 8388608
  · rw [if_pos h0, if_pos h0, Nat.div_eq_of_lt h0]; rfl
  · rw [if_neg h0, if_neg h0, if_pos h]

theorem roundMag_units {mag : Nat} (h : mag < 2139095040) : roundMag binary32 (units mag) (-149) = mag := by
  have hs := roundMag_scale binary32 (sig32 mag) (exp32 mag) (-149 + (exp32 mag : Int))
  rw [show (-149 : Int) + (exp32 mag : Int) - (exp32 mag : Int) = -149 by omega] at hs
  rw [units, hs]
  by_cases h0 : mag < 8388608
  · simp only [sig32, exp32, if_pos h0, Nat.div_eq_of_lt h0]
    exact roundMag_subnormal h0
  · simp only [sig32, exp32, if_neg h0]
    rw [roundMag_normal (by omega) (by omega) (by omega)]
    omega

theorem units_mono {m n : Nat} (h : m ≤ n) (hn : n < 2139095040) : units m ≤ units n := by
  rcases Nat.lt_or_ge (units n) (units m) with hlt | hge
  · have hr := roundMag_mono binary32 (Nat.le_of_lt hlt) (-149)
    rw [roundMag_units hn, roundMag_units (by omega)] at hr
    rw [show m = n by omega] at hlt
    exact absurd hlt (Nat.lt_irrefl _)
  · exact hge

theorem scaled_units (a : Word) (c : Nat) (hc : c ≤ exp32 (magOf binary32 a.toNat)) :
    scaled (isNeg binary32 a.toNat) (sig32 (magOf binary32 a.toNat)) (-149 + (exp32 (magOf binary32 a.toNat) : Int))
      (-149 + (c : Int)) * ((2 ^ c : Nat) : Int) = units32 a := by
  have hx : (-149 + (exp32 (magOf binary32 a.toNat) : Int) - (-149 + (c : Int))).toNat = exp32 (magOf binary32 a.toNat) - c := by
    omega
  have hp : sig32 (magOf binary32 a.toNat) * 2 ^ (exp32 (magOf binary32 a.toNat) - c) * 2 ^ c = units (magOf binary32 a.toNat) := by
    rw [units, Nat.mul_assoc, ← Nat.pow_add, Nat.sub_add_cancel hc]
  simp only [scaled, units32, hx]
  split
  · rw [Int.neg_mul, ← Int.natCast_mul, hp]
  · rw [← Int.natCast_mul, hp]

theorem key32_nonneg_iff {a : Word} : 0 ≤ key32 a ↔ isNeg binary32 a.toNat = false ∨ magOf binary32 a.toNat = 0 := by
  unfold key32 orderKey
  cases isNeg binary32 a.toNat <;> simp <;> omega

/-- The sum of two finite values whose exact sum is not negative: that sum, rounded. -/
theorem key32_fadd {a b : Word} (ha : magOf binary32 a.toNat < binary32.infMag) (hb : magOf binary32 b.toNat < binary32.infMag)
    (h : 0 ≤ units32 a + units32 b) :
    key32 (fadd a b) = (roundMag binary32 (units32 a + units32 b).toNat (-149) : Int) := by
  rw [fadd, val32_units ha, val32_units hb]
  have key_enc : ∀ (s : Bool) (m : Nat) (e : Int), (s = true → m = 0) →
      key32 (enc32 (.fin s m e)) = (roundMag binary32 m e : Int) := by
    intro s m e hs
    cases s with
    | false =>
      have hlt : roundMag binary32 m e ≤ 2139095040 := by
        rw [← infMag32]; unfold roundMag; split
        · omega
        · exact Nat.min_le_right _ _
      rw [key32_of_lt (by rw [toNat_enc32_fin]; omega), toNat_enc32_fin]
    | true => rw [hs rfl, enc32_zero]; simp only [roundMag, if_true]; decide
  generalize hc : min (exp32 (magOf binary32 a.toNat)) (exp32 (magOf binary32 b.toNat)) = c
  have hca : c ≤ exp32 (magOf binary32 a.toNat) := by omega
  have hcb : c ≤ exp32 (magOf binary32 b.toNat) := by omega
  have hmin : min (-149 + (exp32 (magOf binary32 a.toNat) : Int)) (-149 + (exp32 (magOf binary32 b.toNat) : Int)) =
      -149 + (c : Int) := by omega
  have hua := scaled_units a c hca
  have hub := scaled_units b c hcb
  simp only [addVal, hmin]
  rw [← hua, ← hub, ← Int.add_mul] at h ⊢
  generalize scaled (isNeg binary32 a.toNat) (sig32 (magOf binary32 a.toNat))
      (-149 + (exp32 (magOf binary32 a.toNat) : Int)) (-149 + (c : Int)) +
    scaled (isNeg binary32 b.toNat) (sig32 (magOf binary32 b.toNat))
      (-149 + (exp32 (magOf binary32 b.toNat) : Int)) (-149 + (c : Int)) = x at h ⊢
  have hp : (0 : Int) < ((2 ^ c : Nat) : Int) := Int.natCast_pos.mpr (Nat.two_pow_pos c)
  have hx : 0 ≤ x := Int.le_of_not_gt fun hn => absurd (Int.mul_neg_of_neg_of_pos hn hp) (Int.not_lt.mpr h)
  obtain ⟨n, rfl⟩ := Int.eq_ofNat_of_zero_le hx
  have hs := roundMag_scale binary32 n c (-149 + (c : Int))
  rw [show (-149 : Int) + (c : Int) - (c : Int) = -149 by omega] at hs
  rw [← Int.natCast_mul, Int.toNat_natCast, hs]
  split
  · rename_i h0
    have hn0 : n = 0 := by omega
    subst hn0
    rw [key_enc _ _ _ fun _ => rfl]
  · rw [key_enc _ _ _ fun hd => absurd (of_decide_eq_true hd) (by omega), Int.natAbs_natCast]

/-- A sum of finite values whose exact sum is not negative is no NaN. -/
theorem isNaN_fadd_finite {a b : Word} (ha : magOf binary32 a.toNat < binary32.infMag)
    (hb : magOf binary32 b.toNat < binary32.infMag) : isNaN (fadd a b) = false := by
  have henc : ∀ (s : Bool) (m : Nat) (e : Int), isNaN (enc32 (.fin s m e)) = false := by
    intro s m e
    have hlt : roundMag binary32 m e ≤ 2139095040 := by
      rw [← infMag32]; unfold roundMag; split
      · omega
      · exact Nat.min_le_right _ _
    simp only [isNaN, isNaNEnc, magOf, signBit32, infMag32, enc32, encodingOf, BitVec.toNat_ofNat, decide_eq_false_iff_not]
    cases s <;> simp only [if_true, Bool.false_eq_true, if_false] <;> omega
  rw [fadd, val32_units ha, val32_units hb]
  simp only [addVal]
  split <;> exact henc _ _ _

theorem units32_fneg (a : Word) : units32 (fneg a) = -units32 a := by
  simp only [units32, magOf_fneg, isNeg_fneg]
  cases isNeg binary32 a.toNat <;> simp

theorem units32_nonneg {a : Word} (h : 0 ≤ key32 a) : units32 a = (units (magOf binary32 a.toNat) : Int) := by
  rcases key32_nonneg_iff.mp h with hn | h0
  · simp only [units32, hn, Bool.false_eq_true, if_false]
  · unfold units32; rw [h0]; split <;> rfl

theorem key32_magOf {a : Word} (h : 0 ≤ key32 a) : key32 a = (magOf binary32 a.toNat : Int) := by
  rcases key32_nonneg_iff.mp h with hn | h0
  · simp only [key32, orderKey, hn, Bool.false_eq_true, if_false]
  · unfold key32 orderKey; rw [h0]; split <;> rfl

/-- The order of finite values that are not negative is the order of their values. -/
theorem units32_le {a b : Word} (ha : 0 ≤ key32 a) (h : key32 a ≤ key32 b) (hb : magOf binary32 b.toNat < binary32.infMag) :
    units32 a ≤ units32 b := by
  have hb0 : 0 ≤ key32 b := Int.le_trans ha h
  rw [units32_nonneg ha, units32_nonneg hb0]
  rw [key32_magOf ha, key32_magOf hb0] at h
  rw [infMag32] at hb
  exact Int.ofNat_le.mpr (units_mono (Int.ofNat_le.mp h) hb)

end Sys2Proof.Machine.Ieee
end

