-- ==== Sys2Proof/Laws/LfoRange.lean ====
section
/-! SUPPORT. Binary64 products and quotients of normal values as monotone functions, and from them the range of the
oscillator's increment over every modulation rate and sample rate (spec/42_lfo.md R212). -/

namespace Sys2Proof.Machine

open Ieee

namespace Ieee

theorem frac64 : (2 : Nat) ^ binary64.fracBits = 4503599627370496 := by decide

theorem infMag64 : binary64.infMag = 9218868437227405312 := by decide

theorem signBit64 : binary64.signBit = 9223372036854775808 := by decide

theorem minExp64 : binary64.minExp = -1074 := by decide

/-- The significand of a normal binary64 magnitude. -/
def sig64 (mag : Nat) : Nat := 4503599627370496 + mag % 4503599627370496

/-- Its exponent, above that of the subnormals. -/
def ex64 (mag : Nat) : Nat := mag / 4503599627370496 - 1

/-- Its value, in units of `2^-1074`. -/
def units64 (mag : Nat) : Nat := sig64 mag * 2 ^ ex64 mag

/-- A normal, positive binary64 magnitude. -/
def Normal64 (mag : Nat) : Prop := 4503599627370496 ≤ mag ∧ mag < 9218868437227405312

theorem val64_normal {a : DWord} (h : Normal64 a.toNat) :
    val64 a = .fin false (sig64 a.toNat) (-1074 + (ex64 a.toNat : Int)) := by
  obtain ⟨h1, h2⟩ := h
  have hm : magOf binary64 a.toNat = a.toNat := by simp only [magOf, signBit64]; exact Nat.mod_eq_of_lt (by omega)
  have hn : isNeg binary64 a.toNat = false := by simp only [isNeg, signBit64, decide_eq_false_iff_not]; omega
  simp only [val64, valueOf, hm, hn, frac64, infMag64, minExp64]
  rw [if_neg (by omega), if_pos h2]
  rfl

theorem roundMag_le_inf (f : Format) (m : Nat) (e : Int) : roundMag f m e ≤ f.infMag := by
  unfold roundMag
  split
  · exact Nat.zero_le _
  · exact Nat.min_le_right _ _

theorem toNat_enc64_fin (m : Nat) (e : Int) : (enc64 (.fin false m e)).toNat = roundMag binary64 m e := by
  have h := roundMag_le_inf binary64 m e
  rw [infMag64] at h
  simp only [enc64, encodingOf, BitVec.toNat_ofNat, Bool.false_eq_true, if_false, Nat.zero_add]
  exact Nat.mod_eq_of_lt (by omega)

/-- Rounding a normal binary64 value, times a natural, in any format. -/
theorem roundMag_units64 (f : Format) (c mag : Nat) (e : Int) :
    roundMag f (c * sig64 mag) (e + (ex64 mag : Int)) = roundMag f (c * units64 mag) e := by
  have := roundMag_scale f (c * sig64 mag) (ex64 mag) (e + (ex64 mag : Int))
  rw [show e + (ex64 mag : Int) - (ex64 mag : Int) = e by omega, Nat.mul_assoc] at this
  exact this.symm

theorem sig64_bounds (mag : Nat) : 4503599627370496 ≤ sig64 mag ∧ sig64 mag < 9007199254740992 := by
  unfold sig64; omega

theorem units64_mono {m n : Nat} (hm : 4503599627370496 ≤ m) (h : m ≤ n) : units64 m ≤ units64 n := by
  rcases (show ex64 m = ex64 n ∨ ex64 m + 1 ≤ ex64 n by unfold ex64; omega) with he | he
  · rw [units64, units64, he]
    refine Nat.mul_le_mul_right _ ?_
    unfold ex64 at he; unfold sig64; omega
  · calc units64 m ≤ 9007199254740992 * 2 ^ ex64 m := Nat.mul_le_mul_right _ (Nat.le_of_lt (sig64_bounds m).2)
      _ = 4503599627370496 * 2 ^ (ex64 m + 1) := by rw [Nat.pow_succ, Nat.mul_comm _ 2, ← Nat.mul_assoc]
      _ ≤ 4503599627370496 * 2 ^ ex64 n := Nat.mul_le_mul_left _ (Nat.pow_le_pow_right (by omega) he)
      _ ≤ units64 n := Nat.mul_le_mul_right _ (sig64_bounds n).1

/-- The significand a quotient is rounded from, for a divisor of 53 bits. -/
def quot64 (m n : Nat) : Nat := 2 * (m * 2 ^ 108 / n) + if m * 2 ^ 108 % n = 0 then 0 else 1

theorem ddiv_normal {a b : DWord} (ha : Normal64 a.toNat) (hb : Normal64 b.toNat) :
    (ddiv a b).toNat = roundMag binary64 (quot64 (sig64 a.toNat) (sig64 b.toNat))
      ((ex64 a.toNat : Int) - (ex64 b.toNat : Int) - 109) := by
  have hs := sig64_bounds b.toNat
  have hl : Nat.log2 (sig64 b.toNat) = 52 := log2_eq (k := 52) hs.1 hs.2
  rw [ddiv, val64_normal ha, val64_normal hb]
  simp only [divVal]
  rw [if_neg (by omega)]
  simp only [quotient, hl, show binary64.fracBits + 4 + 52 = 108 from rfl, bne_self_eq_false]
  rw [toNat_enc64_fin]
  congr 1
  omega

/-- Floor plus ceiling grows with the dividend and falls with the divisor. -/
theorem floorCeil_mono {x y n n' : Nat} (hx : x ≤ y) (hn : n' ≤ n) (h0 : 0 < n') :
    (2 * (x / n) + if x % n = 0 then 0 else 1) ≤ 2 * (y / n') + if y % n' = 0 then 0 else 1 := by
  have h1 : x / n ≤ y / n := Nat.div_le_div_right hx
  have h2 : y / n ≤ y / n' := Nat.div_le_div_left hn h0
  have e1 := Nat.div_add_mod x n
  have e2 := Nat.div_add_mod y n'
  rcases (show x / n < y / n' ∨ x / n = y / n' by omega) with h | h
  · split <;> split <;> omega
  · have h3 : n' * (y / n') ≤ n * (y / n') := Nat.mul_le_mul_right _ hn
    rw [h] at e1
    split <;> split <;> omega

theorem quot64_mono {m m' n n' : Nat} (hm : m ≤ m') (hn : n' ≤ n) (h0 : 0 < n') : quot64 m n ≤ quot64 m' n' :=
  floorCeil_mono (Nat.mul_le_mul_right _ hm) hn h0

theorem quot64_bounds {m n : Nat} (hm : 4503599627370496 ≤ m ∧ m < 9007199254740992)
    (hn : 4503599627370496 ≤ n ∧ n < 9007199254740992) : 2 ^ 108 ≤ quot64 m n ∧ quot64 m n ≤ 2 ^ 110 := by
  have h1 := quot64_mono (n := 9007199254740992) hm.1 (Nat.le_of_lt hn.2) (by omega)
  have h2 := quot64_mono (Nat.le_of_lt hm.2) hn.1 (by omega)
  have e1 : quot64 4503599627370496 9007199254740992 = 2 ^ 108 := by decide
  have e2 : quot64 9007199254740992 4503599627370496 = 2 ^ 110 := by decide
  omega

/-- The bounds of an encoding, from an order comparison with positive ones. -/
theorem dle_range {x lo hi : DWord} (h : dle lo x = true) (k : dle x hi = true) (hlo : 0 < lo.toNat)
    (h1 : lo.toNat < 9223372036854775808) (h2 : hi.toNat < 9223372036854775808) :
    lo.toNat ≤ x.toNat ∧ x.toNat ≤ hi.toNat := by
  have hx := x.isLt
  simp only [dle, leEnc, Bool.and_eq_true, decide_eq_true_eq, orderKey, isNeg, magOf, signBit64] at h k
  have e1 : ¬ (lo.toNat / 9223372036854775808 % 2 = 1) := by omega
  have e2 : ¬ (hi.toNat / 9223372036854775808 % 2 = 1) := by omega
  have h3 := h.2
  have k3 := k.2
  rw [if_neg e1] at h3
  rw [if_neg e2] at k3
  split at h3 <;> omega

theorem fle_range {x lo hi : Word} (h : fle lo x = true) (k : fle x hi = true) (hlo : 0 < lo.toNat)
    (h1 : lo.toNat < 2147483648) (h2 : hi.toNat < 2147483648) : lo.toNat ≤ x.toNat ∧ x.toNat ≤ hi.toNat := by
  have hx := x.isLt
  have h3 := (fle_iff.mp h).2.2
  have k3 := (fle_iff.mp k).2.2
  simp only [key32, orderKey, isNeg, magOf, signBit32] at h3 k3
  have e1 : ¬ (lo.toNat / 2147483648 % 2 = 1) := by omega
  have e2 : ¬ (hi.toNat / 2147483648 % 2 = 1) := by omega
  simp only [decide_eq_true_eq] at h3 k3
  rw [if_neg e1] at h3
  rw [if_neg e2] at k3
  split at h3 <;> omega

end Ieee

/-- The product 2π·rate, for a rate in its range. -/
theorem phaseRate_range {rate : Word} (h1 : 0x3D4CCCCD ≤ rate.toNat) (h2 : rate.toNat ≤ 0x40A00000) :
    (dmul twoPi64 (toF64 0x3D4CCCCD)).toNat ≤ (dmul twoPi64 (toF64 rate)).toNat ∧
    (dmul twoPi64 (toF64 rate)).toNat ≤ (dmul twoPi64 (toF64 0x40A00000)).toNat := by
  have hconv : ∀ r : Word, 0x3D4CCCCD ≤ r.toNat → r.toNat ≤ 0x40A00000 →
      (toF64 r).toNat = roundMag binary64 (units r.toNat) (-149) := by
    intro r a b
    have hm : magOf binary32 r.toNat = r.toNat := by simp only [magOf, signBit32]; exact Nat.mod_eq_of_lt (by omega)
    have hn : isNeg binary32 r.toNat = false := by simp only [isNeg, signBit32, decide_eq_false_iff_not]; omega
    have hs := roundMag_scale binary64 (sig32 r.toNat) (exp32 r.toNat) (-149 + (exp32 r.toNat : Int))
    rw [show (-149 : Int) + (exp32 r.toNat : Int) - (exp32 r.toNat : Int) = -149 by omega] at hs
    rw [toF64, val32_units (by rw [hm, infMag32]; omega), hm, hn, toNat_enc64_fin, units, hs]
  have hmono : ∀ r r' : Word, 0x3D4CCCCD ≤ r.toNat → r.toNat ≤ r'.toNat → r'.toNat ≤ 0x40A00000 →
      (toF64 r).toNat ≤ (toF64 r').toNat := by
    intro r r' a b c
    rw [hconv r a (by omega), hconv r' (by omega) c]
    exact roundMag_mono _ (units_mono b (by omega)) _
  have lo := hmono 0x3D4CCCCD rate (by decide) h1 h2
  have hi := hmono rate 0x40A00000 h1 h2 (by decide)
  rw [show (toF64 0x3D4CCCCD).toNat = 0x3FA99999A0000000 by decide] at lo
  rw [show (toF64 0x40A00000).toNat = 0x4014000000000000 by decide] at hi
  have hmul : ∀ r : DWord, Normal64 r.toNat →
      (dmul twoPi64 r).toNat = roundMag binary64 (sig64 twoPi64.toNat * units64 r.toNat) (-1074 + (ex64 twoPi64.toNat : Int) - 1074) := by
    intro r hr
    rw [dmul, val64_normal (by unfold Normal64; decide), val64_normal hr]
    simp only [mulVal, bne_self_eq_false]
    rw [toNat_enc64_fin, ← roundMag_units64]
    congr 1
    omega
  rw [hmul _ (by unfold Normal64; decide), hmul (toF64 rate) (by unfold Normal64; omega), hmul (toF64 0x40A00000) (by unfold Normal64; decide)]
  rw [show (toF64 0x3D4CCCCD).toNat = 0x3FA99999A0000000 by decide, show (toF64 0x40A00000).toNat = 0x4014000000000000 by decide]
  exact ⟨roundMag_mono _ (Nat.mul_le_mul_left _ (units64_mono (by omega) lo)) _,
    roundMag_mono _ (Nat.mul_le_mul_left _ (units64_mono (by omega) hi)) _⟩

/-- A quotient of ranges. -/
theorem phaseStep_range {p fs : DWord} (p1 : (dmul twoPi64 (toF64 0x3D4CCCCD)).toNat ≤ p.toNat)
    (p2 : p.toNat ≤ (dmul twoPi64 (toF64 0x40A00000)).toNat) (f1 : fsMin.toNat ≤ fs.toNat) (f2 : fs.toNat ≤ fsMax.toNat) :
    0x3EA0000000000000 ≤ (ddiv p fs).toNat ∧ (ddiv p fs).toNat ≤ (ddiv (dmul twoPi64 (toF64 0x40A00000)) fsMin).toNat := by
  rw [show (dmul twoPi64 (toF64 0x3D4CCCCD)).toNat = 4599331010203860158 by decide] at p1
  have hPB : (dmul twoPi64 (toF64 0x40A00000)).toNat = 4629536014872164446 := by decide
  have hmin : fsMin.toNat = 4665518107723300864 := by decide
  rw [hmin] at f1
  rw [show fsMax.toNat = 4685837082604601344 by decide] at f2
  rw [ddiv_normal (a := dmul twoPi64 (toF64 0x40A00000)) (b := fsMin) (by rw [hPB]; unfold Normal64; omega)
      (by rw [hmin]; unfold Normal64; omega), hPB, hmin]
  rw [hPB] at p2
  rw [ddiv_normal (by unfold Normal64; omega) (by unfold Normal64; omega)]
  generalize p.toNat = a at *
  generalize fs.toNat = b at *
  have hq := quot64_bounds (sig64_bounds a) (sig64_bounds b)
  have ha : ex64 4599331010203860158 ≤ ex64 a ∧ ex64 a ≤ ex64 4629536014872164446 := by unfold ex64; omega
  have hb : ex64 4665518107723300864 ≤ ex64 b ∧ ex64 b ≤ ex64 4685837082604601344 := by unfold ex64; omega
  constructor
  · obtain ⟨j, hj⟩ : ∃ j : Nat, (ex64 a : Int) - (ex64 b : Int) - 109 =
      (ex64 4599331010203860158 : Int) - (ex64 4685837082604601344 : Int) - 109 + (j : Int) :=
      ⟨(ex64 a - ex64 4599331010203860158) + (ex64 4685837082604601344 - ex64 b), by omega⟩
    have hs := roundMag_scale binary64 (quot64 (sig64 a) (sig64 b)) j
      ((ex64 4599331010203860158 : Int) - (ex64 4685837082604601344 : Int) - 109 + (j : Int))
    rw [hj, ← hs, Int.add_sub_cancel]
    have hle : 2 ^ 108 ≤ quot64 (sig64 a) (sig64 b) * 2 ^ j :=
      Nat.le_trans hq.1 (Nat.le_mul_of_pos_right _ (Nat.two_pow_pos _))
    refine Nat.le_trans ?_ (roundMag_mono binary64 hle _)
    decide
  · obtain ⟨j, hj⟩ : ∃ j : Nat, (ex64 4629536014872164446 - ex64 a) + (ex64 b - ex64 4665518107723300864) = j := ⟨_, rfl⟩
    have hs := roundMag_scale binary64 (quot64 (sig64 4629536014872164446) (sig64 4665518107723300864)) j
      ((ex64 4629536014872164446 : Int) - (ex64 4665518107723300864 : Int) - 109)
    rw [show (ex64 4629536014872164446 : Int) - (ex64 4665518107723300864 : Int) - 109 - (j : Int) =
      (ex64 a : Int) - (ex64 b : Int) - 109 by omega] at hs
    rw [← hs]
    refine roundMag_mono binary64 ?_ _
    rcases (show j = 0 ∨ 1 ≤ j by omega) with h0 | h1
    · subst h0
      rw [Nat.pow_zero, Nat.mul_one]
      refine quot64_mono ?_ ?_ (by decide)
      · unfold ex64 at hj ha; unfold sig64; omega
      · unfold ex64 at hj hb; unfold sig64; omega
    · have h2 : 2 ^ 1 ≤ 2 ^ j := Nat.pow_le_pow_right (by omega) h1
      have h3 := Nat.mul_le_mul_left (quot64 (sig64 4629536014872164446) (sig64 4665518107723300864)) h2
      refine Nat.le_trans (Nat.le_trans hq.2 ?_) h3
      decide

/-- The increment is in its range (R212). -/
theorem lfoDelta_range {rate : Word} {fs : DWord} (h1 : fle 0x3D4CCCCD rate = true) (h2 : fle rate 0x40A00000 = true)
    (h3 : dle fsMin fs = true) (h4 : dle fs fsMax = true) :
    0 < (lfoDelta rate fs).toNat ∧ (lfoDelta rate fs).toNat ≤ 0x3B80ADFD := by
  obtain ⟨r1, r2⟩ := fle_range h1 h2 (by decide) (by decide) (by decide)
  obtain ⟨f1, f2⟩ := dle_range h3 h4 (by decide) (by decide) (by decide)
  obtain ⟨p1, p2⟩ := phaseRate_range r1 r2
  obtain ⟨q1, q2⟩ := phaseStep_range p1 p2 f1 f2
  have hB : (ddiv (dmul twoPi64 (toF64 0x40A00000)) fsMin).toNat = 4571177534314981146 := by decide
  rw [hB] at q2
  unfold lfoDelta
  generalize ddiv (dmul twoPi64 (toF64 rate)) fs = q at *
  have hconv : (toF32 q).toNat = roundMag binary32 (1 * units64 q.toNat) (-1074) := by
    rw [toF32, val64_normal (by unfold Normal64; omega), toNat_enc32_fin, ← roundMag_units64, Nat.one_mul]
  rw [hconv]
  constructor
  · refine Nat.lt_of_lt_of_le ?_ (roundMag_mono _ (Nat.mul_le_mul_left _ (units64_mono (by omega) q1)) _)
    rw [← roundMag_units64]; decide
  · refine Nat.le_trans (roundMag_mono _ (Nat.mul_le_mul_left _ (units64_mono (by omega) q2)) _) ?_
    rw [← roundMag_units64]; decide

end Sys2Proof.Machine
end

