-- ==== Sys2Proof/Laws/PerInstr.lean ====
section
/-! SUPPORT. Per instruction: the fields of its command word are its own (spec/30_encoding.md R131, R134). -/

namespace Sys2Proof.Laws.EncodeFields

/-- The command word of `i` has `i`'s opcode, unit field and immediate field. -/
def Statement (i : Instr) : Prop :=
  opcOf (encode i) = i.opc ∧ unitOf (encode i) = i.unitField ∧ immOf (encode i) = i.immField

/-- The fields of every command's word. -/
theorem fields (i : Instr) : Statement i := ⟨opcOf_encode i, unitOf_encode i, immOf_encode i⟩

theorem dlPush (u : UnitId) : Statement (.dlPush u) := fields _

theorem dlPopFixed (u : UnitId) (k : BitVec 16) : Statement (.dlPopFixed u k) := fields _

theorem dlReadFrac (u : UnitId) : Statement (.dlReadFrac u) := fields _

theorem dlInfo (u : UnitId) : Statement (.dlInfo u) := fields _

theorem apProcess (u : UnitId) : Statement (.apProcess u) := fields _

theorem apSetGain (u : UnitId) : Statement (.apSetGain u) := fields _

theorem apInfo (u : UnitId) : Statement (.apInfo u) := fields _

theorem lfoTick (u : UnitId) : Statement (.lfoTick u) := fields _

theorem lfoReset (u : UnitId) : Statement (.lfoReset u) := fields _

theorem lfoInfo (u : UnitId) : Statement (.lfoInfo u) := fields _

theorem dampProcess (u : UnitId) : Statement (.dampProcess u) := fields _

theorem dampInfo (u : UnitId) : Statement (.dampInfo u) := fields _

theorem nop : Statement (.nop) := fields _

theorem prepare (engine : EngineKind) : Statement (.prepare engine) := fields _

theorem reset : Statement (.reset) := fields _

theorem setParams : Statement (.setParams) := fields _

theorem getParam (index : BitVec 16) : Statement (.getParam index) := fields _

theorem processBlock (numSamples : BitVec 16) : Statement (.processBlock numSamples) := fields _

theorem engInfo (u : UnitId) : Statement (.engInfo u) := fields _

end Sys2Proof.Laws.EncodeFields
end

