-- ==== Sys2Proof/Laws/Registers.lean ====
section
/-! SUPPORT. The words of the status and fault registers field by field (spec/10_state.md R33, R34), what recording a fault
does (spec/60_exceptions.md R352), and which addresses name what (spec/10_state.md R30, spec/20_memory.md R106). -/

namespace Sys2Proof.Machine

/-! ### `STATUS` and `FAULT` -/

@[simp] theorem statusWord_ready (s : State) : (statusWord s).getLsbD 0 = readyFlag s := by
  simp only [statusWord, BitVec.getLsbD_append, BitVec.getLsbD_ofBool]; simp

@[simp] theorem statusWord_engine (s : State) : (statusWord s).getLsbD 1 = engineFlag s := by
  simp only [statusWord, BitVec.getLsbD_append, BitVec.getLsbD_ofBool]; simp

@[simp] theorem statusWord_busy (s : State) : (statusWord s).getLsbD 2 = s.busy := by
  simp only [statusWord, BitVec.getLsbD_append, BitVec.getLsbD_ofBool]; simp

@[simp] theorem statusWord_faultAny (s : State) : (statusWord s).getLsbD 3 = faultAnyFlag s := by
  simp only [statusWord, BitVec.getLsbD_append, BitVec.getLsbD_ofBool]; simp

@[simp] theorem statusWord_reserved (s : State) : (statusWord s).extractLsb' 4 4 = 0 := by
  ext i hi
  simp only [statusWord, BitVec.getElem_extractLsb', BitVec.getLsbD_append, BitVec.getLsbD_ofBool]
  simp
  omega

@[simp] theorem statusWord_channels (s : State) : (statusWord s).extractLsb' 8 8 = channelsField s := by
  ext i hi
  simp only [statusWord, BitVec.getElem_extractLsb', BitVec.getLsbD_append, BitVec.getLsbD_ofBool]
  simp [hi]

@[simp] theorem statusWord_blockSize (s : State) : (statusWord s).extractLsb' 16 16 = blockSizeField s := by
  ext i hi
  simp only [statusWord, BitVec.getElem_extractLsb', BitVec.getLsbD_append, BitVec.getLsbD_ofBool]
  simp [show ¬ 12 + i < 4 by omega, show ¬ 12 + i - 4 < 8 by omega, show 12 + i - 4 - 8 = i by omega, hi]

@[simp] theorem faultWord_bits (s : State) : (faultWord s).extractLsb' 0 6 = s.faultBits := by
  ext i hi
  simp only [faultWord, BitVec.getElem_extractLsb', BitVec.getLsbD_append]
  simp [hi]

@[simp] theorem faultWord_reserved (s : State) : (faultWord s).extractLsb' 6 2 = 0 := by
  ext i hi
  simp only [faultWord, BitVec.getElem_extractLsb', BitVec.getLsbD_append]
  simp [hi]

@[simp] theorem faultWord_first (s : State) : (faultWord s).extractLsb' 8 8 = s.firstCode := by
  ext i hi
  simp only [faultWord, BitVec.getElem_extractLsb', BitVec.getLsbD_append]
  simp [show ¬ 8 + i < 6 by omega, show ¬ 8 + i - 6 < 2 by omega, show 8 + i - 6 - 2 = i by omega, hi]

@[simp] theorem faultWord_top (s : State) : (faultWord s).extractLsb' 16 16 = 0 := by
  ext i hi
  simp only [faultWord, BitVec.getElem_extractLsb', BitVec.getLsbD_append]
  simp [show ¬ 16 + i < 6 by omega, show ¬ 16 + i - 6 < 2 by omega, show ¬ 16 + i - 6 - 2 < 8 by omega]

/-! ### Recording a fault -/

theorem codeBit_getLsbD (c : FaultCode) (b : Nat) : (codeBit c).getLsbD b = decide (b = codeNumber c - 1) := by
  by_cases hb : b < 6
  · have : ∀ c, ∀ b : Fin 6, (codeBit c).getLsbD b = decide (b.val = codeNumber c - 1) := by intro c; cases c <;> decide
    exact this c ⟨b, hb⟩
  · rw [BitVec.getLsbD_of_ge _ _ (by omega)]
    refine (decide_eq_false fun h => hb ?_).symm
    cases c <;> simp only [codeNumber] at h <;> omega

theorem raiseFault_bit (c : FaultCode) (info : Word) (s : State) (b : Nat) :
    (raiseFault c info s).faultBits.getLsbD b = (s.faultBits.getLsbD b || decide (b = codeNumber c - 1)) := by
  simp only [raiseFault, BitVec.getLsbD_or, codeBit_getLsbD]

theorem raiseFault_ne_zero (c : FaultCode) (info : Word) (s : State) : (raiseFault c info s).faultBits ≠ 0 := by
  intro h
  have := raiseFault_bit c info s (codeNumber c - 1)
  rw [h] at this
  simp at this

theorem raiseFault_first {s : State} (h : s.firstCode = 0) (c : FaultCode) (info : Word) :
    (raiseFault c info s).firstCode.toNat = codeNumber c ∧ (raiseFault c info s).faultInfo = info := by
  simp only [raiseFault, h, if_true]
  exact ⟨by cases c <;> rfl, trivial⟩

theorem raiseFault_later {s : State} (h : s.firstCode ≠ 0) (c : FaultCode) (info : Word) :
    (raiseFault c info s).firstCode = s.firstCode ∧ (raiseFault c info s).faultInfo = s.faultInfo := by
  simp only [raiseFault, h, if_false, and_self]

/-! ### The address map -/

theorem busTarget_audio {a : BusAddr} (h4 : a.toNat % 4 = 0) (h : 0x8000 ≤ a.toNat) : busTarget a = .audio := by
  simp only [busTarget, h4, audioBase, h, ne_eq, not_true_eq_false, if_false, if_true]

theorem busTarget_register {a : BusAddr} (h4 : a.toNat % 4 = 0) (h : a.toNat < 0x8000) :
    busTarget a = registerAt a.toNat := by
  simp only [busTarget, h4, audioBase, ne_eq, not_true_eq_false, if_false, Nat.not_le.mpr h]

theorem busTarget_none {a : BusAddr} (h : a.toNat % 4 ≠ 0 ∨ (0x018 ≤ a.toNat ∧ a.toNat < 0x020) ∨
    (0x05C ≤ a.toNat ∧ a.toNat < 0x8000)) : busTarget a = .none := by
  by_cases h4 : a.toNat % 4 = 0
  · rw [busTarget_register h4 (by omega)]
    unfold registerAt
    split <;> first | rfl | (exfalso; omega)
  · simp only [busTarget, h4, ne_eq, not_false_eq_true, if_true]

theorem busTarget_arg {a : BusAddr} (h4 : a.toNat % 4 = 0) (lo : 0x020 ≤ a.toNat) (hi : a.toNat < 0x030) :
    ∃ i, busTarget a = .arg i := by
  rw [busTarget_register h4 (by omega)]
  rcases (show a.toNat = 0x020 ∨ a.toNat = 0x024 ∨ a.toNat = 0x028 ∨ a.toNat = 0x02C by omega) with h | h | h | h <;>
    rw [h] <;> exact ⟨_, rfl⟩

theorem busTarget_res {a : BusAddr} (h4 : a.toNat % 4 = 0) (lo : 0x030 ≤ a.toNat) (hi : a.toNat < 0x040) :
    ∃ i, busTarget a = .res i := by
  rw [busTarget_register h4 (by omega)]
  rcases (show a.toNat = 0x030 ∨ a.toNat = 0x034 ∨ a.toNat = 0x038 ∨ a.toNat = 0x03C by omega) with h | h | h | h <;>
    rw [h] <;> exact ⟨_, rfl⟩

theorem busTarget_stage {a : BusAddr} (h4 : a.toNat % 4 = 0) (lo : 0x040 ≤ a.toNat) (hi : a.toNat < 0x05C) :
    ∃ p, paramIdxOf ((a.toNat - 0x040) / 4) = some p ∧ busTarget a = .stage p := by
  rw [busTarget_register h4 (by omega)]
  rcases (show a.toNat = 0x040 ∨ a.toNat = 0x044 ∨ a.toNat = 0x048 ∨ a.toNat = 0x04C ∨ a.toNat = 0x050 ∨
    a.toNat = 0x054 ∨ a.toNat = 0x058 by omega) with h | h | h | h | h | h | h <;> rw [h] <;> exact ⟨_, rfl, rfl⟩

end Sys2Proof.Machine
end

