-- ==== Sys2Proof/Laws/Units.lean ====
section
/-! SUPPORT. Reading a unit after writing one (spec/30_encoding.md R135, R137): the unit written, and every other. -/

namespace Sys2Proof

variable {α : Type}

@[simp] theorem Pair.get_set_same (p : Pair α) (i : Ix2) (a : α) : (p.set i a).get i = a := by cases i <;> rfl

theorem Pair.get_set_ne (p : Pair α) {i j : Ix2} (h : j ≠ i) (a : α) : (p.set i a).get j = p.get j := by
  cases i <;> cases j <;> first | rfl | exact absurd rfl h

@[simp] theorem Quad.get_set_same (p : Quad α) (i : Ix4) (a : α) : (p.set i a).get i = a := by cases i <;> rfl

theorem Quad.get_set_ne (p : Quad α) {i j : Ix4} (h : j ≠ i) (a : α) : (p.set i a).get j = p.get j := by
  cases i <;> cases j <;> first | rfl | exact absurd rfl h

@[simp] theorem ParamSet.get_ofFn (f : ParamIdx → α) (p : ParamIdx) : (ParamSet.ofFn f).get p = f p := by cases p <;> rfl

@[simp] theorem ParamSet.get_set_same (s : ParamSet α) (p : ParamIdx) (a : α) : (s.set p a).get p = a := by
  cases p <;> rfl

theorem ParamSet.get_set_ne (s : ParamSet α) {p q : ParamIdx} (h : q ≠ p) (a : α) : (s.set p a).get q = s.get q := by
  cases p <;> cases q <;> first | rfl | exact absurd rfl h

/-- A parameter set is its seven fields. -/
theorem ParamSet.ext_get {s t : ParamSet α} (h : ∀ p, s.get p = t.get p) : s = t := by
  have h1 := h .roomSize
  have h2 := h .decayTime
  have h3 := h .damping
  have h4 := h .modRate
  have h5 := h .modDepth
  have h6 := h .preDelay
  have h7 := h .mix
  cases s; cases t
  simp only [ParamSet.get] at h1 h2 h3 h4 h5 h6 h7
  simp [h1, h2, h3, h4, h5, h6, h7]

namespace Machine

/-- The id of a Hall unit: the Hall column of R137 read from the right. -/
def hallId : HallUnit → UnitId
  | .tank .i0 => 0x00
  | .tank .i1 => 0x01
  | .early .i0 .i0 => 0x10
  | .early .i0 .i1 => 0x11
  | .early .i1 .i0 => 0x12
  | .early .i1 .i1 => 0x13
  | .late .i0 .i0 => 0x18
  | .late .i0 .i1 => 0x19
  | .late .i1 .i0 => 0x1A
  | .late .i1 .i1 => 0x1B
  | .lfo => 0x20
  | .damp .i0 => 0x30
  | .damp .i1 => 0x31

/-- The id of a Plate unit: the Plate column of R137 read from the right. -/
def plateId : PlateUnit → UnitId
  | .fdn .i0 => 0x00
  | .fdn .i1 => 0x01
  | .fdn .i2 => 0x02
  | .fdn .i3 => 0x03
  | .pre => 0x04
  | .early .i0 .i0 => 0x10
  | .early .i0 .i1 => 0x11
  | .early .i0 .i2 => 0x12
  | .early .i0 .i3 => 0x13
  | .early .i1 .i0 => 0x14
  | .early .i1 .i1 => 0x15
  | .early .i1 .i2 => 0x16
  | .early .i1 .i3 => 0x17
  | .lfo => 0x20
  | .damp .i0 => 0x30
  | .damp .i1 => 0x31
  | .damp .i2 => 0x32
  | .damp .i3 => 0x33

@[simp] theorem hallUnit_hallId (n : HallUnit) : hallUnit (hallId n) = some n := by
  rcases n with (_ | _) | ⟨_ | _, _ | _⟩ | ⟨_ | _, _ | _⟩ | _ | (_ | _) <;> rfl

@[simp] theorem plateUnit_plateId (n : PlateUnit) : plateUnit (plateId n) = some n := by
  rcases n with (_ | _ | _ | _) | _ | ⟨_ | _, _ | _ | _ | _⟩ | _ | (_ | _ | _ | _) <;> rfl

theorem hallUnit_eq_some {u : UnitId} {n : HallUnit} (h : hallUnit u = some n) : u = hallId n := by
  unfold hallUnit at h
  split at h <;> first | (cases h; apply BitVec.eq_of_toNat_eq; assumption) | cases h

theorem plateUnit_eq_some {u : UnitId} {n : PlateUnit} (h : plateUnit u = some n) : u = plateId n := by
  unfold plateUnit at h
  split at h <;> first | (cases h; apply BitVec.eq_of_toNat_eq; assumption) | cases h

/-! ### Allpass units -/

theorem Hall.allpass_setAllpass_same {h : Hall} {n : HallUnit} {a b : Allpass} (hn : h.allpass n = some b) :
    (h.setAllpass n a).allpass n = some a := by
  cases n <;> simp_all [Hall.allpass, Hall.setAllpass]

theorem Hall.allpass_setAllpass_ne (h : Hall) {n m : HallUnit} (hm : m ≠ n) (a : Allpass) :
    (h.setAllpass n a).allpass m = h.allpass m := by
  rcases n with _ | ⟨c, j⟩ | ⟨c, j⟩ | _ | _ <;> rcases m with _ | ⟨c', j'⟩ | ⟨c', j'⟩ | _ | _ <;>
    simp only [Hall.allpass, Hall.setAllpass]
  · by_cases hc : c' = c
    · subst hc
      rw [Pair.get_set_same, Pair.get_set_ne _ (fun hj => hm (by rw [hj]))]
    · rw [Pair.get_set_ne _ hc]
  · by_cases hc : c' = c
    · subst hc
      rw [Pair.get_set_same, Pair.get_set_ne _ (fun hj => hm (by rw [hj]))]
    · rw [Pair.get_set_ne _ hc]

theorem Plate.allpass_setAllpass_same {p : Plate} {n : PlateUnit} {a b : Allpass} (hn : p.allpass n = some b) :
    (p.setAllpass n a).allpass n = some a := by
  cases n <;> simp_all [Plate.allpass, Plate.setAllpass]

theorem Plate.allpass_setAllpass_ne (p : Plate) {n m : PlateUnit} (hm : m ≠ n) (a : Allpass) :
    (p.setAllpass n a).allpass m = p.allpass m := by
  rcases n with _ | _ | ⟨c, j⟩ | _ | _ <;> rcases m with _ | _ | ⟨c', j'⟩ | _ | _ <;>
    simp only [Plate.allpass, Plate.setAllpass]
  by_cases hc : c' = c
  · subst hc
    rw [Pair.get_set_same, Quad.get_set_ne _ (fun hj => hm (by rw [hj]))]
  · rw [Pair.get_set_ne _ hc]

theorem allpassOf_setAllpassOf_same {e : Engine} {u : UnitId} {a b : Allpass} (h : allpassOf e u = some b) :
    allpassOf (setAllpassOf e u a) u = some a := by
  cases e with
  | hall h' =>
    simp only [allpassOf, Option.bind_eq_some_iff] at h
    obtain ⟨n, hn, ha⟩ := h
    simp only [setAllpassOf, hn, allpassOf, Option.bind_some, Hall.allpass_setAllpass_same ha]
  | plate p =>
    simp only [allpassOf, Option.bind_eq_some_iff] at h
    obtain ⟨n, hn, ha⟩ := h
    simp only [setAllpassOf, hn, allpassOf, Option.bind_some, Plate.allpass_setAllpass_same ha]

theorem allpassOf_setAllpassOf_ne (e : Engine) {u v : UnitId} (h : v ≠ u) (a : Allpass) :
    allpassOf (setAllpassOf e u a) v = allpassOf e v := by
  cases e with
  | hall h' =>
    simp only [setAllpassOf]
    split
    · rename_i n hn
      simp only [allpassOf]
      cases hm : hallUnit v with
      | none => rfl
      | some m =>
        refine Hall.allpass_setAllpass_ne h' (fun hmn => h ?_) a
        rw [hallUnit_eq_some hn, hallUnit_eq_some hm, hmn]
    · rfl
  | plate p =>
    simp only [setAllpassOf]
    split
    · rename_i n hn
      simp only [allpassOf]
      cases hm : plateUnit v with
      | none => rfl
      | some m =>
        refine Plate.allpass_setAllpass_ne p (fun hmn => h ?_) a
        rw [plateUnit_eq_some hn, plateUnit_eq_some hm, hmn]
    · rfl

/-! ### Delay-line units -/

theorem Hall.line_setLine_same {h : Hall} {n : HallUnit} {l k : DelayLine} (hn : h.line n = some k) :
    (h.setLine n l).line n = some l := by
  cases n <;> simp_all [Hall.line, Hall.setLine, Hall.setAllpass]

theorem Hall.line_setLine_ne (h : Hall) {n m : HallUnit} (hm : m ≠ n) (l : DelayLine) :
    (h.setLine n l).line m = h.line m := by
  rcases n with c | ⟨c, j⟩ | ⟨c, j⟩ | _ | _ <;> rcases m with c' | ⟨c', j'⟩ | ⟨c', j'⟩ | _ | _ <;>
    simp only [Hall.line, Hall.setLine, Hall.setAllpass]
  · rw [Pair.get_set_ne _ (fun hc => hm (by rw [hc]))]
  · by_cases hc : c' = c
    · subst hc
      rw [Pair.get_set_same, Pair.get_set_ne _ (fun hj => hm (by rw [hj]))]
    · rw [Pair.get_set_ne _ hc]
  · by_cases hc : c' = c
    · subst hc
      rw [Pair.get_set_same, Pair.get_set_ne _ (fun hj => hm (by rw [hj]))]
    · rw [Pair.get_set_ne _ hc]

theorem Plate.line_setLine_same {p : Plate} {n : PlateUnit} {l k : DelayLine} (hn : p.line n = some k) :
    (p.setLine n l).line n = some l := by
  cases n <;> simp_all [Plate.line, Plate.setLine, Plate.setAllpass]

theorem Plate.line_setLine_ne (p : Plate) {n m : PlateUnit} (hm : m ≠ n) (l : DelayLine) :
    (p.setLine n l).line m = p.line m := by
  rcases n with c | _ | ⟨c, j⟩ | _ | _ <;> rcases m with c' | _ | ⟨c', j'⟩ | _ | _ <;>
    simp only [Plate.line, Plate.setLine, Plate.setAllpass]
  · rw [Quad.get_set_ne _ (fun hc => hm (by rw [hc]))]
  · exact absurd rfl hm
  · by_cases hc : c' = c
    · subst hc
      rw [Pair.get_set_same, Quad.get_set_ne _ (fun hj => hm (by rw [hj]))]
    · rw [Pair.get_set_ne _ hc]

theorem lineOf_setLineOf_same {e : Engine} {u : UnitId} {l k : DelayLine} (h : lineOf e u = some k) :
    lineOf (setLineOf e u l) u = some l := by
  cases e with
  | hall h' =>
    simp only [lineOf, Option.bind_eq_some_iff] at h
    obtain ⟨n, hn, ha⟩ := h
    simp only [setLineOf, hn, lineOf, Option.bind_some, Hall.line_setLine_same ha]
  | plate p =>
    simp only [lineOf, Option.bind_eq_some_iff] at h
    obtain ⟨n, hn, ha⟩ := h
    simp only [setLineOf, hn, lineOf, Option.bind_some, Plate.line_setLine_same ha]

theorem lineOf_setLineOf_ne (e : Engine) {u v : UnitId} (h : v ≠ u) (l : DelayLine) :
    lineOf (setLineOf e u l) v = lineOf e v := by
  cases e with
  | hall h' =>
    simp only [setLineOf]
    split
    · rename_i n hn
      simp only [lineOf]
      cases hm : hallUnit v with
      | none => rfl
      | some m =>
        refine Hall.line_setLine_ne h' (fun hmn => h ?_) l
        rw [hallUnit_eq_some hn, hallUnit_eq_some hm, hmn]
    · rfl
  | plate p =>
    simp only [setLineOf]
    split
    · rename_i n hn
      simp only [lineOf]
      cases hm : plateUnit v with
      | none => rfl
      | some m =>
        refine Plate.line_setLine_ne p (fun hmn => h ?_) l
        rw [plateUnit_eq_some hn, plateUnit_eq_some hm, hmn]
    · rfl

/-! ### Damping units -/

theorem dampOf_setDampOf_same {e : Engine} {u : UnitId} {d b : Damp} (h : dampOf e u = some b) :
    dampOf (setDampOf e u d) u = some d := by
  cases e with
  | hall h' =>
    simp only [dampOf, Option.bind_eq_some_iff] at h
    obtain ⟨n, hn, ha⟩ := h
    cases n <;> simp_all [setDampOf, dampOf, Hall.dampUnit, Hall.setDampUnit]
  | plate p =>
    simp only [dampOf, Option.bind_eq_some_iff] at h
    obtain ⟨n, hn, ha⟩ := h
    cases n <;> simp_all [setDampOf, dampOf, Plate.dampUnit, Plate.setDampUnit]

theorem dampOf_setDampOf_ne (e : Engine) {u v : UnitId} (h : v ≠ u) (d : Damp) :
    dampOf (setDampOf e u d) v = dampOf e v := by
  cases e with
  | hall h' =>
    simp only [setDampOf]
    split
    · rename_i n hn
      simp only [dampOf]
      cases hm : hallUnit v with
      | none => rfl
      | some m =>
        have hmn : m ≠ n := fun hmn => h (by rw [hallUnit_eq_some hn, hallUnit_eq_some hm, hmn])
        cases n <;> cases m <;> simp only [Option.bind_some, Hall.dampUnit, Hall.setDampUnit]
        rw [Pair.get_set_ne _ (fun hc => hmn (by rw [hc]))]
    · rfl
  | plate p =>
    simp only [setDampOf]
    split
    · rename_i n hn
      simp only [dampOf]
      cases hm : plateUnit v with
      | none => rfl
      | some m =>
        have hmn : m ≠ n := fun hmn => h (by rw [plateUnit_eq_some hn, plateUnit_eq_some hm, hmn])
        cases n <;> cases m <;> simp only [Option.bind_some, Plate.dampUnit, Plate.setDampUnit]
        rw [Quad.get_set_ne _ (fun hc => hmn (by rw [hc]))]
    · rfl

@[simp] theorem engineLfo_setEngineLfo (e : Engine) (l : Lfo) : engineLfo (setEngineLfo e l) = l := by cases e <;> rfl

theorem lfoOf_eq_some {e : Engine} {u : UnitId} {l : Lfo} : lfoOf e u = some l ↔ u = 0x20 ∧ l = engineLfo e := by
  unfold lfoOf
  by_cases h : u = 0x20
  · rw [if_pos h, Option.some.injEq]
    exact ⟨fun hl => ⟨h, hl.symm⟩, fun hl => hl.2.symm⟩
  · rw [if_neg h]
    exact ⟨fun hl => (Option.some_ne_none _ hl.symm).elim, fun hl => absurd hl.1 h⟩

end Machine

end Sys2Proof
end

