-- ==== Sys2Proof/Laws/Signal.lean ====
section
/-! SUPPORT. Signal state and the rest: what clearing forgets, and what the signal operations leave alone
(spec/46_host_commands.md R316, R317, R321; spec/20_memory.md R122). -/

namespace Sys2Proof.Machine

/-! ### Clearing forgets what a signal operation did -/

@[simp] theorem DelayLine.clear_push (l : DelayLine) (x : Word) : (l.push x).clear = l.clear := rfl

@[simp] theorem DelayLine.clear_clear (l : DelayLine) : l.clear.clear = l.clear := rfl

@[simp] theorem DelayLine.push_N (l : DelayLine) (x : Word) : (l.push x).N = l.N := rfl

@[simp] theorem Allpass.process_M (a : Allpass) (x : Word) : (a.process x).1.M = a.M := rfl

@[simp] theorem Allpass.process_g (a : Allpass) (x : Word) : (a.process x).1.g = a.g := rfl

@[simp] theorem Allpass.clear_process (a : Allpass) (x : Word) : (a.process x).1.clear = a.clear := rfl

@[simp] theorem Allpass.clear_clear (a : Allpass) : a.clear.clear = a.clear := rfl

@[simp] theorem Lfo.restart_tick (l : Lfo) : l.tick.1.restart = l.restart := rfl

@[simp] theorem Lfo.restart_restart (l : Lfo) : l.restart.restart = l.restart := rfl

@[simp] theorem Damp.clear_process (d : Damp) (x : Word) : (d.process x).1.clear = d.clear := rfl

@[simp] theorem Damp.clear_clear (d : Damp) : d.clear.clear = d.clear := rfl

theorem clearEngine_clearEngine (e : Engine) : clearEngine (clearEngine e) = clearEngine e := by cases e <;> rfl

@[simp] theorem engineKind_clearEngine (e : Engine) : engineKind (clearEngine e) = engineKind e := by cases e <;> rfl

@[simp] theorem engineKind_recompute (P : Preset) (par : ParamSet Word) (fs : DWord) (e : Engine) :
    engineKind (recomputeEngine P par fs e) = engineKind e := by cases e <;> rfl

@[simp] theorem engineKind_build (P : Preset) (k : EngineKind) (fs : DWord) (par : ParamSet Word) :
    engineKind (buildEngine P k fs par) = k := by cases k <;> rfl

@[simp] theorem engineKind_setLineOf (e : Engine) (u : UnitId) (l : DelayLine) : engineKind (setLineOf e u l) = engineKind e := by
  cases e <;> simp only [setLineOf] <;> split <;> rfl

@[simp] theorem engineKind_setAllpassOf (e : Engine) (u : UnitId) (a : Allpass) :
    engineKind (setAllpassOf e u a) = engineKind e := by
  cases e <;> simp only [setAllpassOf] <;> split <;> rfl

@[simp] theorem engineKind_setDampOf (e : Engine) (u : UnitId) (d : Damp) : engineKind (setDampOf e u d) = engineKind e := by
  cases e <;> simp only [setDampOf] <;> split <;> rfl

@[simp] theorem engineKind_setEngineLfo (e : Engine) (l : Lfo) : engineKind (setEngineLfo e l) = engineKind e := by
  cases e <;> rfl

@[simp] theorem engineKind_sample (P : Preset) (e : Engine) (x : Frame) :
    engineKind (sampleEngine P e x).1 = engineKind e := by cases e <;> rfl

theorem clearEngine_setLineOf {e : Engine} {u : UnitId} {l : DelayLine} (h : lineOf e u = some l) {l' : DelayLine}
    (hl : l'.clear = l.clear) : clearEngine (setLineOf e u l') = clearEngine e := by
  cases e with
  | hall h' =>
    simp only [lineOf, Option.bind_eq_some_iff] at h
    obtain ⟨n, hn, ha⟩ := h
    simp only [setLineOf, hn]
    rcases n with (_ | _) | ⟨_ | _, _ | _⟩ | ⟨_ | _, _ | _⟩ | _ | _ <;> cases ha <;>
      simp [clearEngine, Hall.clear, Hall.setLine, Hall.setAllpass, Pair.set, Pair.get, Pair.map, Allpass.clear] <;> exact hl
  | plate p =>
    simp only [lineOf, Option.bind_eq_some_iff] at h
    obtain ⟨n, hn, ha⟩ := h
    simp only [setLineOf, hn]
    rcases n with (_ | _ | _ | _) | _ | ⟨_ | _, _ | _ | _ | _⟩ | _ | _ <;> cases ha <;>
      simp [clearEngine, Plate.clear, Plate.setLine, Plate.setAllpass, Pair.set, Pair.get, Pair.map, Quad.set, Quad.get,
        Quad.map, Allpass.clear] <;> exact hl

theorem clearEngine_setAllpassOf {e : Engine} {u : UnitId} {a : Allpass} (h : allpassOf e u = some a) {a' : Allpass}
    (hl : a'.clear = a.clear) : clearEngine (setAllpassOf e u a') = clearEngine e := by
  cases e with
  | hall h' =>
    simp only [allpassOf, Option.bind_eq_some_iff] at h
    obtain ⟨n, hn, ha⟩ := h
    simp only [setAllpassOf, hn]
    rcases n with _ | ⟨_ | _, _ | _⟩ | ⟨_ | _, _ | _⟩ | _ | _ <;> cases ha <;>
      simp [clearEngine, Hall.clear, Hall.setAllpass, Pair.set, Pair.get, Pair.map, hl]
  | plate p =>
    simp only [allpassOf, Option.bind_eq_some_iff] at h
    obtain ⟨n, hn, ha⟩ := h
    simp only [setAllpassOf, hn]
    rcases n with _ | _ | ⟨_ | _, _ | _ | _ | _⟩ | _ | _ <;> cases ha <;>
      simp [clearEngine, Plate.clear, Plate.setAllpass, Pair.set, Pair.get, Pair.map, Quad.set, Quad.get, Quad.map, hl]

theorem clearEngine_setDampOf {e : Engine} {u : UnitId} {d : Damp} (h : dampOf e u = some d) {d' : Damp}
    (hl : d'.clear = d.clear) : clearEngine (setDampOf e u d') = clearEngine e := by
  cases e with
  | hall h' =>
    simp only [dampOf, Option.bind_eq_some_iff] at h
    obtain ⟨n, hn, ha⟩ := h
    simp only [setDampOf, hn]
    rcases n with _ | _ | _ | _ | (_ | _) <;> cases ha <;>
      simp [clearEngine, Hall.clear, Hall.setDampUnit, Pair.set, Pair.get, Pair.map, hl]
  | plate p =>
    simp only [dampOf, Option.bind_eq_some_iff] at h
    obtain ⟨n, hn, ha⟩ := h
    simp only [setDampOf, hn]
    rcases n with _ | _ | _ | _ | (_ | _ | _ | _) <;> cases ha <;>
      simp [clearEngine, Plate.clear, Plate.setDampUnit, Quad.set, Quad.get, Quad.map, hl]

theorem clearEngine_setEngineLfo (e : Engine) {l : Lfo} (hl : l.restart = (engineLfo e).restart) :
    clearEngine (setEngineLfo e l) = clearEngine e := by
  cases e with
  | hall h' => simp only [engineLfo] at hl; simp [clearEngine, setEngineLfo, Hall.clear, hl]
  | plate p => simp only [engineLfo] at hl; simp [clearEngine, setEngineLfo, Plate.clear, hl]

theorem clearEngine_sample (P : Preset) (e : Engine) (x : Frame) : clearEngine (sampleEngine P e x).1 = clearEngine e := by
  cases e <;> rfl

theorem clearEngine_frameStep (P : Preset) (ch : Nat) (mix : Word) (epoch n : Nat) (b : BlockState) :
    clearEngine (frameStep P ch mix epoch n b).engine = clearEngine b.engine := by
  unfold frameStep frameStereo frameMono
  split <;> exact clearEngine_sample _ _ _

theorem clearEngine_runFrames (P : Preset) (ch : Nat) (mix : Word) (epoch : Nat) (k n : Nat) (b : BlockState) :
    clearEngine (runFrames P ch mix epoch k n b).engine = clearEngine b.engine := by
  induction k generalizing n b with
  | zero => rfl
  | succ k ih => exact (ih _ _).trans (clearEngine_frameStep P ch mix epoch n b)

@[simp] theorem engineKind_runFrames (P : Preset) (ch : Nat) (mix : Word) (epoch : Nat) (k n : Nat) (b : BlockState) :
    engineKind (runFrames P ch mix epoch k n b).engine = engineKind b.engine := by
  rw [← engineKind_clearEngine, clearEngine_runFrames, engineKind_clearEngine]

/-! ### PREPARE's engine, its gains and its coefficients -/

theorem clearEngine_build (P : Preset) (k : EngineKind) (fs : DWord) (par : ParamSet Word) :
    clearEngine (buildEngine P k fs par) = buildEngine P k fs par := by cases k <;> rfl

theorem presetGains_build (P : Preset) (k : EngineKind) (fs : DWord) (par : ParamSet Word) :
    presetGains P (buildEngine P k fs par) = buildEngine P k fs par := by cases k <;> rfl

theorem recompute_build (P : Preset) (k : EngineKind) (fs : DWord) (par : ParamSet Word) :
    recomputeEngine P par fs (buildEngine P k fs par) = buildEngine P k fs par := by cases k <;> rfl

/-- `e` with every current delay at its base (R52). -/
def settle : Engine → Engine
  | .hall h => .hall { h with dcur := h.base }
  | .plate p => .plate { p with dcur := p.base }

theorem settle_recompute_build (P : Preset) (k : EngineKind) (fs : DWord) (par par' : ParamSet Word) :
    settle (recomputeEngine P par' fs (buildEngine P k fs par)) = buildEngine P k fs par' := by cases k <;> rfl

theorem presetGains_clear_recompute (P : Preset) (par : ParamSet Word) (fs : DWord) (e : Engine) :
    presetGains P (clearEngine (recomputeEngine P par fs e)) =
      settle (recomputeEngine P par fs (presetGains P (clearEngine e))) := by cases e <;> rfl

theorem recompute_recompute (P : Preset) (par par' : ParamSet Word) (fs : DWord) (e : Engine) :
    recomputeEngine P par' fs (recomputeEngine P par fs e) = recomputeEngine P par' fs e := by cases e <;> rfl

theorem presetGains_clear_setGain (P : Preset) {e : Engine} {u : UnitId} {a : Allpass} (h : allpassOf e u = some a)
    (g : Word) : presetGains P (clearEngine (setAllpassOf e u { a with g := g })) = presetGains P (clearEngine e) := by
  cases e with
  | hall h' =>
    simp only [allpassOf, Option.bind_eq_some_iff] at h
    obtain ⟨n, hn, ha⟩ := h
    simp only [setAllpassOf, hn]
    rcases n with _ | ⟨_ | _, _ | _⟩ | ⟨_ | _, _ | _⟩ | _ | _ <;> cases ha <;> rfl
  | plate p =>
    simp only [allpassOf, Option.bind_eq_some_iff] at h
    obtain ⟨n, hn, ha⟩ := h
    simp only [setAllpassOf, hn]
    rcases n with _ | _ | ⟨_ | _, _ | _ | _ | _⟩ | _ | _ <;> cases ha <;> rfl

/-! ### Lines stay well formed -/

theorem LineOk.cleared {n : Nat} (h : 0 < n) : LineOk (clearedLine n) :=
  ⟨h, rfl, fun _ hc => nomatch hc⟩

theorem LineOk.push {l : DelayLine} (h : LineOk l) (x : Word) : LineOk (l.push x) where
  cursor := Nat.mod_lt _ (Nat.zero_lt_of_lt h.cursor)
  rising := cellsRising_bufPut _ _ h.rising
  inside c hc := by
    rcases mem_bufPut hc with hc | ⟨rfl, hx⟩
    · exact h.inside c hc
    · exact ⟨h.cursor, hx⟩

theorem LineOk.clear {l : DelayLine} (h : LineOk l) : LineOk l.clear := LineOk.cleared (Nat.zero_lt_of_lt h.cursor)

end Sys2Proof.Machine
end

