-- ==== Sys2Proof/Laws/Steps.lean ====
section
/-! SUPPORT. Everything one step can do: a core step, a host read, a host write, hardware reset (spec/20_memory.md
R110 to R114, spec/70_reset_and_hazards.md R380). -/

namespace Sys2Proof.Machine

open Ieee

theorem step_moves {s : State} (h : coreMovesNext s) : step s = coreStep (afterEvent s) := by
  obtain ⟨hb, h | ⟨rest, h⟩⟩ := h
  · rw [step_nil h, coreTurn_busy hb]
    congr 1
    simp only [afterEvent, h, List.tail_nil]
    rw [← h]
  · rw [step_cons h]
    show coreTurn { s with inputs := rest } = _
    rw [coreTurn_busy (by exact hb)]
    simp only [afterEvent, h, List.tail_cons]

theorem coreTurn_cases {s t : State} (h : coreTurn s = .next t) :
    (s.busy = false ∧ t = s) ∨ (s.busy = true ∧ ∃ u, t = completeCommand u ∧ ((∃ c, u = raiseFault c s.pending s) ∨
        ∃ i, decode s.pending = .ok i ∧ Ran s i u)) := by
  cases hb : s.busy with
  | false => rw [coreTurn_idle hb] at h; cases h; exact .inl ⟨rfl, rfl⟩
  | true =>
    rw [coreTurn_busy hb] at h
    obtain ⟨u, h1, h2⟩ := coreStep_cases s
    rw [h1] at h; cases h
    exact .inr ⟨rfl, u, rfl, h2⟩

/-- Everything a step can do. -/
theorem step_next_cases {s t : State} (h : step s = .next t) :
    (s.busy = true ∧ coreMovesNext s ∧ ∃ u, t = completeCommand u ∧ ((∃ c,
        u = raiseFault c s.pending (afterEvent s)) ∨ ∃ i, executesNext s i ∧ Ran (afterEvent s) i u)) ∨
    t = afterEvent s ∨
    (∃ a, t = busRead a (afterEvent s)) ∨ (∃ a v, t = busWrite a v (afterEvent s)) ∨
    ((∃ rest, s.inputs = .hardwareReset :: rest) ∧ t = hardwareReset (afterEvent s)) := by
  have hcore : ∀ t, coreTurn (afterEvent s) = .next t → (s.inputs = [] ∨ ∃ rest, s.inputs = .coreTurn :: rest) →
     (s.busy = true ∧ coreMovesNext s ∧ ∃ u, t = completeCommand u ∧ ((∃ c,
         u = raiseFault c s.pending (afterEvent s)) ∨ ∃ i, executesNext s i ∧ Ran (afterEvent s) i u)) ∨
    t = afterEvent s := by
    intro t h hm
    rcases coreTurn_cases h with ⟨hb, ht⟩ | ⟨hb, u, hu, hc⟩
    · exact .inr ht
    · have hb' : s.busy = true := hb
      refine .inl ⟨hb', ⟨hb', hm⟩, u, hu, hc.imp id ?_⟩
      rintro ⟨i, hd, hr⟩
      exact ⟨i, ⟨⟨hb', hm⟩, hd⟩, hr⟩
  cases hi : s.inputs with
  | nil =>
    have ha : afterEvent s = s := by simp only [afterEvent, hi, List.tail_nil]; rw [← hi]
    rw [step_nil hi] at h
    rw [← ha] at h
    rcases hcore t h (.inl hi) with h | h
    · rw [← hi]; exact .inl h
    · exact .inr (.inl h)
  | cons ev rest =>
    have ha : afterEvent s = { s with inputs := rest } := by simp only [afterEvent, hi, List.tail_cons]
    rw [step_cons hi, ← ha] at h
    cases ev with
    | read a => cases h; exact .inr (.inr (.inl ⟨a, rfl⟩))
    | write a v => cases h; exact .inr (.inr (.inr (.inl ⟨a, v, rfl⟩)))
    | hardwareReset => cases h; exact .inr (.inr (.inr (.inr ⟨⟨rest, rfl⟩, rfl⟩)))
    | coreTurn =>
      rcases hcore t h (.inr ⟨rest, hi⟩) with h | h
      · rw [← hi]; exact .inl h
      · exact .inr (.inl h)

/-- Everything a host read can do to the block. -/
theorem busRead_keeps (a : BusAddr) (s : State) : (busRead a s).par = s.par ∧ (busRead a s).prep = s.prep ∧
    (busRead a s).engine = s.engine ∧ (busRead a s).audio = s.audio ∧ (busRead a s).busy = s.busy ∧
    (busRead a s).stageOld = s.stageOld ∧
    (((busRead a s).faultBits = s.faultBits ∧ (busRead a s).firstCode = s.firstCode ∧
        (busRead a s).faultInfo = s.faultInfo) ∨ ∃ c info,
        (busRead a s).faultBits = (raiseFault c info s).faultBits ∧
        (busRead a s).firstCode = (raiseFault c info s).firstCode ∧
        (busRead a s).faultInfo = (raiseFault c info s).faultInfo) := by
  unfold busRead busReadValue unlessBusy drawWord
  split <;> (try split) <;> first
    | exact ⟨rfl, rfl, rfl, rfl, rfl, rfl, .inl ⟨rfl, rfl, rfl⟩⟩
    | exact ⟨rfl, rfl, rfl, rfl, rfl, rfl, .inr ⟨_, _, rfl, rfl, rfl⟩⟩

/-- Everything a host write can do to the block. -/
theorem busWrite_keeps (a : BusAddr) (v : Word) (s : State) : (busWrite a v s).par = s.par ∧
    (busWrite a v s).prep = s.prep ∧ (busWrite a v s).engine = s.engine ∧
    ((busWrite a v s).audio = s.audio ∨ (0x8000 ≤ a.toNat ∧ a.toNat % 4 = 0 ∧
        (busWrite a v s).audio = audioPut a.toNat v s.audio)) ∧
    ((busWrite a v s).busy = false → s.busy = false ∧ (busWrite a v s).stageOld = s.stageOld) ∧
    (((busWrite a v s).faultBits = s.faultBits ∧ (busWrite a v s).firstCode = s.firstCode ∧
        (busWrite a v s).faultInfo = s.faultInfo) ∨ ∃ c info, busWrite a v s = raiseFault c info s) := by
  unfold busWrite
  split
  case h_10 _ ht =>
    have hh : 0x8000 ≤ a.toNat ∧ a.toNat % 4 = 0 := by
      unfold busTarget audioBase at ht
      split at ht
      · cases ht
      · split at ht
        · rename_i h1 h2; exact ⟨h2, by omega⟩
        · unfold registerAt at ht; split at ht <;> cases ht
    unfold writeUnlessBusy
    split
    · exact ⟨rfl, rfl, rfl, .inl rfl, fun h => ⟨h, rfl⟩, .inr ⟨_, _, rfl⟩⟩
    · exact ⟨rfl, rfl, rfl, .inr ⟨hh.1, hh.2, rfl⟩, fun h => ⟨h, rfl⟩, .inl ⟨rfl, rfl, rfl⟩⟩
  all_goals (try unfold writeCmd acceptCommand); (try unfold writeUnlessBusy); (try unfold writeStage); (try split)
  all_goals first
    | exact ⟨rfl, rfl, rfl, .inl rfl, fun h => ⟨h, rfl⟩, .inl ⟨rfl, rfl, rfl⟩⟩
    | exact ⟨rfl, rfl, rfl, .inl rfl, fun h => ⟨h, rfl⟩, .inr ⟨_, _, rfl⟩⟩
    | exact ⟨rfl, rfl, rfl, .inl rfl, fun h => absurd h (by simp [*]), .inl ⟨rfl, rfl, rfl⟩⟩

/-- A host access takes no event and notes no read by itself: its step does both. -/
theorem busReadValue_io (a : BusAddr) (s : State) :
    (busReadValue a s).2.inputs = s.inputs ∧ (busReadValue a s).2.hostReads = s.hostReads := by
  unfold busReadValue unlessBusy drawWord
  split <;> (try split) <;> exact ⟨rfl, rfl⟩

theorem busWrite_io (a : BusAddr) (v : Word) (s : State) :
    (busWrite a v s).inputs = s.inputs ∧ (busWrite a v s).hostReads = s.hostReads := by
  unfold busWrite writeCmd acceptCommand writeUnlessBusy writeStage
  split <;> (try split) <;> exact ⟨rfl, rfl⟩

/-- Only SET_PARAMS writes the applied parameters. -/
theorem Ran.par {s t : State} {i : Instr} (h : Ran s i t) (hi : i ≠ .setParams) : t.par = s.par := by
  cases h <;> first | rfl | exact absurd rfl hi

/-- The value SET_PARAMS takes is one the register has held (log 6). -/
theorem stagedWord_mem (s : State) (p : ParamIdx) : stagedWord s p = s.stage.get p ∨
    stagedWord s p ∈ s.stageOld.get p := by
  unfold stagedWord
  split
  · left; rfl
  · rename_i v old h
    rw [h]
    generalize Config.raceChoice s.freeCtr p = n
    have hlt : n % (old.length + 2) < (s.stage.get p :: v :: old).length := by
      simp only [List.length_cons]; exact Nat.mod_lt _ (by omega)
    rw [List.getD_eq_getElem?_getD, List.getElem?_eq_getElem hlt, Option.getD_some]
    have := List.getElem_mem hlt
    rw [List.mem_cons] at this
    exact this

theorem stagedWord_none {s : State} {p : ParamIdx} (h : s.stageOld.get p = []) : stagedWord s p = s.stage.get p := by
  unfold stagedWord; rw [h]

end Sys2Proof.Machine
end

