-- ==== Sys2Proof/Laws/UnitFrames.lean ====
section
/-! SUPPORT. What updating one unit of the engine leaves alone, what clearing, recomputing and building an engine do
to each unit (spec/30_encoding.md R137, spec/46_host_commands.md R313 to R321). -/

namespace Sys2Proof.Machine

open Ieee

/-- A line update changes no engine register, oscillator or damping chain. -/
theorem regs_setLine (e : Engine) (u : UnitId) (l : DelayLine) : engineRegs (setLineOf e u l) = engineRegs e ∧
    engineLfo (setLineOf e u l) = engineLfo e ∧ (∀ v, dampOf (setLineOf e u l) v = dampOf e v) := by
  cases e with
  | hall h =>
    simp only [setLineOf]
    split
    · rename_i n hn; cases n <;> exact ⟨rfl, rfl, fun v => rfl⟩
    · exact ⟨rfl, rfl, fun v => rfl⟩
  | plate h =>
    simp only [setLineOf]
    split
    · rename_i n hn; cases n <;> exact ⟨rfl, rfl, fun v => rfl⟩
    · exact ⟨rfl, rfl, fun v => rfl⟩

/-- On an allpass unit, updating the line is updating the allpass's own line. -/
theorem setLine_eq_setAllpass {e : Engine} {u : UnitId} {a : Allpass} (h : allpassOf e u = some a) (l : DelayLine) :
    setLineOf e u l = setAllpassOf e u { a with line := l } := by
  cases e with
  | hall h' =>
    simp only [allpassOf, Option.bind_eq_some_iff] at h
    obtain ⟨n, hn, ha⟩ := h
    simp only [setLineOf, setAllpassOf, hn]
    cases n <;> cases ha <;> rfl
  | plate h' =>
    simp only [allpassOf, Option.bind_eq_some_iff] at h
    obtain ⟨n, hn, ha⟩ := h
    simp only [setLineOf, setAllpassOf, hn]
    cases n <;> cases ha <;> rfl

theorem allpass_setLine_none {e : Engine} {u : UnitId} (h : allpassOf e u = none) (l : DelayLine) (v : UnitId) :
    allpassOf (setLineOf e u l) v = allpassOf e v := by
  cases e with
  | hall h' =>
    simp only [allpassOf] at h
    simp only [setLineOf]
    cases hn : hallUnit u with
    | none => rfl
    | some n => rw [hn] at h; cases n <;> first | rfl | (exact absurd h (by simp [Hall.allpass]))
  | plate h' =>
    simp only [allpassOf] at h
    simp only [setLineOf]
    cases hn : plateUnit u with
    | none => rfl
    | some n => rw [hn] at h; cases n <;> first | rfl | (exact absurd h (by simp [Plate.allpass]))

/-- An allpass unit names its own line (R135). -/
theorem lineOf_allpass {e : Engine} {u : UnitId} {a : Allpass} (h : allpassOf e u = some a) :
    lineOf e u = some a.line := by
  cases e with
  | hall h' =>
    simp only [allpassOf, Option.bind_eq_some_iff] at h
    obtain ⟨n, hn, ha⟩ := h
    simp only [lineOf, hn, Option.bind_some]
    cases n <;> cases ha <;> rfl
  | plate h' =>
    simp only [allpassOf, Option.bind_eq_some_iff] at h
    obtain ⟨n, hn, ha⟩ := h
    simp only [lineOf, hn, Option.bind_some]
    cases n <;> cases ha <;> rfl

theorem line_setAllpass_ne (e : Engine) {u v : UnitId} (hv : v ≠ u) {a b : Allpass} (h : allpassOf e u = some b) :
    lineOf (setAllpassOf e u a) v = lineOf e v := by
  have h1 : lineOf (setAllpassOf e u a) v = lineOf (setLineOf e u a.line) v := by
    cases e with
    | hall h' =>
      simp only [allpassOf, Option.bind_eq_some_iff] at h
      obtain ⟨n, hn, ha⟩ := h
      simp only [setLineOf, setAllpassOf, hn, lineOf]
      cases hm : hallUnit v with
      | none => rfl
      | some m =>
        simp only [Option.bind_some]
        rcases n with c | ⟨_ | _, _ | _⟩ | ⟨_ | _, _ | _⟩ | _ | _ <;> rcases m with c' | ⟨_ | _, _ | _⟩ | ⟨_ | _,
            _ | _⟩ | _ | _ <;> cases ha <;> rfl
    | plate h' =>
      simp only [allpassOf, Option.bind_eq_some_iff] at h
      obtain ⟨n, hn, ha⟩ := h
      simp only [setLineOf, setAllpassOf, hn, lineOf]
      cases hm : plateUnit v with
      | none => rfl
      | some m =>
        simp only [Option.bind_some]
        rcases n with c | _ | ⟨_ | _, _ | _ | _ | _⟩ | _ | _ <;> rcases m with c' | _ | ⟨_ | _, _ | _ | _ | _⟩ | _
            | _ <;> cases ha <;> rfl
  rw [h1]; exact lineOf_setLineOf_ne e hv _

/-- What a line update leaves alone. -/
theorem KeepsOtherUnits.setLine (e : Engine) (u : UnitId) (l' : DelayLine) :
    KeepsOtherUnits u e (setLineOf e u l') where
  lines v hv := lineOf_setLineOf_ne e hv l'
  allpasses v hv := by
    cases ha : allpassOf e u with
    | none => exact allpass_setLine_none ha l' v
    | some a => rw [setLine_eq_setAllpass ha]; exact allpassOf_setAllpassOf_ne e hv _
  damps v hv := (regs_setLine e u l').2.2 v
  lfos v hv := by simp only [lfoOf, (regs_setLine e u l').2.1]
  regs := (regs_setLine e u l').1

/-- An allpass update changes no engine register, oscillator or damping chain. -/
theorem regs_setAllpass (e : Engine) (u : UnitId) (l : Allpass) : engineRegs (setAllpassOf e u l) = engineRegs e ∧
    engineLfo (setAllpassOf e u l) = engineLfo e ∧ (∀ v, dampOf (setAllpassOf e u l) v = dampOf e v) := by
  cases e with
  | hall h =>
    simp only [setAllpassOf]
    split
    · rename_i n hn; cases n <;> exact ⟨rfl, rfl, fun v => rfl⟩
    · exact ⟨rfl, rfl, fun v => rfl⟩
  | plate h =>
    simp only [setAllpassOf]
    split
    · rename_i n hn; cases n <;> exact ⟨rfl, rfl, fun v => rfl⟩
    · exact ⟨rfl, rfl, fun v => rfl⟩

/-- What an allpass update leaves alone. -/
theorem KeepsOtherUnits.setAllpass {e : Engine} {u : UnitId} {a b : Allpass} (h : allpassOf e u = some b) :
    KeepsOtherUnits u e (setAllpassOf e u a) where
  lines v hv := line_setAllpass_ne e hv h
  allpasses v hv := allpassOf_setAllpassOf_ne e hv _
  damps v hv := (regs_setAllpass e u a).2.2 v
  lfos v hv := by simp only [lfoOf, (regs_setAllpass e u a).2.1]
  regs := (regs_setAllpass e u a).1

/-- What an oscillator update leaves alone. -/
theorem KeepsOtherUnits.setLfo (e : Engine) (l : Lfo) : KeepsOtherUnits 0x20 e (setEngineLfo e l) where
  lines v _ := by cases e <;> rfl
  allpasses v _ := by cases e <;> rfl
  damps v _ := by cases e <;> rfl
  lfos v hv := by unfold lfoOf; rw [if_neg hv, if_neg hv]
  regs := by cases e <;> rfl

/-- What a damping update leaves alone. -/
theorem KeepsOtherUnits.setDamp {e : Engine} {u : UnitId} {d : Damp} : KeepsOtherUnits u e (setDampOf e u d) where
  lines v _ := by
    cases e with
    | hall h' => simp only [setDampOf]; split <;> (try (rename_i n hn; cases n)) <;> rfl
    | plate h' => simp only [setDampOf]; split <;> (try (rename_i n hn; cases n)) <;> rfl
  allpasses v _ := by
    cases e with
    | hall h' => simp only [setDampOf]; split <;> (try (rename_i n hn; cases n)) <;> rfl
    | plate h' => simp only [setDampOf]; split <;> (try (rename_i n hn; cases n)) <;> rfl
  damps v hv := dampOf_setDampOf_ne e hv d
  lfos v _ := by
    cases e with
    | hall h' => simp only [setDampOf]; split <;> (try (rename_i n hn; cases n)) <;> rfl
    | plate h' => simp only [setDampOf]; split <;> (try (rename_i n hn; cases n)) <;> rfl
  regs := by
    cases e with
    | hall h' => simp only [setDampOf]; split <;> (try (rename_i n hn; cases n)) <;> rfl
    | plate h' => simp only [setDampOf]; split <;> (try (rename_i n hn; cases n)) <;> rfl

/-! ### Clearing, recomputing, building -/

theorem lineOf_clearEngine (e : Engine) (u : UnitId) : lineOf (clearEngine e) u = (lineOf e u).map DelayLine.clear := by
  cases e with
  | hall h =>
    simp only [lineOf, clearEngine]
    cases hallUnit u with
    | none => rfl
    | some n => rcases n with (_ | _) | ⟨_ | _, _ | _⟩ | ⟨_ | _, _ | _⟩ | _ | _ <;> rfl
  | plate p =>
    simp only [lineOf, clearEngine]
    cases plateUnit u with
    | none => rfl
    | some n => rcases n with (_ | _ | _ | _) | _ | ⟨_ | _, _ | _ | _ | _⟩ | _ | _ <;> rfl

theorem allpassOf_clearEngine (e : Engine) (u : UnitId) :
    allpassOf (clearEngine e) u = (allpassOf e u).map Allpass.clear := by
  cases e with
  | hall h =>
    simp only [allpassOf, clearEngine]
    cases hallUnit u with
    | none => rfl
    | some n => rcases n with _ | ⟨_ | _, _ | _⟩ | ⟨_ | _, _ | _⟩ | _ | _ <;> rfl
  | plate p =>
    simp only [allpassOf, clearEngine]
    cases plateUnit u with
    | none => rfl
    | some n => rcases n with _ | _ | ⟨_ | _, _ | _ | _ | _⟩ | _ | _ <;> rfl

theorem dampOf_clearEngine (e : Engine) (u : UnitId) : dampOf (clearEngine e) u = (dampOf e u).map Damp.clear := by
  cases e with
  | hall h =>
    simp only [dampOf, clearEngine]
    cases hallUnit u with
    | none => rfl
    | some n => rcases n with _ | _ | _ | _ | (_ | _) <;> rfl
  | plate p =>
    simp only [dampOf, clearEngine]
    cases plateUnit u with
    | none => rfl
    | some n => rcases n with _ | _ | _ | _ | (_ | _ | _ | _) <;> rfl

theorem reportOf_clearEngine (e : Engine) (u : UnitId) :
    reportOf (clearEngine e) u = (reportOf e u).map fun r => { r with dcur := r.base, fb := 0 } := by
  cases e with
  | hall h =>
    simp only [reportOf, clearEngine]
    cases hallUnit u with
    | none => rfl
    | some n => rcases n with (_ | _) | _ | _ | _ | _ <;> rfl
  | plate p =>
    simp only [reportOf, clearEngine]
    cases plateUnit u with
    | none => rfl
    | some n => rcases n with (_ | _ | _ | _) | _ | _ | _ | _ <;> rfl

theorem engineLfo_clearEngine (e : Engine) :
    engineLfo (clearEngine e) = { engineLfo e with theta := 0 } := by cases e <;> rfl

/-- Recomputing keeps every line and allpass, and the states of every chain (R321). -/
theorem units_recompute (P : Preset) (par : ParamSet Word) (fs : DWord) (e : Engine) (u : UnitId) :
    lineOf (recomputeEngine P par fs e) u = lineOf e u ∧ allpassOf (recomputeEngine P par fs e) u = allpassOf e u ∧
    dampOf (recomputeEngine P par fs e) u = (dampOf e u).map fun d => d.recompute P par fs := by
  cases e with
  | hall h =>
    simp only [lineOf, allpassOf, dampOf, recomputeEngine]
    cases hallUnit u with
    | none => exact ⟨rfl, rfl, rfl⟩
    | some n => rcases n with (_ | _) | ⟨_ | _, _ | _⟩ | ⟨_ | _, _ | _⟩ | _ | (_ | _) <;> exact ⟨rfl, rfl, rfl⟩
  | plate p =>
    simp only [lineOf, allpassOf, dampOf, recomputeEngine]
    cases plateUnit u with
    | none => exact ⟨rfl, rfl, rfl⟩
    | some n => rcases n with (_ | _ | _ | _) | _ | ⟨_ | _, _ | _ | _ | _⟩ | _ | (_ | _ | _ | _) <;> exact ⟨rfl,
        rfl, rfl⟩

theorem capacity_pos (x : DWord) : 0 < capacity x := by unfold capacity; omega

/-- Every line PREPARE builds is clear (R313). -/
theorem build_line {k : EngineKind} {fs : DWord} {par : ParamSet Word} {u : UnitId} {l : DelayLine}
    (h : lineOf (buildEngine preset k fs par) u = some l) : ∃ n, 0 < n ∧ l = clearedLine n := by
  cases k with
  | hall =>
    simp only [lineOf, buildEngine] at h
    cases hn : hallUnit u with
    | none => rw [hn] at h; cases h
    | some n =>
      rw [hn] at h
      rcases n with (_ | _) | ⟨_ | _, _ | _⟩ | ⟨_ | _, _ | _⟩ | _ | _ <;> cases h <;>
        (first | exact ⟨_, capacity_pos _, rfl⟩ | exact ⟨_, Nat.succ_pos _, rfl⟩)
  | plate =>
    simp only [lineOf, buildEngine] at h
    cases hn : plateUnit u with
    | none => rw [hn] at h; cases h
    | some n =>
      rw [hn] at h
      rcases n with (_ | _ | _ | _) | _ | ⟨_ | _, _ | _ | _ | _⟩ | _ | _ <;> cases h <;>
        (first | exact ⟨_, capacity_pos _, rfl⟩ | exact ⟨_, Nat.succ_pos _, rfl⟩)

theorem clampGain_hallEarly : clampGain preset preset.hallEarlyG = 0x3F333333 := by decide

theorem clampGain_hallLate : clampGain preset preset.hallLateG = 0x3F000000 := by decide

theorem clampGain_plateEarly : clampGain preset preset.plateEarlyG = 0x3F400000 := by decide

/-- Every allpass PREPARE builds (R191, R192). -/
theorem build_allpass {k : EngineKind} {fs : DWord} {par : ParamSet Word} {u : UnitId} {a : Allpass}
    (h : allpassOf (buildEngine preset k fs par) u = some a) : 1 ≤ a.M ∧ a.line.N = a.M + 4 ∧
        a.g = (match k with
          | .hall => if u.toNat < 0x18 then 0x3F333333 else 0x3F000000
          | .plate => 0x3F400000) := by
  cases k with
  | hall =>
    simp only [allpassOf, buildEngine] at h
    cases hn : hallUnit u with
    | none => rw [hn] at h; cases h
    | some n =>
      rw [hn] at h
      have hu := hallUnit_eq_some hn
      rcases n with (_ | _) | ⟨_ | _, _ | _⟩ | ⟨_ | _, _ | _⟩ | _ | _ <;> cases h <;> subst hu <;>
        refine ⟨Nat.le_max_left _ _, rfl, ?_⟩ <;> first | exact clampGain_hallEarly | exact clampGain_hallLate
  | plate =>
    simp only [allpassOf, buildEngine] at h
    cases hn : plateUnit u with
    | none => rw [hn] at h; cases h
    | some n =>
      rw [hn] at h
      rcases n with (_ | _ | _ | _) | _ | ⟨_ | _, _ | _ | _ | _⟩ | _ | _ <;> cases h <;> exact ⟨Nat.le_max_left _ _,
          rfl, clampGain_plateEarly⟩

/-- A stored gain is in `[0, f32(0.85)]` (R194). -/
theorem clampGain_range (g : Word) : fle 0 (clampGain preset g) = true ∧
    fle (clampGain preset g) 0x3F59999A = true := by
  unfold clampGain
  cases h : isNaN g with
  | true => simp only [if_true]; decide
  | false => exact clamp_range h (by decide)

end Sys2Proof.Machine
end

