-- ==== Sys2Proof/Tests/Slice0.lean ====
section
/-! SUPPORT. Tests: expected values are the spec's (spec/95_test_vectors.md and the examples of the rules, named at each
test), or a hand calculation where a comment says so. Witnesses: for each statement with hypotheses, a state and operands
that meet them. -/

open Sys2Proof Sys2Proof.Machine Sys2Proof.Machine.Ieee

namespace Sys2Proof.Tests

set_option Elab.async false

/-! ### Small states -/

/-- A damping chain with the coefficients at 8000 Hz and `damping = 8000` (R237, R238). -/
def damp8k : Damp := ⟨0, 0, 0, 0x3AF4C4FB, 0x3F7F859E, 0x3F7C029B, 0x3C7F5940, 0x366A0816, 0x3F7FFFC5, true⟩

/-- Hall at 8000 Hz with the reset parameters and `modDepth = 0.5`: the sizes of R251, the coefficients of R253, R237 and
V-LFO2. -/
def hall8k : Hall where
  tank := ⟨clearedLine 1235, clearedLine 1320⟩
  early := ⟨⟨⟨clearedLine 42, 38, 0x3F333333⟩, ⟨clearedLine 33, 29, 0x3F333333⟩⟩,
    ⟨⟨clearedLine 44, 40, 0x3F333333⟩, ⟨clearedLine 34, 30, 0x3F333333⟩⟩⟩
  late := ⟨⟨⟨clearedLine 75, 71, 0x3F000000⟩, ⟨clearedLine 54, 50, 0x3F000000⟩⟩,
    ⟨⟨clearedLine 79, 75, 0x3F000000⟩, ⟨clearedLine 57, 53, 0x3F000000⟩⟩⟩
  lfo := ⟨0, 0x39CDE32E, 0x3F000000⟩
  damp := ⟨damp8k, damp8k⟩
  fb := ⟨0, 0⟩
  dcur := ⟨0x442E0000, 0x443A0000⟩
  base := ⟨0x442E0000, 0x443A0000⟩
  decay := 0x3F3B9A63

/-- A small Plate engine. -/
def plateSmall : Plate where
  fdn := ⟨clearedLine 8, clearedLine 8, clearedLine 8, clearedLine 8⟩
  pre := clearedLine 8
  early := ⟨⟨⟨clearedLine 8, 4, 0x3F400000⟩, ⟨clearedLine 8, 4, 0x3F400000⟩, ⟨clearedLine 8, 4, 0x3F400000⟩,
    ⟨clearedLine 8, 4, 0x3F400000⟩⟩, ⟨⟨clearedLine 8, 4, 0x3F400000⟩, ⟨clearedLine 8, 4, 0x3F400000⟩,
    ⟨clearedLine 8, 4, 0x3F400000⟩, ⟨clearedLine 8, 4, 0x3F400000⟩⟩⟩
  lfo := ⟨0, 0x39CDE32E, 0⟩
  damp := ⟨damp8k, damp8k, damp8k, { damp8k with hpEn := false }⟩
  dcur := ⟨0x40000000, 0x40000000, 0x40000000, 0x40000000⟩
  base := ⟨0x40400000, 0x40000000, 0x40000000, 0x40000000⟩
  g := 0x3F5D3D9D
  preD := ⟨0, 0⟩

/-- A prepared block, stereo, blocks of up to 4 frames at 8000 Hz. -/
def ready (e : Engine) : State :=
  { State.reset with engine := some e, prep := { fs := 0x40BF400000000000, maxBlockSize := 4, numChannels := 2 } }

/-- `s` with `ARG0`. -/
def withArg0 (x : Word) (s : State) : State := { s with arg := { s.arg with v0 := x } }

/-- `s` with a command pending and the core's turn next. -/
def withCommand (w : Word) (s : State) : State := { s with busy := true, pending := w, inputs := [.coreTurn] }

/-- `hall8k` after pushes of 1.0, 2.0 and 3.0 into `EARLY_L1` (V-DL2). -/
def pushed : Engine :=
  setLineOf (.hall hall8k) 0x11 ((((clearedLine 33).push 0x3F800000).push 0x40000000).push 0x40400000)

/-- The state a step or a command leaves. -/
def after (o : Host.Outcome State Fault Refusal) : State :=
  match o with
  | .next t => t
  | .fault _ => State.reset
  | .refused _ => State.reset

/-- Audio memory with words 0 and 1 of both channels written. -/
def someAudio : List Host.Cell :=
  audioPut 0xC004 0x40000000 (audioPut 0xC000 0x3F800000 (audioPut 0x8004 0x40000000 (audioPut 0x8000 0x3F800000 [])))

/-! ### Encoding (R131, R134, R146): the words are written out from the spec's table -/

theorem test_decode_delay_line : decode 0b00010000_00010001_0000000000000000 = .ok (.dlPush 0x11) ∧
    decode 0b00010001_00010001_0000000000100000 = .ok (.dlPopFixed 0x11 32) ∧
    decode 0x12110000 = .ok (.dlReadFrac 0x11) ∧ decode 0x13040000 = .ok (.dlInfo 0x04) := ⟨rfl, rfl, rfl, rfl⟩

theorem test_decode_allpass : decode 0b00100000_00011001_0000000000000000 = .ok (.apProcess 0x19) ∧
    decode 0x21100000 = .ok (.apSetGain 0x10) ∧ decode 0x221B0000 = .ok (.apInfo 0x1B) := ⟨rfl, rfl, rfl⟩

theorem test_decode_lfo : decode 0b00110000_00100000_0000000000000000 = .ok (.lfoTick 0x20) ∧
    decode 0x31200000 = .ok (.lfoReset 0x20) ∧ decode 0x32200000 = .ok (.lfoInfo 0x20) := ⟨rfl, rfl, rfl⟩

theorem test_decode_damp : decode 0b01000000_00110001_0000000000000000 = .ok (.dampProcess 0x31) ∧
    decode 0x41330000 = .ok (.dampInfo 0x33) := ⟨rfl, rfl⟩

theorem test_decode_contract : decode 0x00000000 = .ok .nop ∧
    decode 0b00000001_00000000_0000000000000000 = .ok (.prepare .hall) ∧ decode 0x01010000 = .ok (.prepare .plate) ∧
    decode 0x02000000 = .ok .reset ∧ decode 0x03000000 = .ok .setParams ∧ decode 0x04000006 = .ok (.getParam 6) ∧
    decode 0x0500FFFF = .ok (.processBlock 0xFFFF) ∧ decode 0x06030000 = .ok (.engInfo 0x03) :=
  ⟨rfl, rfl, rfl, rfl, rfl, rfl, rfl, rfl⟩

/-- R140 step 1 and R141: one word for each way a word is no command, at the edges of the reserved ranges. -/
theorem test_decode_refuses : decode 0x07000000 = .error .reservedOpcode ∧ decode 0x0F000000 = .error .reservedOpcode ∧
    decode 0x14110000 = .error .reservedOpcode ∧ decode 0x23100000 = .error .reservedOpcode ∧
    decode 0x33200000 = .error .reservedOpcode ∧ decode 0x42300000 = .error .reservedOpcode ∧
    decode 0xFFFFFFFF = .error .reservedOpcode ∧ decode 0x00000001 = .error .nonzeroField ∧
    decode 0x01020000 = .error .badEngineSelect ∧ decode 0x01000001 = .error .nonzeroField ∧
    decode 0x04000007 = .error .badParamIndex ∧ decode 0x05010000 = .error .nonzeroField ∧
    decode 0x10110001 = .error .nonzeroField ∧ decode 0x41300001 = .error .nonzeroField :=
  ⟨rfl, rfl, rfl, rfl, rfl, rfl, rfl, rfl, rfl, rfl, rfl, rfl, rfl, rfl⟩

/-- R146: the assembler's words. -/
theorem test_encode : encode (.dlPopFixed 0x11 32) = 0x11110020 ∧ encode (.prepare .plate) = 0x01010000 ∧
    encode (.getParam 6) = 0x04000006 ∧ encode (.processBlock 256) = 0x05000100 ∧ encode .setParams = 0x03000000 ∧
    encode (.dampProcess 0x31) = 0x40310000 := by decide +kernel

theorem test_decodeTableWord : decodeTableWord 32 0x12110000 = some (.dlReadFrac 0x11) ∧
    decodeTableWord 32 0x04000007 = none ∧ decodeTableWord 8 0x100 = some .nop := by decide +kernel

theorem test_decodeBytes : decodeBytes [0x20, 0x00, 0x11, 0x11, 0xAA] = some (.dlPopFixed 0x11 32, [0xAA]) ∧
    decodeBytes [0x00, 0x00, 0x00] = none := by decide +kernel

/-- The one check of well-formedness: a parameter index above 6 is refused (R134). -/
theorem test_wellFormed_refuses : (Instr.getParam 7).wellFormed = false ∧ (Instr.getParam 0xFFFF).wellFormed = false ∧
    (Instr.getParam 6).wellFormed = true := by decide +kernel

/-! ### Arithmetic (R11): results by the IEEE 754 rules, worked by hand -/

/-- `1 + 2^-24` is a tie and goes to even; `1 + 3 * 2^-24` is a tie and goes up. -/
theorem test_fadd_ties : fadd 0x3F800000 0x33800000 = 0x3F800000 ∧ fadd 0x3F800001 0x33800000 = 0x3F800002 := by decide +kernel

/-- Signs of zero, overflow, invalid operations, subnormals. -/
theorem test_float_corners : fadd 0x80000000 0x00000000 = 0 ∧ fadd 0x80000000 0x80000000 = 0x80000000 ∧
    fsub 0x3F800000 0x3F800000 = 0 ∧ fadd 0x7F7FFFFF 0x7F7FFFFF = 0x7F800000 ∧ fsub 0x7F800000 0x7F800000 = 0x7FC00000 ∧
    fmul 0x00000000 0xFF800000 = 0x7FC00000 ∧ fmul 0x00800000 0x3F000000 = 0x00400000 ∧
    fmul 0x00000001 0x3F000000 = 0 ∧ fmul 0xBF800000 0x00000000 = 0x80000000 := by decide +kernel

/-- R11: `fmin` and `fmax` on zeros of different sign and on NaNs. -/
theorem test_minmax : fmax 0x80000000 0x00000000 = 0x80000000 ∧ fmax 0x00000000 0x80000000 = 0 ∧
    fmin 0x80000000 0x00000000 = 0x80000000 ∧ fmax 0x7FC00001 0x3F800000 = 0x3F800000 := by decide +kernel

/-- R45 and R60: decimal constants, and both conversions between the formats. -/
theorem test_conversions : toF32 (dec64 1 1) = 0x3DCCCCCD ∧ toF32 (dec64 35 2) = 0x3EB33333 ∧
    toF64 0x3F000000 = 0x3FE0000000000000 ∧ dec64 8000 0 = fsMin ∧ dec64 192000 0 = fsMax ∧ toF32 one64 = 0x3F800000 := by
  decide +kernel

/-! ### Delay lines -/

/-- R171's example, on a cleared line. -/
theorem test_dlPush : ((after (exec (.dlPush 0x11) (withArg0 0x3F800000 (ready (.hall hall8k))))).engine.bind
    fun e => lineOf e 0x11) = some ⟨33, [(0, 0x3F800000)], 1⟩ := by decide +kernel

/-- V-DL2: the last push, the first push, and the oldest slot. -/
theorem test_dlPopFixed : (after (exec (.dlPopFixed 0x11 1) (ready pushed))).res = ⟨0x40400000, 0, 0, 0⟩ ∧
    (after (exec (.dlPopFixed 0x11 3) (ready pushed))).res.v0 = 0x3F800000 ∧
    (after (exec (.dlPopFixed 0x11 31) (ready pushed))).res.v0 = 0 := by decide +kernel

/-- V-DL2: `k = 0` is fault 4, and a later `k = 32` keeps the record. -/
theorem test_dlPopFixed_fault : (let t := after (coreStep (withCommand 0x11110000 (ready pushed)))
    faultWord t = 0x00000408 ∧ t.faultInfo = 0x11110000 ∧ t.res.v0 = 0 ∧
      (after (coreStep (withCommand 0x11110020 t))).faultInfo = 0x11110000) := by decide +kernel

/-- V-DL3. -/
theorem test_dlReadFrac : (after (exec (.dlReadFrac 0x11) (withArg0 0x3FC00000 (ready pushed)))).res.v0 = 0x40200000 ∧
    (after (exec (.dlReadFrac 0x11) (withArg0 0x403FEF9E (ready pushed)))).res.v0 = 0x3F8020C4 ∧
    (after (exec (.dlReadFrac 0x11) (withArg0 0x40600000 (ready pushed)))).res.v0 = 0x3F000000 := by decide +kernel

/-- V-DL4: 0.5, 31.5, a NaN and an infinity fault; 31.0 does not. -/
theorem test_dlReadFrac_fault :
    (after (exec (.dlReadFrac 0x11) (withArg0 0x3F000000 (ready pushed)))).faultBits = 0b001000 ∧
    (after (exec (.dlReadFrac 0x11) (withArg0 0x41FC0000 (ready pushed)))).faultBits = 0b001000 ∧
    (after (exec (.dlReadFrac 0x11) (withArg0 0x7FC00000 (ready pushed)))).faultBits = 0b001000 ∧
    (after (exec (.dlReadFrac 0x11) (withArg0 0x7F800000 (ready pushed)))).faultBits = 0b001000 ∧
    (after (exec (.dlReadFrac 0x11) (withArg0 0x41F80000 (ready pushed)))).faultBits = 0 := by
  refine ⟨?_, ?_, ?_, ?_, ?_⟩ <;> decide +kernel

/-- V-DL1. -/
theorem test_dlInfo : (after (exec (.dlInfo 0x11) (ready pushed))).res = ⟨33, 3, 0, 0⟩ := by decide +kernel

/-- V-DL7. -/
theorem test_clampDelay : clampDelay 0x7FC00000 1235 = 0x3F800000 ∧ clampDelay 0xC0A00000 1235 = 0x3F800000 ∧
    clampDelay 0x442E1000 1235 = 0x442E1000 ∧ clampDelay 0x7F800000 1235 = 0x449A2000 := by decide +kernel

/-! ### Allpasses -/

/-- V-AP1: call 0, and call 29, 28 zeros after it. -/
theorem test_apProcess : (after (exec (.apProcess 0x11) (withArg0 0x3F800000 (ready (.hall hall8k))))).res.v0 = 0xBF333333 ∧
    (after (exec (.apProcess 0x11) (ready (setLineOf (.hall hall8k) 0x11 ⟨33, [(0, 0x3F800000)], 29⟩)))).res.v0 =
      0x3F028F5C := by decide +kernel

/-- V-AP2. -/
theorem test_apSetGain :
    ([(0x3F666666, 0x3F59999A), (0x7F800000, 0x3F59999A), (0x3F000000, 0x3F000000), (0xBDCCCCCD, 0), (0x7FC00000, 0),
      (0x80000000, 0x80000000), (0x00000001, 0x00000001)] : List (Word × Word)).all (fun r =>
      decide ((after (exec (.apSetGain 0x11) (withArg0 r.1 (ready (.hall hall8k))))).res.v0 = r.2)) = true := by decide +kernel

/-- V-AP3's form, with the delays of R251 at 8000 Hz. -/
theorem test_apInfo : (after (exec (.apInfo 0x13) (ready (.hall hall8k)))).res = ⟨30, 0x3F333333, 0, 0⟩ ∧
    (after (exec (.apInfo 0x1A) (ready (.hall hall8k)))).res = ⟨75, 0x3F000000, 0, 0⟩ := by decide +kernel

/-- R251: delays at 44100 Hz; R191: a time too short for one sample gives one sample. -/
theorem test_allpassDelay : allpassDelay (dec64 477 2) 0x40E5888000000000 = 210 ∧
    allpassDelay (dec64 1 3) 0x40BF400000000000 = 1 := by decide +kernel

/-! ### The oscillator -/

/-- R213: from phase 0 the phase becomes the increment. -/
theorem test_lfoTick : ((after (exec (.lfoTick 0x20) (ready (.hall hall8k)))).engine.map fun e => (engineLfo e).theta) =
    some 0x39CDE32E := by decide +kernel

/-- V-LFO3: the wrap at 8000 Hz and 5 Hz. -/
theorem test_lfo_wrap : (Lfo.nextTheta ⟨0x40C90EBD, 0x3B80ADFD, 0⟩) = 0x3B786800 := by decide +kernel

/-- R219. -/
theorem test_lfoReset : ((after (exec (.lfoReset 0x20) (ready (setEngineLfo (.hall hall8k) ⟨0x40000000, 0x39CDE32E, 0⟩)))).engine.map
    engineLfo) = some ⟨0, 0x39CDE32E, 0⟩ := by decide +kernel

/-- R220. -/
theorem test_lfoInfo : (after (exec (.lfoInfo 0x20) (ready (.hall hall8k)))).res = ⟨0, 0x39CDE32E, 0x3F000000, 0⟩ := by decide +kernel

/-- V-LFO2: the increments at 8000 Hz and 48000 Hz. -/
theorem test_lfoDelta : lfoDelta 0x3F000000 0x40BF400000000000 = 0x39CDE32E ∧
    lfoDelta 0x3F000000 0x40E7700000000000 = 0x3889421E := by decide +kernel

/-! ### Damping chains -/

/-- R236's table, calls 1 and 2. -/
theorem test_dampProcess : (let t := after (exec (.dampProcess 0x30) (withArg0 0x3F800000 (ready (.hall hall8k))))
    t.res.v0 = 0x3F7B89E7 ∧ (t.engine.bind fun e => dampOf e 0x30) =
      some { damp8k with sLP := 0x3F7F859E, sHP := 0x3C7EDF2E, sPSY := 0x3F7B89E7 } ∧
    (after (exec (.dampProcess 0x30) (withArg0 0 t))).res.v0 = 0xBC5CC790) := by decide +kernel

/-- R237; and V-DAMP5: 0x32 is no damping unit of Hall. -/
theorem test_dampInfo : (after (exec (.dampInfo 0x31) (ready (.hall hall8k)))).res = ⟨0x3AF4C4FB, 0x3F7C029B, 0x366A0816, 1⟩ ∧
    (after (exec (.dampInfo 0x32) (ready (.hall hall8k)))).firstCode = 3 := by decide +kernel

/-! ### The contract -/

theorem test_nop : exec .nop State.reset = .next State.reset := rfl

/-- R251 and R281's tables: capacities of TANK_L, TANK_R, FDN_0 to FDN_3 and PRE, and allpass delays, at 44100 Hz and
192000 Hz. -/
theorem test_tabulatedSizes :
    ([0x00, 0x01].map fun u => (lineOf (buildEngine preset .hall 0x40E5888000000000 parDefaults) u).map DelayLine.N) =
      [some 6786, some 7254] ∧
    ([0x00, 0x01, 0x02, 0x03, 0x04].map fun u =>
      (lineOf (buildEngine preset .plate fsMax parDefaults) u).map DelayLine.N) =
      [some 10436, some 12455, some 15147, some 18849, some 38404] ∧
    ([0x10, 0x11, 0x12, 0x13, 0x18, 0x19, 0x1A, 0x1B].map fun u =>
      (allpassOf (buildEngine preset .hall fsMax parDefaults) u).map Allpass.M) =
      [some 916, some 689, some 966, some 716, some 1715, some 1212, some 1799, some 1281] := by decide +kernel

/-- R313 and V-HOST3: the configuration, and `STATUS` after it. -/
theorem test_prepare : (let s : State := { State.reset with arg := ⟨0, 0x40E77000, 256, 2⟩ }
    statusWord (after (exec (.prepare .plate) s)) = 0x01000203 ∧
      (after (exec (.prepare .plate) s)).prep = { fs := 0x40E7700000000000, maxBlockSize := 256, numChannels := 2 }) :=
  ⟨rfl, rfl⟩

theorem test_prepare_fault :
    ([⟨0, 0x40BF3FFF, 256, 2⟩, ⟨1, 0x41077000, 256, 2⟩, ⟨0, 0x7FF80000, 256, 2⟩, ⟨0, 0x40E77000, 0, 2⟩,
      ⟨0, 0x40E77000, 4097, 2⟩, ⟨0, 0x40E77000, 256, 0⟩, ⟨0, 0x40E77000, 256, 3⟩] : List (Quad Word)).all (fun a =>
      decide ((after (exec (.prepare .hall) { State.reset with arg := a })).firstCode = 4)) = true := by decide +kernel

/-- R316's example. -/
theorem test_reset : ((after (exec .reset (ready pushed))).engine.bind fun e => lineOf e 0x11) = some (clearedLine 33) := by
  decide +kernel

/-- R320's example: 2.0 is clamped, a NaN keeps the field; and an infinity. -/
theorem test_setParams : (after (exec .setParams { ready (.hall hall8k) with
      stage := ⟨0x40000000, 0x7FC00000, 0xFF800000, 0x3F000000, 0x80000000, 0, 0x3F000000⟩ })).par =
    ⟨0x3FE00000, 0x40000000, 0x43FA0000, 0x3F000000, 0x80000000, 0, 0x3F000000⟩ := by decide +kernel

/-- R325's example. -/
theorem test_getParam : (after (exec (.getParam 2) (ready (.hall hall8k)))).res.v0 = 0x45FA0000 := by decide +kernel

/-- R333 with `mix = 0`: the output words are the input words. -/
theorem test_processBlock :
    (let t := after (exec (.processBlock 2) { ready (.hall hall8k) with audio := someAudio, par := { parDefaults with mix := 0 } })
    audioWord t.audioEpoch t.audio 0x8000 = 0x3F800000 ∧ audioWord t.audioEpoch t.audio 0x8004 = 0x40000000 ∧
      audioWord t.audioEpoch t.audio 0xC004 = 0x40000000) := ⟨rfl, rfl, rfl⟩

/-- R330's example: five frames where four are prepared. -/
theorem test_processBlock_fault : (after (coreStep (withCommand 0x05000005 (ready (.hall hall8k))))).faultInfo = 0x05000005 := by
  decide +kernel

/-- R335, on each engine. -/
theorem test_engInfo : (after (exec (.engInfo 0x01) (ready (.hall hall8k)))).res = ⟨0x443A0000, 0x443A0000, 0x3F3B9A63, 0⟩ ∧
    (after (exec (.engInfo 0x00) (ready (.plate plateSmall)))).res = ⟨0x40000000, 0x40400000, 0x3F5D3D9D, 0⟩ ∧
    (after (exec (.engInfo 0x04) (ready (.plate plateSmall)))).firstCode = 3 := by decide +kernel

/-! ### The bus and the step -/

/-- R30, R104, R106: identification, reserved and misaligned addresses. -/
theorem test_bus : (busReadValue 0x000 State.reset).1 = 0x41445245 ∧ (busReadValue 0x018 State.reset).2.faultInfo = 0x18 ∧
    (busWrite 0x8001 0 State.reset).faultBits = 0b100000 ∧ (busReadValue 0x058 State.reset).1 = 0x3F000000 := by decide +kernel

/-- R112: from acceptance to completion, with NOP. -/
theorem test_step_nop : step { State.reset with inputs := [.write 0x014 0, .coreTurn] } =
    .next { State.reset with inputs := [.coreTurn], busy := true } ∧
    step { State.reset with inputs := [.coreTurn], busy := true } = .next State.reset := ⟨rfl, rfl⟩

theorem test_withFetchWord : step (State.reset.withFetchWord 32 0) = .next State.reset ∧
    (after (step (State.reset.withFetchWord 32 0x02000000))).firstCode = 2 ∧
    (after (step (State.reset.withFetchWord 32 0x07000000))).firstCode = 1 := ⟨rfl, by decide +kernel, by decide +kernel⟩

/-! ### Witnesses: states and operands that meet the hypotheses of the statements -/

theorem witness_HardwareResetSetsTheTable :
    ({ State.reset with inputs := [.hardwareReset], busy := true } : State).inputs = .hardwareReset :: [] := rfl

/-- The state a PREPARE leaves meets the invariant: used for every statement that supposes it. -/
theorem witness_Inv (k : EngineKind) : Inv (prepared k { State.reset with arg := ⟨0, 0x40BF4000, 4, 2⟩ }) where
  memory := rfl
  params := by
    intro p
    show fle (parLo.get p) (parDefaults.get p) = true ∧ fle (parDefaults.get p) (parHi.get p) = true
    cases p <;> decide +kernel
  faults := ⟨⟨fun _ => rfl, fun _ => rfl⟩, Nat.zero_le 6, fun h => absurd rfl h, fun _ => rfl⟩
  idle := fun _ => rfl
  uninit := fun h => nomatch h
  ready := by
    intro e he
    cases he
    refine ⟨⟨by cases k <;> decide +kernel, by cases k <;> decide +kernel, by cases k <;> decide +kernel, by cases k <;> decide +kernel, .inr rfl⟩, ?_, ?_, ?_⟩
    · rw [clearEngine_build, presetGains_build, engineKind_build]; rfl
    · intro u l hl
      obtain ⟨n, hn, rfl⟩ := build_line hl
      exact LineOk.cleared hn
    · intro u a ha
      obtain ⟨h1, h2, h3⟩ := build_allpass ha
      refine ⟨h1, h2, ?_, ?_⟩ <;> rw [h3] <;> cases k <;> (dsimp only; first | decide +kernel | (split <;> decide +kernel))

theorem witness_StatusReportsControlState : Inv (prepared .plate { State.reset with arg := ⟨0, 0x40BF4000, 4, 2⟩ }) :=
  witness_Inv .plate

theorem witness_FaultRegisterIsSticky :
    (∃ t, noResetNext (withCommand 0x07000000 State.reset) ∧ step (withCommand 0x07000000 State.reset) = .next t) ∧
    (raiseFault .busError 0x18 State.reset).firstCode ≠ 0 ∧ State.reset.firstCode = 0 := by
  refine ⟨⟨_, ⟨fun rest h => (nomatch h), rfl⟩⟩, by decide +kernel, by decide +kernel⟩

theorem witness_RaisingRecordsExactly :
    State.reset.firstCode = 0 ∧ (raiseFault .precond 0x11110000 State.reset).firstCode ≠ 0 := by decide +kernel

theorem witness_ReadOnlyWritesIgnored : (0x000 : BusAddr).toNat = 0x000 ∧ busWrite 0x03C 1 State.reset = State.reset :=
  ⟨rfl, rfl⟩

theorem witness_UnitTables : allpassOf (.hall hall8k) 0x1B = some ⟨clearedLine 57, 53, 0x3F000000⟩ ∧
    allpassOf (.plate plateSmall) 0x18 = none := ⟨rfl, rfl⟩

theorem witness_BusErrorsOnlyRecord :
    ([0x001, 0x8003, 0x018, 0x01C, 0x05C, 0x7FFC] : List BusAddr).all (fun a => decide
      (a.toNat % 4 ≠ 0 ∨ (0x018 ≤ a.toNat ∧ a.toNat < 0x020) ∨ (0x05C ≤ a.toNat ∧ a.toNat < 0x8000))) := by decide +kernel

theorem witness_CommandWriteIsAcceptedOrRefused :
    State.reset.busy = false ∧ (withCommand 0 State.reset).busy = true := by decide +kernel

theorem witness_PendingCommandIsUndisturbed :
    (let s : State := { withCommand 0 State.reset with inputs := [.write 0x020 1] }
    s.busy = true ∧ s.inputs = .write 0x020 1 :: [] ∧ BusEvent.write 0x020 1 ≠ .coreTurn ∧
      BusEvent.write 0x020 1 ≠ .hardwareReset ∧ ∃ t, step s = .next t) :=
  ⟨rfl, rfl, by decide +kernel, by decide +kernel, _, rfl⟩

/-- Each clause at the ends of its range. -/
theorem witness_AccessesWhileBusy : (withCommand 0 State.reset).busy = true ∧
    ([0x020, 0x02C, 0x8000, 0xFFFC] : List BusAddr).all (fun a => decide (a.toNat % 4 = 0 ∧
      ((0x020 ≤ a.toNat ∧ a.toNat < 0x030) ∨ 0x8000 ≤ a.toNat))) ∧
    ([0x040, 0x058] : List BusAddr).all (fun a => decide (a.toNat % 4 = 0 ∧ 0x040 ≤ a.toNat ∧ a.toNat < 0x05C)) ∧
    ([0x030, 0x03C, 0x8000, 0xFFFC] : List BusAddr).all (fun a => decide (a.toNat % 4 = 0 ∧
      ((0x030 ≤ a.toNat ∧ a.toNat < 0x040) ∨ 0x8000 ≤ a.toNat))) ∧
    ([0x000, 0x004, 0x008, 0x00C, 0x010, 0x020, 0x024, 0x028, 0x02C] : List BusAddr).all (fun a => decide (a.toNat % 4 = 0)) ∧
    paramIdxOf 0 = some .roomSize ∧ paramIdxOf 6 = some .mix := by decide +kernel

theorem witness_RacedParameterIsOneTheHostHeld : (withCommand 0x03000000 State.reset).busy = true ∧
    (withCommand 0x03000000 State.reset).stageOld = noStageOld ∧
    ([(.mix, 1), (.mix, 2)] : List (ParamIdx × Word)).all (fun w => decide (w.1 ≠ .roomSize)) = true := by decide +kernel

theorem witness_AudioStoreThenRead : State.reset.busy = false ∧
    ([0x8000, 0xFFFC] : List BusAddr).all (fun a => decide (a.toNat % 4 = 0 ∧ 0x8000 ≤ a.toNat)) := by decide +kernel

theorem witness_HostRegistersHoldTheLastWrite : State.reset.busy = false ∧
    ([0x020, 0x02C, 0x040, 0x058] : List BusAddr).all (fun a => decide (a.toNat % 4 = 0 ∧
      ((0x020 ≤ a.toNat ∧ a.toNat < 0x030) ∨ (0x040 ≤ a.toNat ∧ a.toNat < 0x05C)))) := by decide +kernel

theorem witness_DecodeInvertsEncode : (Instr.getParam 6).wellFormed = true ∧ (Instr.dlPopFixed 0xFF 0xFFFF).wellFormed = true := by
  decide +kernel

theorem witness_EncodeInvertsDecode : decode 0x0500FFFF = .ok (.processBlock 0xFFFF) := rfl

theorem witness_ChecksRunInOrder : illegalWord 0x07000000 = true ∧ illegalWord 0x04000007 = true ∧
    illegalWord 0x02000000 = false ∧ decode 0x02000000 = .ok .reset ∧ needsReady .reset = true ∧
    State.reset.engine = none ∧ unitAllowed (engineKind (.hall hall8k)) (.dlPush 0x02) = false ∧
    (ready (.hall hall8k)).engine = some (.hall hall8k) ∧ unitAllowed (engineKind (.hall hall8k)) (.dlPush 0x01) = true ∧
    needsReady (.prepare .plate) = false :=
  ⟨by decide +kernel, by decide +kernel, by decide +kernel, rfl, by decide +kernel, rfl, by decide +kernel, rfl, by decide +kernel, by decide +kernel⟩

theorem witness_StepRunsTheDecodedCommand : executesNext (withCommand 0x04000006 State.reset) (.getParam 6) ∧
    executesNext { withCommand 0x00000000 State.reset with inputs := [] } .nop :=
  ⟨⟨⟨rfl, .inr ⟨[], rfl⟩⟩, rfl⟩, ⟨rfl, .inl rfl⟩, rfl⟩

theorem witness_EveryStepAnswers : State.reset.busy = false ∧ State.reset.inputs = [] ∧
    ({ State.reset with inputs := [.coreTurn] } : State).busy = false ∧
    ({ State.reset with inputs := [.write 0x058 1, .coreTurn] } : State).inputs = .write 0x058 1 :: [.coreTurn] ∧
    ({ State.reset with inputs := [.read 0x000] } : State).inputs = .read 0x000 :: [] := ⟨rfl, rfl, rfl, rfl, rfl⟩

theorem witness_FaultingCommandHasNoEffect :
    (Instr.getParam 6).wellFormed = true ∧ needsReady (.getParam 6) = true ∧ State.reset.engine = none ∧
    unitAllowed (engineKind (.plate plateSmall)) (.apProcess 0x18) = false ∧
    unitAllowed (engineKind (.plate plateSmall)) (.apProcess 0x17) = true ∧
    ¬ OperandsOk (ready (.hall hall8k)) (.processBlock 5) ∧ OperandsOk (ready (.hall hall8k)) (.processBlock 4) ∧
    illegalWord (withCommand 0x07000000 State.reset).pending = true := by
  refine ⟨by decide +kernel, by decide +kernel, rfl, by decide +kernel, by decide +kernel, ?_, ?_, by decide +kernel⟩
  · show ¬ (5 : BitVec 16).toNat ≤ 4; decide +kernel
  · show (4 : BitVec 16).toNat ≤ 4; decide +kernel

theorem witness_LineRemembersItsPushes : 1 ≤ 1 ∧ 1 ≤ 33 ∧ 33 ≤ 33 ∧
    ([0x3F800000].foldl DelayLine.push (clearedLine 33)).popFixed 1 = 0x3F800000 := by decide +kernel

/-- A line, at the cursor's last place, for the commands on a delay line. -/
theorem witness_PushCommand : (ready (.hall hall8k)).engine = some (.hall hall8k) ∧
    lineOf (.hall hall8k) 0x01 = some (clearedLine 1320) ∧ lineOf (.hall hall8k) 0x1B = some (clearedLine 57) ∧
    LineOk (clearedLine 57) ∧ LineOk ⟨33, [(32, 0x3F800000)], 32⟩ :=
  ⟨rfl, rfl, rfl, LineOk.cleared (by decide +kernel), ⟨by decide +kernel, rfl, by decide +kernel⟩⟩

/-- Both clauses at the ends of the valid range, and just outside it. -/
theorem witness_PopFixedCommand : lineOf (.hall hall8k) 0x11 = some (clearedLine 33) ∧
    ([1, 31] : List (BitVec 16)).all (fun k => decide (1 ≤ k.toNat ∧ (k.toNat : Int) ≤ (33 : Int) - 2)) ∧
    ([0, 32] : List (BitVec 16)).all (fun k => decide ¬ (1 ≤ k.toNat ∧ (k.toNat : Int) ≤ (33 : Int) - 2)) := ⟨rfl, by decide +kernel, by decide +kernel⟩

theorem witness_ReadFractionCommand :
    ([0x3F800000, 0x41F80000] : List Word).all (fun d =>
      !isNaN d && fle 0x3F800000 d && fle d (nat32 (33 - 2))) = true ∧
    ([0x7FC00000, 0x3F7FFFFF, 0x41F80001] : List Word).all (fun d =>
      isNaN d || !fle 0x3F800000 d || !fle d (nat32 (33 - 2))) = true := by decide +kernel

theorem witness_ClampedOffsetIsValid : (3 ≤ 3 ∧ 3 < 2 ^ 24) ∧ (3 ≤ 16777215 ∧ 16777215 < 2 ^ 24) ∧ isNaN 0x7FC00000 = true ∧
    isNaN 0xFF800000 = false ∧ fle 0x3F800000 0x3F800000 = true ∧ fle 0x3F800000 (nat32 (3 - 2)) = true := by decide +kernel

/-- The three clauses: an ordinary sample, a negative zero before each sign of difference, an infinite difference. -/
theorem witness_IntegerOffsetReadsTheSample :
    (let l : DelayLine := ⟨8, [(0, 0x40000000), (1, 0x80000000), (2, 0x3F800000), (3, 0x7F800000), (4, 0x3F800000)], 5⟩
    1 ≤ 3 ∧ 3 ≤ l.N - 2 ∧ l.N < 2 ^ 24 ∧
      isFinite32 (fsub (l.popFixed 4) (l.popFixed 3)) = true ∧ l.popFixed 3 ≠ 0x80000000 ∧
      isFinite32 (fsub (l.popFixed 5) (l.popFixed 4)) = true ∧ l.popFixed 4 = 0x80000000 ∧
      isFinite32 (fsub (l.popFixed 2) (l.popFixed 1)) = false) := by decide +kernel

theorem witness_AllpassCommand : allpassOf (.hall hall8k) 0x11 = some ⟨clearedLine 33, 29, 0x3F333333⟩ ∧
    allpassOf (.plate plateSmall) 0x17 = some ⟨clearedLine 8, 4, 0x3F400000⟩ ∧ LineOk (clearedLine 33) :=
  ⟨rfl, rfl, LineOk.cleared (by decide +kernel)⟩

theorem witness_SetGainCommand : (ready (.plate plateSmall)).engine = some (.plate plateSmall) ∧
    allpassOf (.plate plateSmall) 0x10 = some ⟨clearedLine 8, 4, 0x3F400000⟩ ∧ isNaN 0x7F800001 = true ∧
    isNaN 0x7F800000 = false := ⟨rfl, rfl, by decide +kernel, by decide +kernel⟩

theorem witness_LfoTickCommand : (ready (.hall hall8k)).engine = some (.hall hall8k) ∧
    fle 0x40C90FDB (fadd 0x40C90EBD 0x3B80ADFD) = true ∧ fle 0x40C90FDB (fadd 0 0x39CDE32E) = false :=
  ⟨rfl, by decide +kernel, by decide +kernel⟩

theorem witness_LfoResetCommand : (ready (.plate plateSmall)).engine = some (.plate plateSmall) := rfl

/-- Both ends of the phase's range, and both ends of the increment's. -/
theorem witness_PhaseStaysInRange :
    ([⟨0, 0, 0⟩, ⟨0x80000000, 0x3B83126F, 0⟩, ⟨0x40C90FDA, 0x3B83126F, 0⟩] : List Lfo).all (fun l =>
      fle 0 l.theta && !fle 0x40C90FDB l.theta && !isNaN l.theta && fle 0 l.delta && fle l.delta 0x3B83126F) = true ∧
    (let s := prepared .plate { State.reset with arg := ⟨0, 0x40BF4000, 4, 2⟩ }
    Inv s ∧ s.engine ≠ none ∧ (∀ e, s.engine = some e → PhaseOk (engineLfo e)) ∧ ∃ t, step s = .next t) := by
  refine ⟨by decide +kernel, witness_Inv .plate, fun h => (nomatch h), ?_, _, rfl⟩
  intro e he
  cases he
  exact ⟨by decide +kernel, by decide +kernel, by decide +kernel⟩

theorem witness_DampingCommand : dampOf (.hall hall8k) 0x30 = some damp8k ∧ damp8k.hpEn = true ∧
    dampOf (.plate plateSmall) 0x33 = some { damp8k with hpEn := false } := ⟨rfl, rfl, rfl⟩

theorem witness_NanSticksInDamping : damp8k.hpEn = true ∧ isNaN 0xFFC12345 = true := by decide +kernel

theorem witness_InfoCommandsReport : (ready (.hall hall8k)).engine = some (.hall hall8k) ∧
    lineOf (.hall hall8k) 0x00 = some (clearedLine 1235) ∧
    allpassOf (.hall hall8k) 0x18 = some ⟨clearedLine 75, 71, 0x3F000000⟩ ∧ dampOf (.hall hall8k) 0x31 = some damp8k :=
  ⟨rfl, rfl, rfl, rfl⟩

theorem witness_EngInfoReports : (ready (.hall hall8k)).engine = some (.hall hall8k) ∧ (0x01 : UnitId).toNat = 1 ∧
    (ready (.plate plateSmall)).engine = some (.plate plateSmall) ∧ (0x03 : UnitId).toNat = 3 := ⟨rfl, rfl, rfl, rfl⟩

theorem witness_InspectionChangesOnlyResults :
    ∃ t, exec (.dlInfo 0x00) (ready (.hall hall8k)) = .next t ∧ KeepsFaults (ready (.hall hall8k)) t :=
  ⟨_, rfl, rfl, rfl, rfl⟩

theorem witness_ResultRegistersWritten :
    (∃ t, exec (.dlInfo 0x00) (ready (.hall hall8k)) = .next t) ∧ (resWritten (.dlInfo 0x00)).get .i2 = false ∧
    (∃ t, exec (.dlInfo 0x00) State.reset = .next t ∧ t = raiseFault .badState State.reset.pending State.reset) :=
  ⟨⟨_, rfl⟩, rfl, _, rfl, rfl⟩

/-- The least and the greatest operands PREPARE accepts. -/
theorem witness_PrepareBuildsACleanEngine :
    PrepareOperandsOk { State.reset with arg := ⟨0, 0x40BF4000, 1, 1⟩ } ∧
    PrepareOperandsOk { State.reset with arg := ⟨0, 0x41077000, 4096, 2⟩ } :=
  ⟨⟨by decide +kernel, by decide +kernel, by decide +kernel, by decide +kernel, .inl rfl⟩, ⟨by decide +kernel, by decide +kernel, by decide +kernel, by decide +kernel, .inr rfl⟩⟩

theorem witness_PrepareForgetsThePast :
    (let s : State := { State.reset with arg := ⟨0, 0x40BF4000, 1, 1⟩ }
    let s' : State := { ready (.hall hall8k) with arg := ⟨0, 0x40BF4000, 1, 1⟩ }
    s.arg = s'.arg ∧ s.par = s'.par ∧ PrepareOperandsOk s ∧ (∃ t, exec (.prepare .plate) s = .next t) ∧
      ∃ t, exec (.prepare .plate) s' = .next t) :=
  ⟨rfl, rfl, witness_PrepareBuildsACleanEngine.1, ⟨_, rfl⟩, _, rfl⟩

theorem witness_ResetClearsTheSignalState : (ready pushed).engine = some pushed := rfl

/-- A run of one NOP step. -/
theorem witness_ResetRestoresThePreparedEngine :
    (let s : State := { withCommand 0 State.reset with arg := ⟨0, 0x40BF4000, 1, 1⟩ }
    PrepareOperandsOk s ∧ (∃ p, exec (.prepare .hall) s = .next p) ∧
      ∃ q r, SignalRun (prepared .hall s) q ∧ exec .reset q = .next r) := by
  refine ⟨⟨by decide +kernel, by decide +kernel, by decide +kernel, by decide +kernel, .inl rfl⟩, ⟨_, rfl⟩, _, _, .step .refl ?_ ?_ rfl, rfl⟩
  · intro rest h; cases h
  · intro i hi
    have h : i = .nop := by
      have hd : decode 0 = .ok i := hi.2
      exact (Except.ok.inj (show Except.ok .nop = Except.ok (ε := DecodeError) i from hd)).symm
    subst h
    decide +kernel

theorem witness_SetParamsAppliesAndRecomputes : (ready (.hall hall8k)).engine = some (.hall hall8k) ∧
    (ready (.hall hall8k)).stageOld.get .mix = [] := ⟨rfl, rfl⟩

theorem witness_RecomputeDerivesEveryCoefficient : (ready (.plate plateSmall)).engine = some (.plate plateSmall) ∧
    PrepareOperandsOk { State.reset with arg := ⟨0, 0x41077000, 4096, 2⟩ } := ⟨rfl, witness_PrepareBuildsACleanEngine.2⟩

theorem witness_SetParamsIsIdempotent :
    (let s := prepared .hall { State.reset with arg := ⟨0, 0x40BF4000, 4, 2⟩ }
    Inv s ∧ s.stageOld = noStageOld ∧ s.engine ≠ none ∧ s.stage = s.par ∧ ∃ t, exec .setParams s = .next t) :=
  ⟨witness_Inv .hall, rfl, ⟨fun h => (nomatch h), rfl, _, rfl⟩⟩

theorem witness_ParametersStayInRange :
    (let s : State := { withCommand 0 State.reset with par := parHi }
    ParamsOk s.par ∧ ∃ t, step s = .next t) := by
  refine ⟨?_, _, rfl⟩
  intro p; cases p <;> decide +kernel

theorem witness_OnlySetParamsChangesParameters :
    ∃ t, step (withCommand 0x03000000 { ready (.hall hall8k) with stage := parHi }) = .next t ∧
      t.par ≠ (ready (.hall hall8k)).par := ⟨_, rfl, by decide +kernel⟩

theorem witness_ProcessBlockRunsFrameByFrame : (ready (.hall hall8k)).engine = some (.hall hall8k) ∧
    (ready (.hall hall8k)).prep.maxBlockSize ≤ 4096 ∧ (ready (.hall hall8k)).prep.numChannels = 2 ∧
    (4 : BitVec 16).toNat = (3 : BitVec 16).toNat + 1 ∧ (4 : BitVec 16).toNat ≤ (ready (.hall hall8k)).prep.maxBlockSize := by
  refine ⟨rfl, ?_⟩; decide +kernel

theorem witness_MixBypassKeepsAudio :
    (let s : State := { ready (.hall hall8k) with par := { parDefaults with mix := 0x80000000 } }
    s.engine = some (.hall hall8k) ∧ (4 : BitVec 16).toNat ≤ s.prep.maxBlockSize ∧ s.prep.maxBlockSize ≤ 4096 ∧
      s.par.mix = 0x80000000) := ⟨rfl, by decide +kernel, by decide +kernel, rfl⟩

/-- Two frames split into one and one, with equal input words in both frames of audio memory's second image. -/
theorem witness_BlocksSplit :
    (let s : State := { ready (.hall hall8k) with audio := audioPut 0xC000 1 (audioPut 0x8000 1 (audioPut 0xC004 1 (audioPut 0x8004 1 []))) }
    ∃ m, exec (.processBlock 1) s = .next m ∧
      (let m' : State := { m with audio := s.audio }
      s.engine ≠ none ∧ s.prep.maxBlockSize ≤ 4096 ∧ (2 : BitVec 16).toNat = (1 : BitVec 16).toNat + (1 : BitVec 16).toNat ∧
        (2 : BitVec 16).toNat ≤ s.prep.maxBlockSize ∧ m'.engine = m.engine ∧ m'.prep = m.prep ∧ m'.par = m.par ∧
        (∀ c n, n < (1 : BitVec 16).toNat → audioWord m'.audioEpoch m'.audio (audioAddr c n) =
          audioWord s.audioEpoch s.audio (audioAddr c ((1 : BitVec 16).toNat + n))) ∧
        (∃ t, exec (.processBlock 1) m' = .next t) ∧ ∃ w, exec (.processBlock 2) s = .next w)) := by
  refine ⟨_, rfl, fun h => (nomatch h), by decide +kernel, by decide +kernel, by decide +kernel, rfl, rfl, rfl, ?_, ⟨_, rfl⟩, _, rfl⟩
  intro c n hn
  have h0 : n = 0 := by have h1 : (1 : BitVec 16).toNat = 1 := rfl; omega
  subst h0
  cases c <;> rfl

theorem witness_HallIgnoresPreDelay : (ready (.hall hall8k)).engine = some (.hall hall8k) := rfl

theorem witness_CapacitiesAreFixed : (ready (.hall hall8k)).engine = some (.hall hall8k) ∧
    noResetNext (withCommand 0x02000000 (ready (.hall hall8k))) ∧
    (∀ k, ¬ executesNext (withCommand 0x02000000 (ready (.hall hall8k))) (.prepare k)) ∧
    ∃ t, step (withCommand 0x02000000 (ready (.hall hall8k))) = .next t := by
  refine ⟨rfl, fun rest h => (nomatch h), fun k hk => ?_, _, rfl⟩
  have hd : (.ok .reset : Except DecodeError Instr) = .ok (.prepare k) := hk.2
  exact nomatch hd

theorem witness_PendingCommandCompletes :
    (let s : State := { withCommand 0 State.reset with inputs := [.read 0x008, .coreTurn] }
    s.busy = true ∧ BusEvent.hardwareReset ∉ s.inputs) := by decide +kernel

theorem witness_StepKeepsInv :
    Inv (prepared .hall { State.reset with arg := ⟨0, 0x40BF4000, 4, 2⟩ }) ∧
    ∃ t, step (prepared .hall { State.reset with arg := ⟨0, 0x40BF4000, 4, 2⟩ }) = .next t := ⟨witness_Inv .hall, _, rfl⟩

end Sys2Proof.Tests
end

section
/-! The statements about the state: the applied parameters' ranges, the identification, status and fault registers, and
the result registers (spec/10_state.md R31 to R38, R46). -/

namespace Sys2Proof.Machine

open Ieee

/-! ### Applied parameters (R46) -/

/-- SET_PARAMS keeps each field in its range: a NaN leaves the applied value, anything else is clamped (R320). -/
theorem applyParam_range {p : ParamIdx} {staged applied : Word}
    (h : fle (parLo.get p) applied = true ∧ fle applied (parHi.get p) = true) :
    fle (parLo.get p) (applyParam p staged applied) = true ∧ fle (applyParam p staged applied) (parHi.get p) = true := by
  unfold applyParam
  split
  · exact h
  · exact clamp_range (by simpa using ‹¬ isNaN staged = true›) (fle_trans h.1 h.2)

theorem appliedParams_ok {s : State} (h : ParamsOk s.par) : ParamsOk (appliedParams s) := fun p => by
  rw [appliedParams, ParamSet.get_ofFn]
  exact applyParam_range (h p)

theorem parDefaults_ok : ParamsOk parDefaults := fun p => by cases p <;> decide

/-- Every command keeps the applied parameters in range: only SET_PARAMS writes them. -/
theorem Ran.paramsOk {s t : State} {i : Instr} (h : Ran s i t) (hs : ParamsOk s.par) : ParamsOk t.par := by
  by_cases hi : i = .setParams
  · subst hi
    cases h with
    | setParams he => exact appliedParams_ok hs
  · rw [h.par hi]; exact hs

theorem step_keeps_paramsOk {s t : State} (hs : ParamsOk s.par) (h : step s = .next t) : ParamsOk t.par := by
  rcases step_next_cases h with ⟨-, -, u, rfl, ⟨c, rfl⟩ | ⟨i, -, hr⟩⟩ | rfl | ⟨a, rfl⟩ | ⟨a, v, rfl⟩ | ⟨-, rfl⟩
  · exact hs
  · exact hr.paramsOk hs
  · exact hs
  · rw [(busRead_keeps a _).1]; exact hs
  · rw [(busWrite_keeps a v _).1]; exact hs
  · exact parDefaults_ok

/-- The finite words are those whose place in the order lies strictly between the infinities. -/
theorem isFinite32_iff_key {a : Word} : isFinite32 a = true ↔ (key32 a).natAbs < binary32.infMag := by
  have hk : (key32 a).natAbs = magOf binary32 a.toNat := by
    unfold key32 orderKey
    split <;> simp
  rw [hk, isFinite32, decide_eq_true_eq]

/-- A word between two finite words is finite. -/
theorem isFinite32_of_between {lo a hi : Word} (hlo : isFinite32 lo = true) (hhi : isFinite32 hi = true)
    (h : fle lo a = true) (k : fle a hi = true) : isFinite32 a = true := by
  rw [isFinite32_iff_key] at *
  obtain ⟨-, -, h⟩ := fle_iff.mp h
  obtain ⟨-, -, k⟩ := fle_iff.mp k
  omega

theorem ParamsOk.finite {par : ParamSet Word} (h : ParamsOk par) (p : ParamIdx) : isFinite32 (par.get p) = true :=
  isFinite32_of_between (by cases p <;> decide : isFinite32 (parLo.get p) = true) (by cases p <;> decide) (h p).1 (h p).2

/-- Settles O47: every step is a command, a host access or reset, and only SET_PARAMS (which clamps) and reset (which
writes the defaults) change the applied parameters; the bounds are finite, so a word between them is. -/
theorem parametersStayInRange : Obligations.ParametersStayInRange :=
  ⟨parDefaults_ok, fun _ _ hs h => step_keeps_paramsOk hs h, fun _ p h => h.finite p⟩

/-! ### What the identification, status and fault registers read, and that they ignore writes (R31 to R34, R104) -/

theorem busReadValue_id (s : State) : busReadValue 0x000 s = (0x41445245, s) := rfl
theorem busReadValue_caps (s : State) : busReadValue 0x004 s = (capsWord, s) := rfl
theorem busReadValue_status (s : State) : busReadValue 0x008 s = (statusWord s, s) := rfl
theorem busReadValue_fault (s : State) : busReadValue 0x00C s = (faultWord s, s) := rfl

theorem busWrite_id (v : Word) (s : State) : busWrite 0x000 v s = s := rfl
theorem busWrite_caps (v : Word) (s : State) : busWrite 0x004 v s = s := rfl
theorem busWrite_status (v : Word) (s : State) : busWrite 0x008 v s = s := rfl
theorem busWrite_fault (v : Word) (s : State) : busWrite 0x00C v s = s := rfl

theorem capsWord_eq : capsWord = 0x07321000 := by decide

/-- Settles O2: the two reads are of constant words, whose fields are computed. -/
theorem idAndCapsAreConstant : Obligations.IdAndCapsAreConstant := fun s v => by
  simp only [busReadValue_caps, capsWord_eq]
  exact ⟨busReadValue_id s, busWrite_id v s, trivial, busWrite_caps v s, by decide, by decide, by decide, by decide⟩

/-! ### `STATUS` in terms of the control state (R33, R40) -/

theorem readyFlag_iff {s : State} : readyFlag s = true ↔ ctlState s = .ready := by
  unfold readyFlag ctlState
  split <;> simp [*]

theorem ctlState_ready_iff {s : State} : ctlState s = .ready ↔ ∃ e, s.engine = some e := by
  rw [← readyFlag_iff, readyFlag, Option.isSome_iff_exists]

/-- `ctl.engine` can be PLATE in READY only. -/
theorem engineFlag_iff {s : State} : engineFlag s = true ↔ ctlState s = .ready ∧ ctlEngine s = .plate := by
  unfold engineFlag ctlState ctlEngine
  split <;> simp

theorem faultAnyFlag_iff {s : State} : faultAnyFlag s = true ↔ s.faultBits ≠ 0 := decide_eq_true_iff

/-- In READY the configuration is one PREPARE accepts. -/
theorem Inv.preparedOk {s : State} (h : Inv s) (hr : ctlState s = .ready) : PreparedOk s.prep := by
  obtain ⟨e, he⟩ := ctlState_ready_iff.mp hr
  exact (h.ready e he).1

theorem channelsField_toNat {s : State} (h : Inv s) :
    (channelsField s).toNat = if ctlState s = .ready then s.prep.numChannels else 0 := by
  simp only [channelsField, readyFlag_iff]
  split
  · rcases (h.preparedOk ‹_›).channels with hc | hc <;> rw [hc] <;> rfl
  · rfl

theorem blockSizeField_toNat {s : State} (h : Inv s) :
    (blockSizeField s).toNat = if ctlState s = .ready then s.prep.maxBlockSize else 0 := by
  simp only [blockSizeField, readyFlag_iff]
  split
  · have hb : s.prep.maxBlockSize ≤ 4096 := (h.preparedOk ‹_›).blockHigh
    rw [BitVec.toNat_ofNat, Nat.mod_eq_of_lt (by omega)]
  · rfl

/-- Settles O3, field by field; the two counts fit their fields because the invariant bounds what PREPARE accepted. -/
theorem statusReportsControlState : Obligations.StatusReportsControlState := by
  refine ⟨by decide, fun s v h => ⟨statusWord s, busReadValue_status s, busWrite_status v s, ?_⟩⟩
  rw [statusWord_ready, statusWord_engine, statusWord_faultAny, statusWord_channels, statusWord_blockSize]
  exact ⟨readyFlag_iff, engineFlag_iff, statusWord_busy s, faultAnyFlag_iff, statusWord_reserved s,
    channelsField_toNat h, blockSizeField_toNat h⟩

/-! ### The fault record only grows (R34, R352, R357) -/

/-- `t` still has every fault bit of `s`, and the first code and info of `s` if a code was recorded. -/
structure ExtendsFaults (s t : State) : Prop where
  bits : ∀ b, s.faultBits.getLsbD b = true → t.faultBits.getLsbD b = true
  first : s.firstCode ≠ 0 → t.firstCode = s.firstCode ∧ t.faultInfo = s.faultInfo

theorem ExtendsFaults.refl (s : State) : ExtendsFaults s s := ⟨fun _ h => h, fun _ => ⟨rfl, rfl⟩⟩

/-- Only the fault record of the later state matters. -/
theorem ExtendsFaults.trans_keeps {s t u : State} (h : ExtendsFaults s t) (k : KeepsFaults t u) : ExtendsFaults s u := by
  obtain ⟨hb, hc, hi⟩ := k
  exact ⟨hb ▸ h.bits, by rw [hc, hi]; exact h.first⟩

theorem KeepsFaults.extendsFaults {s t : State} (h : KeepsFaults s t) : ExtendsFaults s t :=
  (ExtendsFaults.refl s).trans_keeps h

theorem raiseFault_extendsFaults (c : FaultCode) (info : Word) (s : State) : ExtendsFaults s (raiseFault c info s) :=
  ⟨fun b h => by rw [raiseFault_bit, h, Bool.true_or], fun h => raiseFault_later h c info⟩

theorem busRead_extendsFaults (a : BusAddr) (s : State) : ExtendsFaults s (busRead a s) := by
  obtain ⟨-, -, -, -, -, -, ⟨hb, hc, hi⟩ | ⟨c, info, hb, hc, hi⟩⟩ := busRead_keeps a s
  · exact KeepsFaults.extendsFaults ⟨hb, hc, hi⟩
  · exact (raiseFault_extendsFaults c info s).trans_keeps ⟨hb, hc, hi⟩

theorem busWrite_extendsFaults (a : BusAddr) (v : Word) (s : State) : ExtendsFaults s (busWrite a v s) := by
  obtain ⟨-, -, -, -, -, ⟨hb, hc, hi⟩ | ⟨c, info, h⟩⟩ := busWrite_keeps a v s
  · exact KeepsFaults.extendsFaults ⟨hb, hc, hi⟩
  · rw [h]; exact raiseFault_extendsFaults c info s

theorem completeCommand_keepsFaults (s : State) : KeepsFaults s (completeCommand s) := ⟨rfl, rfl, rfl⟩

theorem step_extendsFaults {s t : State} (hr : noResetNext s) (h : step s = .next t) : ExtendsFaults s t := by
  suffices hx : ExtendsFaults (afterEvent s) t from ⟨hx.bits, hx.first⟩
  rcases step_next_cases h with ⟨-, -, u, rfl, hu⟩ | rfl | ⟨a, rfl⟩ | ⟨a, v, rfl⟩ | ⟨⟨rest, hrest⟩, -⟩
  · refine ExtendsFaults.trans_keeps ?_ (completeCommand_keepsFaults u)
    rcases hu with ⟨c, rfl⟩ | ⟨i, -, hran⟩
    · exact raiseFault_extendsFaults c _ _
    · exact hran.faults.extendsFaults
  · exact .refl _
  · exact busRead_extendsFaults a _
  · exact busWrite_extendsFaults a v _
  · exact absurd hrest (hr rest)

/-- Settles O4: a host access or a command leaves the fault record or raises one more fault, and raising only extends
the record. -/
theorem faultRegisterIsSticky : Obligations.FaultRegisterIsSticky := by
  refine ⟨fun s v => busWrite_fault v s,
    fun s => ⟨faultWord s, busReadValue_fault s, faultWord_bits s, faultWord_reserved s, faultWord_first s, faultWord_top s⟩,
    fun c info s => ⟨?_, fun b hb => ?_, fun h => raiseFault_later h c info⟩,
    fun s t hr h => ?_, by decide⟩
  · rw [raiseFault_bit, decide_eq_true rfl, Bool.or_true]
  · rw [raiseFault_bit, decide_eq_false hb, Bool.or_false]
  · obtain ⟨hbits, hfirst⟩ := step_extendsFaults hr h
    exact ⟨hbits, hfirst⟩

/-! ### Result registers (R38) -/

@[simp] theorem writeCmd_res (v : Word) (s : State) : (writeCmd v s).res = s.res := by
  unfold writeCmd
  split <;> rfl

@[simp] theorem writeStage_res (p : ParamIdx) (v : Word) (s : State) : (writeStage p v s).res = s.res := by
  unfold writeStage
  split <;> rfl

theorem writeUnlessBusy_res (a : BusAddr) {s t : State} (h : t.res = s.res) : (writeUnlessBusy a s t).res = s.res := by
  unfold writeUnlessBusy
  split
  · rfl
  · exact h

@[simp] theorem unlessBusy_res (v : Word) (s : State) : (unlessBusy v s).2.res = s.res := by
  unfold unlessBusy
  split <;> rfl

/-- No host write changes a result register: one to `RES` is ignored (R104). -/
theorem busWrite_res (a : BusAddr) (v : Word) (s : State) : (busWrite a v s).res = s.res := by
  unfold busWrite
  split <;> simp [writeUnlessBusy_res]

theorem busReadValue_res (a : BusAddr) (s : State) : (busReadValue a s).2.res = s.res := by
  unfold busReadValue
  split <;> simp

/-- A command that runs keeps each result register that its row of R134 does not name. -/
theorem Ran.res_get_of_not_written {s t : State} {i : Instr} {j : Ix4} (h : Ran s i t)
    (hj : (resWritten i).get j = false) : t.res.get j = s.res.get j := by
  cases h with
  | dlPush | lfoReset | nop | prepare | reset | setParams | processBlock => rfl
  | dlPopFixed | dlReadFrac | apProcess | apSetGain | dampProcess | getParam | dlInfo | apInfo | lfoTick | lfoInfo
    | dampInfo | engInfo =>
    cases j <;> simp [resWritten, Quad.get] at hj ⊢

/-- Settles O38: a command records its fault, which writes no result register, or runs its row, which writes those it
names; host accesses write none. -/
theorem resultRegistersWritten : Obligations.ResultRegistersWritten := by
  refine ⟨fun i s t j h hj => ?_, fun i s t c _ ht => ?_, busWrite_res, busReadValue_res, fun s => rfl⟩
  · rcases exec_next_cases h with ⟨c, rfl⟩ | hran
    · rfl
    · exact hran.res_get_of_not_written hj
  · rw [ht, raiseFault_res]

end Sys2Proof.Machine
end

section
/-! The statements about host accesses to the registers (spec/20_memory.md R104, R106, R112, R113): read-only registers,
bus errors, and the write to `CMD`. -/

namespace Sys2Proof.Machine

/-! ### Bus errors (R106) -/

theorem busReadValue_none {a : BusAddr} (h : busTarget a = .none) (s : State) :
    busReadValue a s = (0, raiseFault .busError (addrInfo a) s) := by
  rw [busReadValue, h]

theorem busWrite_none {a : BusAddr} (h : busTarget a = .none) (v : Word) (s : State) :
    busWrite a v s = raiseFault .busError (addrInfo a) s := by
  rw [busWrite, h]

/-- Settles O7: a misaligned or reserved address names nothing in the address map. -/
theorem busErrorsOnlyRecord : Obligations.BusErrorsOnlyRecord := fun s _ v h =>
  have hnone := busTarget_none h
  ⟨busReadValue_none hnone s, busWrite_none hnone v s⟩

/-! ### The write to `CMD` (R112, R113) -/

theorem busReadValue_cmd (s : State) : busReadValue 0x014 s = (0, s) := rfl
theorem busWrite_cmd (v : Word) (s : State) : busWrite 0x014 v s = writeCmd v s := rfl

theorem writeCmd_idle {s : State} (h : s.busy = false) (v : Word) : writeCmd v s = acceptCommand v s := by
  simp only [writeCmd, h, Bool.false_eq_true, if_false]

theorem writeCmd_busy {s : State} (h : s.busy = true) (v : Word) : writeCmd v s = raiseFault .busyViolation v s := by
  simp only [writeCmd, h, if_true]

theorem acceptCommand_keepsFaults (v : Word) (s : State) : KeepsFaults s (acceptCommand v s) := ⟨rfl, rfl, rfl⟩

theorem acceptCommand_keepsAudio (v : Word) (s : State) : KeepsAudio s (acceptCommand v s) := fun _ => rfl

/-- Settles O8: the write is acceptance while idle, and while busy the recording of fault 5, which keeps the pending
command. -/
theorem commandWriteIsAcceptedOrRefused : Obligations.CommandWriteIsAcceptedOrRefused := by
  refine fun s v => ⟨fun hidle => ⟨acceptCommand v s, ?_, rfl, rfl, rfl, rfl, rfl, rfl, rfl, rfl,
    acceptCommand_keepsFaults v s, acceptCommand_keepsAudio v s, ?_⟩, fun hbusy => ?_⟩
  · rw [busWrite_cmd, writeCmd_idle hidle]
  · rw [busReadValue_status, statusWord_busy, acceptCommand_busy]
  · rw [busWrite_cmd, writeCmd_busy hbusy]
    exact ⟨rfl, raiseFault_pending _ v s, hbusy⟩

/-! ### Read-only registers (R104) -/

/-- The registers the host can only read (R30). -/
def BusTarget.isReadOnly : BusTarget → Bool
  | .id | .caps | .status | .fault | .faultInfo | .res _ => true
  | .cmd | .arg _ | .stage _ | .audio | .none => false

theorem busWrite_of_isReadOnly {a : BusAddr} (h : (busTarget a).isReadOnly = true) (v : Word) (s : State) :
    busWrite a v s = s := by
  rw [busWrite]
  cases ht : busTarget a with
  | id | caps | status | fault | faultInfo | res => rfl
  | cmd | arg | stage | audio | none => rw [ht] at h; cases h

/-- Settles O6: the nine addresses name read-only registers. -/
theorem readOnlyWritesIgnored : Obligations.ReadOnlyWritesIgnored := by
  refine ⟨fun s v a ha => busWrite_of_isReadOnly ?_ v s, busReadValue_cmd⟩
  have hmap : ∀ b : BusAddr, b ∈ ([0x000, 0x004, 0x008, 0x00C, 0x010, 0x030, 0x034, 0x038, 0x03C] : List BusAddr) →
      (busTarget b).isReadOnly = true := by
    rw [← List.all_eq_true]; decide
  exact hmap a ha

end Sys2Proof.Machine
end

section
/-! The unit tables (spec/30_encoding.md R135, R137): which ids name a unit of each class. -/

namespace Sys2Proof.Machine

/-! ### The units of each class, in the order of their ids -/

def hallTanks : List HallUnit := [.tank .i0, .tank .i1]

def hallAllpasses : List HallUnit :=
  [.early .i0 .i0, .early .i0 .i1, .early .i1 .i0, .early .i1 .i1,
    .late .i0 .i0, .late .i0 .i1, .late .i1 .i0, .late .i1 .i1]

def hallDamps : List HallUnit := [.damp .i0, .damp .i1]

def plateFdns : List PlateUnit := [.fdn .i0, .fdn .i1, .fdn .i2, .fdn .i3]

def plateAllpasses : List PlateUnit :=
  [.early .i0 .i0, .early .i0 .i1, .early .i0 .i2, .early .i0 .i3,
    .early .i1 .i0, .early .i1 .i1, .early .i1 .i2, .early .i1 .i3]

def plateDamps : List PlateUnit := [.damp .i0, .damp .i1, .damp .i2, .damp .i3]

/-! ### Ids and units -/

theorem hallUnit_eq_some_iff (u : UnitId) (n : HallUnit) : hallUnit u = some n ↔ u = hallId n :=
  ⟨hallUnit_eq_some, fun h => h ▸ hallUnit_hallId n⟩

theorem plateUnit_eq_some_iff (u : UnitId) (n : PlateUnit) : plateUnit u = some n ↔ u = plateId n :=
  ⟨plateUnit_eq_some, fun h => h ▸ plateUnit_plateId n⟩

/-- Where a column of R137 is read by `table`, and `part` is a part that the units listed in `units` have, an id names
such a part exactly if it is the id of one of those units. -/
theorem bind_isSome_iff_mem_ids {ν α : Type} {table : UnitId → Option ν} {id : ν → UnitId} {part : ν → Option α}
    {units : List ν} (htable : ∀ u n, table u = some n ↔ u = id n)
    (hpart : ∀ n, (part n).isSome = true ↔ n ∈ units) (u : UnitId) :
    ((table u).bind part).isSome = true ↔ u.toNat ∈ units.map fun n => (id n).toNat := by
  rw [List.mem_map, Option.isSome_bind, Option.any_eq_true]
  constructor
  · rintro ⟨n, hn, hp⟩
    exact ⟨n, (hpart n).mp hp, by rw [(htable u n).mp hn]⟩
  · rintro ⟨n, hn, hid⟩
    exact ⟨n, (htable u n).mpr (BitVec.eq_of_toNat_eq hid.symm), (hpart n).mpr hn⟩

/-! ### Which units have a part of each class -/

theorem Hall.line_isSome_iff (h : Hall) (n : HallUnit) :
    (h.line n).isSome = true ↔ n ∈ hallTanks ++ hallAllpasses := by
  rcases n with (_ | _) | ⟨_ | _, _ | _⟩ | ⟨_ | _, _ | _⟩ | _ | _ <;> simp [Hall.line, hallTanks, hallAllpasses]

theorem Hall.allpass_isSome_iff (h : Hall) (n : HallUnit) : (h.allpass n).isSome = true ↔ n ∈ hallAllpasses := by
  rcases n with _ | ⟨_ | _, _ | _⟩ | ⟨_ | _, _ | _⟩ | _ | _ <;> simp [Hall.allpass, hallAllpasses]

theorem Hall.dampUnit_isSome_iff (h : Hall) (n : HallUnit) : (h.dampUnit n).isSome = true ↔ n ∈ hallDamps := by
  rcases n with _ | _ | _ | _ | (_ | _) <;> simp [Hall.dampUnit, hallDamps]

theorem Hall.report_isSome_iff (h : Hall) (n : HallUnit) : (h.report n).isSome = true ↔ n ∈ hallTanks := by
  rcases n with (_ | _) | _ | _ | _ | _ <;> simp [Hall.report, hallTanks]

theorem Plate.line_isSome_iff (p : Plate) (n : PlateUnit) :
    (p.line n).isSome = true ↔ n ∈ plateFdns ++ [.pre] ++ plateAllpasses := by
  rcases n with (_ | _ | _ | _) | _ | ⟨_ | _, _ | _ | _ | _⟩ | _ | _ <;> simp [Plate.line, plateFdns, plateAllpasses]

theorem Plate.allpass_isSome_iff (p : Plate) (n : PlateUnit) : (p.allpass n).isSome = true ↔ n ∈ plateAllpasses := by
  rcases n with _ | _ | ⟨_ | _, _ | _ | _ | _⟩ | _ | _ <;> simp [Plate.allpass, plateAllpasses]

theorem Plate.dampUnit_isSome_iff (p : Plate) (n : PlateUnit) : (p.dampUnit n).isSome = true ↔ n ∈ plateDamps := by
  rcases n with _ | _ | _ | _ | (_ | _ | _ | _) <;> simp [Plate.dampUnit, plateDamps]

theorem Plate.report_isSome_iff (p : Plate) (n : PlateUnit) : (p.report n).isSome = true ↔ n ∈ plateFdns := by
  rcases n with (_ | _ | _ | _) | _ | _ | _ | _ <;> simp [Plate.report, plateFdns]

/-! ### Which ids name a part of each class -/

theorem lineOf_isSome_iff (e : Engine) (u : UnitId) :
    (lineOf e u).isSome = true ↔ u.toNat ∈ delayLineIds (engineKind e) ++ allpassIds (engineKind e) := by
  cases e with
  | hall h => exact bind_isSome_iff_mem_ids hallUnit_eq_some_iff h.line_isSome_iff u
  | plate p => exact bind_isSome_iff_mem_ids plateUnit_eq_some_iff p.line_isSome_iff u

theorem allpassOf_isSome_iff (e : Engine) (u : UnitId) :
    (allpassOf e u).isSome = true ↔ u.toNat ∈ allpassIds (engineKind e) := by
  cases e with
  | hall h => exact bind_isSome_iff_mem_ids hallUnit_eq_some_iff h.allpass_isSome_iff u
  | plate p => exact bind_isSome_iff_mem_ids plateUnit_eq_some_iff p.allpass_isSome_iff u

theorem dampOf_isSome_iff (e : Engine) (u : UnitId) :
    (dampOf e u).isSome = true ↔ u.toNat ∈ dampingIds (engineKind e) := by
  cases e with
  | hall h => exact bind_isSome_iff_mem_ids hallUnit_eq_some_iff h.dampUnit_isSome_iff u
  | plate p => exact bind_isSome_iff_mem_ids plateUnit_eq_some_iff p.dampUnit_isSome_iff u

theorem reportOf_isSome_iff (e : Engine) (u : UnitId) :
    (reportOf e u).isSome = true ↔ u.toNat ∈ modulatedIds (engineKind e) := by
  cases e with
  | hall h => exact bind_isSome_iff_mem_ids hallUnit_eq_some_iff h.report_isSome_iff u
  | plate p => exact bind_isSome_iff_mem_ids plateUnit_eq_some_iff p.report_isSome_iff u

theorem lfoOf_isSome_iff (e : Engine) (u : UnitId) : (lfoOf e u).isSome = true ↔ u.toNat = 0x20 := by
  rw [lfoOf, Option.isSome_ite]
  exact BitVec.toNat_inj.symm

/-- Settles O21: the ids of a class are those of the units that have such a part; an allpass id names its own line. -/
theorem unitTables : Obligations.UnitTables := fun e u =>
  ⟨lineOf_isSome_iff e u, allpassOf_isSome_iff e u, dampOf_isSome_iff e u, lfoOf_isSome_iff e u,
    reportOf_isSome_iff e u, fun _ => lineOf_allpass⟩

end Sys2Proof.Machine
end

section
/-! Step 1 of the checks of spec/30_encoding.md R140: the words that are no command are those that do not decode. -/

namespace Sys2Proof.Machine

/-! ### When each kind of row decodes -/

@[simp] theorem isOk_ok {ε α : Type} (a : α) : (Except.ok a : Except ε α).isOk = true := rfl

@[simp] theorem isOk_error {ε α : Type} (err : ε) : (Except.error err : Except ε α).isOk = false := rfl

/-- A field check in front of the rest of a row. -/
theorem isOk_ite_error {ε α : Type} {p : Prop} [Decidable p] (x : Except ε α) (err : ε) :
    (if p then x else .error err).isOk = true ↔ p ∧ x.isOk = true := by
  split <;> simp [*]

/-- One more admitted value in front of the rest of a row. -/
theorem isOk_ite_ok {ε α : Type} {p : Prop} [Decidable p] (a : α) (x : Except ε α) :
    (if p then .ok a else x).isOk = true ↔ p ∨ x.isOk = true := by
  split <;> simp [*]

theorem unitRow_isOk_iff (v : Word) (mk : UnitId → Instr) : (unitRow v mk).isOk = true ↔ (immOf v).toNat = 0 := by
  simp [unitRow, isOk_ite_error, BitVec.toNat_eq]

theorem bareRow_isOk_iff (v : Word) (i : Instr) :
    (bareRow v i).isOk = true ↔ (unitOf v).toNat = 0 ∧ (immOf v).toNat = 0 := by
  simp [bareRow, isOk_ite_error, BitVec.toNat_eq]

theorem prepareRow_isOk_iff (v : Word) :
    (prepareRow v).isOk = true ↔ (unitOf v).toNat ≤ 0x01 ∧ (immOf v).toNat = 0 := by
  rw [prepareRow, isOk_ite_error, isOk_ite_ok, isOk_ite_error]
  simp only [isOk_ok, and_true]
  bv_omega

theorem getParamRow_isOk_iff (v : Word) :
    (getParamRow v).isOk = true ↔ (unitOf v).toNat = 0 ∧ (immOf v).toNat ≤ 6 := by
  simp [getParamRow, isOk_ite_error, BitVec.toNat_eq, paramIndexOk]

theorem processBlockRow_isOk_iff (v : Word) : (processBlockRow v).isOk = true ↔ (unitOf v).toNat = 0 := by
  simp [processBlockRow, isOk_ite_error, BitVec.toNat_eq]

/-- R141: the reserved opcodes. -/
theorem illegalWord_of_reserved {v : Word} (h : (0x07 ≤ (opcOf v).toNat ∧ (opcOf v).toNat ≤ 0x0F) ∨
    (0x14 ≤ (opcOf v).toNat ∧ (opcOf v).toNat ≤ 0x1F) ∨ (0x23 ≤ (opcOf v).toNat ∧ (opcOf v).toNat ≤ 0x2F) ∨
    (0x33 ≤ (opcOf v).toNat ∧ (opcOf v).toNat ≤ 0x3F) ∨ 0x42 ≤ (opcOf v).toNat) : illegalWord v = true := by
  simp only [illegalWord, Bool.or_eq_true, Bool.not_eq_true', Bool.or_eq_false_iff, Bool.and_eq_false_iff,
    decide_eq_false_iff_not]
  omega

/-- R140 step 1: a word decodes exactly if the table of illegal words does not list it. -/
theorem decode_isOk_iff (v : Word) : (decode v).isOk = true ↔ illegalWord v = false := by
  unfold decode
  split
  case h_20 =>
    rw [isOk_error, illegalWord_of_reserved (by simp only [imp_false] at *; omega)]
    simp
  all_goals simp [illegalWord, unitRow_isOk_iff, bareRow_isOk_iff, prepareRow_isOk_iff, getParamRow_isOk_iff,
    processBlockRow_isOk_iff, *]

theorem decode_eq_error_of_illegalWord {v : Word} (h : illegalWord v = true) : ∃ err, decode v = .error err := by
  cases hd : decode v with
  | error err => exact ⟨err, rfl⟩
  | ok i =>
    have hlegal := (decode_isOk_iff v).mp (by rw [hd]; rfl)
    rw [h] at hlegal
    cases hlegal

theorem decode_eq_ok_of_not_illegalWord {v : Word} (h : illegalWord v = false) : ∃ i, decode v = .ok i := by
  have hok := (decode_isOk_iff v).mpr h
  cases hd : decode v with
  | error err => rw [hd] at hok; cases hok
  | ok i => exact ⟨i, rfl⟩

/-- What decodes is well formed: only GET_PARAM has a condition, which its row checks. The cases are numbered in the
order of `decode`'s rows. -/
theorem decode_wellFormed {v : Word} {i : Instr} (h : decode v = .ok i) : i.wellFormed = true := by
  unfold decode at h
  split at h
  case h_2 => obtain ⟨k, -, -, rfl⟩ := prepareRow_ok h; rfl
  case h_5 => obtain ⟨-, hk, rfl⟩ := getParamRow_ok h; exact hk
  case h_6 => obtain ⟨-, rfl⟩ := processBlockRow_ok h; rfl
  case h_9 => cases h; rfl
  case h_20 => cases h
  case h_1 | h_3 | h_4 => obtain ⟨-, -, rfl⟩ := bareRow_ok h; rfl
  all_goals obtain ⟨-, rfl⟩ := unitRow_ok h; rfl

end Sys2Proof.Machine
end

section
/-! Steps 2 to 4 of the checks of spec/30_encoding.md R140: which command records which fault, and that one that passes
them all runs (R142; spec/60_exceptions.md R351). -/

namespace Sys2Proof.Machine

open Ieee

/-! ### Steps 2 and 3: the state and the unit -/

/-- Steps 2 and 3 pass: a command that needs READY finds an engine prepared, on which its unit exists. -/
def ReadyAndUnitOk (s : State) (i : Instr) : Prop :=
  needsReady i = true → ∃ e, s.engine = some e ∧ unitAllowed (engineKind e) i = true

/-- The statements' form of it. -/
theorem readyAndUnitOk_of {s : State} {i : Instr}
    (h : needsReady i = false ∨ ∃ e, s.engine = some e ∧ unitAllowed (engineKind e) i = true) : ReadyAndUnitOk s i :=
  fun hr => h.resolve_left (by rw [hr]; exact Bool.noConfusion)

/-- GET_PARAM with an index that its row admits names a parameter (R45). -/
theorem paramIdxOf_eq_some {index : BitVec 16} (h : (Instr.getParam index).wellFormed = true) :
    ∃ p, paramIdxOf index.toNat = some p := by
  have hle : index.toNat ≤ 6 := of_decide_eq_true h
  rcases (show index.toNat = 0 ∨ index.toNat = 1 ∨ index.toNat = 2 ∨ index.toNat = 3 ∨ index.toNat = 4 ∨
    index.toNat = 5 ∨ index.toNat = 6 by omega) with h | h | h | h | h | h | h <;> rw [h] <;> exact ⟨_, rfl⟩

/-- Every command but NOP and PREPARE makes the check of step 2 first. -/
theorem exec_eq_whenReady {i : Instr} (hw : i.wellFormed = true) (hr : needsReady i = true) (s : State) :
    ∃ run, exec i s = done (whenReady s run) := by
  cases i with
  | nop | prepare => cases hr
  | getParam index =>
    obtain ⟨p, hp⟩ := paramIdxOf_eq_some hw
    exact ⟨fun _ => setRes0 (s.par.get p) s, by simp only [exec, execGetParam, hp]⟩
  | _ => exact ⟨_, rfl⟩

theorem exec_of_uninit {i : Instr} {s : State} (hw : i.wellFormed = true) (hr : needsReady i = true)
    (he : s.engine = none) : exec i s = .next (raiseFault .badState s.pending s) := by
  obtain ⟨run, h⟩ := exec_eq_whenReady hw hr s
  rw [h, whenReady_none he]; rfl

/-- Step 3 passes where the command's id names a unit: `found` looks it up, and `names` is the table's condition. -/
theorem exists_unit {α : Type} {found : Engine → UnitId → Option α} {names : Engine → UnitId → Prop}
    [∀ e u, Decidable (names e u)] (hf : ∀ e u, (found e u).isSome = true ↔ names e u) {s : State} {u : UnitId}
    (hu : ∃ e, s.engine = some e ∧ decide (names e u) = true) : ∃ e a, s.engine = some e ∧ found e u = some a := by
  obtain ⟨e, he, hu⟩ := hu
  obtain ⟨a, ha⟩ := Option.isSome_iff_exists.mp ((hf e u).mpr (of_decide_eq_true hu))
  exact ⟨e, a, he, ha⟩

/-- Step 3 fails where it names none. -/
theorem withUnit_badUnit {α : Type} {found : Engine → UnitId → Option α} {names : Engine → UnitId → Prop}
    [∀ e u, Decidable (names e u)] (hf : ∀ e u, (found e u).isSome = true ↔ names e u) {s : State} {e : Engine}
    {u : UnitId} (he : s.engine = some e) (hu : decide (names e u) = false) (run : Engine → α → State) :
    done (whenReady s fun e => withUnit s (found e u) (run e)) = .next (raiseFault .badUnit s.pending s) := by
  have hnone : found e u = none :=
    Option.not_isSome_iff_eq_none.mp fun h => of_decide_eq_false hu ((hf e u).mp h)
  rw [whenReady_some he, hnone, withUnit_none]; rfl

theorem exec_of_no_unit {i : Instr} {s : State} {e : Engine} (he : s.engine = some e)
    (hu : unitAllowed (engineKind e) i = false) : exec i s = .next (raiseFault .badUnit s.pending s) := by
  cases i with
  | dlPush u | dlPopFixed u k | dlReadFrac u | dlInfo u =>
    exact withUnit_badUnit lineOf_isSome_iff he hu _
  | apProcess u | apSetGain u | apInfo u =>
    exact withUnit_badUnit allpassOf_isSome_iff he hu _
  | lfoTick u | lfoReset u | lfoInfo u =>
    exact withUnit_badUnit lfoOf_isSome_iff he hu _
  | dampProcess u | dampInfo u =>
    exact withUnit_badUnit dampOf_isSome_iff he hu _
  | engInfo u =>
    exact withUnit_badUnit reportOf_isSome_iff he hu _
  | nop | prepare | reset | setParams | getParam | processBlock => cases hu

/-! ### Step 4: the operands -/

theorem DelayLine.validOffset_iff (l : DelayLine) (k : Nat) : l.validOffset k = true ↔ 1 ≤ k ∧ k + 2 ≤ l.N := by
  simp only [DelayLine.validOffset, Bool.and_eq_true, decide_eq_true_eq]
  omega

theorem DelayLine.validFraction_iff (l : DelayLine) (d : Word) : l.validFraction d = true ↔
    isNaN d = false ∧ fle 0x3F800000 d = true ∧ fle d (nat32 (l.N - 2)) = true := by
  rw [DelayLine.validFraction, Bool.and_eq_true]
  exact ⟨fun h => ⟨(fle_iff.mp h.1).2.1, h⟩, And.right⟩

/-- A condition on the unit that the prepared engine has. -/
theorem forall_unit_iff {α : Type} {found : Engine → Option α} {s : State} {e : Engine} {a : α}
    (he : s.engine = some e) (ha : found e = some a) {P : α → Prop} :
    (∀ e' a', s.engine = some e' → found e' = some a' → P a') ↔ P a := by
  refine ⟨fun h => h e a he ha, fun h e' a' he' ha' => ?_⟩
  cases he.symm.trans he'
  cases ha.symm.trans ha'
  exact h

theorem operandsOk_dlPopFixed_iff {s : State} {e : Engine} {u : UnitId} {l : DelayLine} (he : s.engine = some e)
    (hl : lineOf e u = some l) (k : BitVec 16) : OperandsOk s (.dlPopFixed u k) ↔ l.validOffset k.toNat = true :=
  (forall_unit_iff he hl).trans (l.validOffset_iff _).symm

theorem operandsOk_dlReadFrac_iff {s : State} {e : Engine} {u : UnitId} {l : DelayLine} (he : s.engine = some e)
    (hl : lineOf e u = some l) : OperandsOk s (.dlReadFrac u) ↔ l.validFraction (argF32 s) = true :=
  (forall_unit_iff he hl).trans (l.validFraction_iff _).symm

theorem prepareOk_iff (s : State) : prepareOk s = true ↔ PrepareOperandsOk s := by
  simp only [prepareOk, Bool.and_eq_true, Bool.or_eq_true, decide_eq_true_eq]
  exact ⟨fun ⟨⟨⟨h1, h2⟩, h3, h4⟩, h5⟩ => ⟨h1, h2, h3, h4, h5⟩, fun ⟨h1, h2, h3, h4, h5⟩ => ⟨⟨⟨h1, h2⟩, h3, h4⟩, h5⟩⟩

theorem exec_of_not_operandsOk {i : Instr} {s : State} (hu : ReadyAndUnitOk s i) (ho : ¬ OperandsOk s i) :
    exec i s = .next (raiseFault .precond s.pending s) := by
  cases i with
  | dlPopFixed u k =>
    obtain ⟨e, l, he, hl⟩ := exists_unit lineOf_isSome_iff (hu rfl)
    rw [operandsOk_dlPopFixed_iff he hl, Bool.not_eq_true] at ho
    simp only [exec, execDlPopFixed, done, whenReady_some he, hl, withUnit_some, withPrecond_false ho]
  | dlReadFrac u =>
    obtain ⟨e, l, he, hl⟩ := exists_unit lineOf_isSome_iff (hu rfl)
    rw [operandsOk_dlReadFrac_iff he hl, Bool.not_eq_true] at ho
    simp only [exec, execDlReadFrac, done, whenReady_some he, hl, withUnit_some, withPrecond_false ho]
  | prepare k =>
    have hk : prepareOk s = false := by rw [← Bool.not_eq_true, prepareOk_iff]; exact ho
    simp only [exec, execPrepare, done, withPrecond_false hk]
  | processBlock n =>
    obtain ⟨e, he, -⟩ := hu rfl
    have hn : decide (n.toNat ≤ s.prep.maxBlockSize) = false := decide_eq_false ho
    simp only [exec, execProcessBlock, done, whenReady_some he, withPrecond_false hn]
  | _ => exact absurd trivial ho

/-- A command that passes the checks of all steps runs its row. -/
theorem ran_of_checks {i : Instr} {s : State} (hw : i.wellFormed = true) (hu : ReadyAndUnitOk s i)
    (ho : OperandsOk s i) : ∃ t, Ran s i t := by
  cases i with
  | dlPush u =>
    obtain ⟨e, l, he, hl⟩ := exists_unit lineOf_isSome_iff (hu rfl)
    exact ⟨_, .dlPush he hl⟩
  | dlPopFixed u k =>
    obtain ⟨e, l, he, hl⟩ := exists_unit lineOf_isSome_iff (hu rfl)
    exact ⟨_, .dlPopFixed he hl ((operandsOk_dlPopFixed_iff he hl k).mp ho)⟩
  | dlReadFrac u =>
    obtain ⟨e, l, he, hl⟩ := exists_unit lineOf_isSome_iff (hu rfl)
    exact ⟨_, .dlReadFrac he hl ((operandsOk_dlReadFrac_iff he hl).mp ho)⟩
  | dlInfo u =>
    obtain ⟨e, l, he, hl⟩ := exists_unit lineOf_isSome_iff (hu rfl)
    exact ⟨_, .dlInfo he hl⟩
  | apProcess u =>
    obtain ⟨e, a, he, ha⟩ := exists_unit allpassOf_isSome_iff (hu rfl)
    exact ⟨_, .apProcess he ha⟩
  | apSetGain u =>
    obtain ⟨e, a, he, ha⟩ := exists_unit allpassOf_isSome_iff (hu rfl)
    exact ⟨_, .apSetGain he ha⟩
  | apInfo u =>
    obtain ⟨e, a, he, ha⟩ := exists_unit allpassOf_isSome_iff (hu rfl)
    exact ⟨_, .apInfo he ha⟩
  | lfoTick u =>
    obtain ⟨e, l, he, hl⟩ := exists_unit lfoOf_isSome_iff (hu rfl)
    exact ⟨_, .lfoTick he hl⟩
  | lfoReset u =>
    obtain ⟨e, l, he, hl⟩ := exists_unit lfoOf_isSome_iff (hu rfl)
    exact ⟨_, .lfoReset he hl⟩
  | lfoInfo u =>
    obtain ⟨e, l, he, hl⟩ := exists_unit lfoOf_isSome_iff (hu rfl)
    exact ⟨_, .lfoInfo he hl⟩
  | dampProcess u =>
    obtain ⟨e, d, he, hd⟩ := exists_unit dampOf_isSome_iff (hu rfl)
    exact ⟨_, .dampProcess he hd⟩
  | dampInfo u =>
    obtain ⟨e, d, he, hd⟩ := exists_unit dampOf_isSome_iff (hu rfl)
    exact ⟨_, .dampInfo he hd⟩
  | engInfo u =>
    obtain ⟨e, r, he, hr⟩ := exists_unit reportOf_isSome_iff (hu rfl)
    exact ⟨_, .engInfo he hr⟩
  | nop => exact ⟨_, .nop⟩
  | prepare k => exact ⟨_, .prepare ((prepareOk_iff s).mpr ho)⟩
  | reset => obtain ⟨e, he, -⟩ := hu rfl; exact ⟨_, .reset he⟩
  | setParams => obtain ⟨e, he, -⟩ := hu rfl; exact ⟨_, .setParams he⟩
  | getParam index =>
    obtain ⟨e, he, -⟩ := hu rfl
    obtain ⟨p, hp⟩ := paramIdxOf_eq_some hw
    exact ⟨_, .getParam hp he⟩
  | processBlock n => obtain ⟨e, he, -⟩ := hu rfl; exact ⟨_, .processBlock he ho⟩

/-! ### The whole order -/

theorem exec_of_checks {i : Instr} {s : State} (hw : i.wellFormed = true) (hu : ReadyAndUnitOk s i)
    (ho : OperandsOk s i) : ∃ t, exec i s = .next t ∧ KeepsFaults s t := by
  obtain ⟨t, ht⟩ := ran_of_checks hw hu ho
  exact ⟨t, ht.exec, ht.faults⟩

theorem coreStep_of_illegalWord {s : State} (h : illegalWord s.pending = true) :
    coreStep s = .next (completeCommand (raiseFault .illegalCmd s.pending s)) := by
  obtain ⟨err, hd⟩ := decode_eq_error_of_illegalWord h
  exact coreStep_error hd

theorem raiseFault_keepsHost (c : FaultCode) (info : Word) (s : State) : KeepsHost s (raiseFault c info s) :=
  ⟨rfl, rfl, rfl, rfl, rfl, rfl, rfl, rfl, rfl⟩

theorem raiseFault_keepsAudio (c : FaultCode) (info : Word) (s : State) : KeepsAudio s (raiseFault c info s) :=
  fun _ => rfl

/-- Settles O20: each step's condition by the lemma for that step, and the frame of recording a fault (R142, R352). -/
theorem faultingCommandHasNoEffect : Obligations.FaultingCommandHasNoEffect := by
  refine ⟨fun s h => coreStep_of_illegalWord h, fun i s hw => ⟨?_, ?_, fun hu => ⟨?_, ?_⟩⟩, ?_⟩
  · exact exec_of_uninit hw
  · exact fun e => exec_of_no_unit
  · exact exec_of_not_operandsOk (readyAndUnitOk_of hu)
  · exact exec_of_checks hw (readyAndUnitOk_of hu)
  · rintro c info s t rfl
    exact ⟨raiseFault_keepsHost c info s, raiseFault_keepsAudio c info s, rfl, rfl, rfl, rfl⟩

/-- Settles O17: a word that is not illegal decodes to a well-formed command, and a step of the core completes what that
command's own first failing check, or its row, leaves. -/
theorem checksRunInOrder : Obligations.ChecksRunInOrder := by
  refine fun s => ⟨coreStep_of_illegalWord, fun hlegal => ?_⟩
  obtain ⟨i, hd⟩ := decode_eq_ok_of_not_illegalWord hlegal
  have hw := decode_wellFormed hd
  refine ⟨i, hd, fun hr he => coreStep_ok hd (exec_of_uninit hw hr he),
    fun e he hu => coreStep_ok hd (exec_of_no_unit he hu), fun hu => ?_⟩
  by_cases ho : OperandsOk s i
  · obtain ⟨t, ht, hkeeps⟩ := exec_of_checks hw (readyAndUnitOk_of hu) ho
    exact ⟨t, ht, coreStep_ok hd ht, .inr hkeeps⟩
  · have ht := exec_of_not_operandsOk (readyAndUnitOk_of hu) ho
    exact ⟨_, ht, coreStep_ok hd ht, .inl rfl⟩

end Sys2Proof.Machine
end

section
/-! Delay lines (spec/40_delay_line.md R160 to R174): what a line remembers of its pushes, the clamped offset, the DL
commands, and the commands that report. -/

namespace Sys2Proof.Machine

open Ieee

/-! ### The ring: slots, and reading after a push (R161, R166, R167) -/

/-- A push moves the cursor on by one, so every slot is one push further back. -/
theorem DelayLine.slot_push (l : DelayLine) (x : Word) (k : Nat) : (l.push x).slot (k + 1) = l.slot k := by
  have h : (((l.w + 1) % l.N : Nat) - (k + 1 : Nat) : Int) % l.N = ((l.w : Int) - k) % l.N := by
    rw [Int.natCast_emod, Int.emod_sub_emod]
    congr 1
    omega
  exact congrArg Int.toNat h

/-- Counting back `k < N` places from the cursor, across the wrap or not. -/
theorem DelayLine.slot_eq {l : DelayLine} (h : l.w < l.N) {k : Nat} (hk : k < l.N) :
    l.slot k = if k ≤ l.w then l.w - k else l.w + l.N - k := by
  unfold DelayLine.slot
  split
  · rw [Int.emod_eq_of_lt (by omega) (by omega)]
    omega
  · rw [← Int.add_emod_right, Int.emod_eq_of_lt (by omega) (by omega)]
    omega

theorem DelayLine.slot_zero {l : DelayLine} (h : l.w < l.N) : l.slot 0 = l.w := by
  rw [DelayLine.slot_eq h (by omega), if_pos (Nat.zero_le _), Nat.sub_zero]

/-- The slot a push writes is no other offset's. -/
theorem DelayLine.slot_ne_cursor {l : DelayLine} (h : l.w < l.N) {k : Nat} (h1 : 1 ≤ k) (hk : k < l.N) :
    l.slot k ≠ l.w := by
  rw [DelayLine.slot_eq h hk]
  split <;> omega

theorem DelayLine.popFixed_one_push {l : DelayLine} (h : LineOk l) (x : Word) : (l.push x).popFixed 1 = x := by
  rw [DelayLine.popFixed, DelayLine.slot_push, DelayLine.slot_zero h.cursor]
  exact bufWord_put_same h.rising _ _

theorem DelayLine.popFixed_succ_push {l : DelayLine} (h : LineOk l) (x : Word) {k : Nat} (h1 : 1 ≤ k) (hk : k < l.N) :
    (l.push x).popFixed (k + 1) = l.popFixed k := by
  rw [DelayLine.popFixed, DelayLine.slot_push]
  exact bufWord_put_ne (DelayLine.slot_ne_cursor h.cursor h1 hk) _ _

@[simp] theorem DelayLine.popFixed_clearedLine (n j : Nat) : (clearedLine n).popFixed j = 0 := rfl

/-- After pushes onto any line, offset `j` reads the sample pushed `j` pushes ago, or, older than all of them, what the
line held before. -/
theorem DelayLine.popFixed_pushes {l : DelayLine} (h : LineOk l) (xs : List Word) {j : Nat} (h1 : 1 ≤ j)
    (hj : j ≤ l.N) :
    (xs.foldl DelayLine.push l).popFixed j =
      if j ≤ xs.length then xs.getD (xs.length - j) 0 else l.popFixed (j - xs.length) := by
  induction xs generalizing l with
  | nil => exact (if_neg (Nat.not_le.mpr h1)).symm
  | cons x xs ih =>
    rw [List.foldl_cons, ih (h.push x) hj, List.length_cons]
    rcases Nat.lt_trichotomy j (xs.length + 1) with hlt | heq | hgt
    · rw [if_pos (by omega), if_pos (by omega), show xs.length + 1 - j = (xs.length - j) + 1 by omega,
        List.getD_cons_succ]
    · subst heq
      rw [if_neg (by omega), if_pos (by omega), Nat.add_sub_cancel_left, Nat.sub_self, List.getD_cons_zero,
        DelayLine.popFixed_one_push h]
    · rw [if_neg (by omega), if_neg (by omega), show j - xs.length = (j - (xs.length + 1)) + 1 by omega,
        DelayLine.popFixed_succ_push h x (by omega) (by omega)]

/-- Settles O22: the pushes of any line, on a cleared one. -/
theorem lineRemembersItsPushes : Obligations.LineRemembersItsPushes := fun n xs j h1 hj => by
  rw [DelayLine.popFixed_pushes (LineOk.cleared (by omega)) xs h1 hj, DelayLine.popFixed_clearedLine]

/-! ### The clamped offset (R164, R170) -/

theorem clampDelay_of_nan {d : Word} (h : isNaN d = true) (n : Nat) : clampDelay d n = one32 := if_pos h

theorem clampDelay_of_not_nan {d : Word} (h : isNaN d = false) (n : Nat) :
    clampDelay d n = fmin (fmax d one32) (nat32 (n - 2)) := if_neg (by rw [h]; decide)

theorem nat32_one : nat32 1 = one32 := by decide

/-- A line of three words or more has a valid offset: `1.0 ≤ f32(N - 2)`. -/
theorem one32_le_maxOffset {n : Nat} (h3 : 3 ≤ n) (hn : n < 2 ^ 24) : fle one32 (nat32 (n - 2)) = true :=
  nat32_one ▸ fle_nat32 (by omega) (by omega)

theorem clampDelay_range (d : Word) {n : Nat} (h3 : 3 ≤ n) (hn : n < 2 ^ 24) :
    fle one32 (clampDelay d n) = true ∧ fle (clampDelay d n) (nat32 (n - 2)) = true := by
  have hmax := one32_le_maxOffset h3 hn
  cases hd : isNaN d with
  | true => rw [clampDelay_of_nan hd]; exact ⟨by decide, hmax⟩
  | false => rw [clampDelay_of_not_nan hd]; exact clamp_range hd hmax

theorem clampDelay_of_valid {d : Word} {n : Nat} (h1 : fle one32 d = true) (h2 : fle d (nat32 (n - 2)) = true) :
    clampDelay d n = d := by
  rw [clampDelay_of_not_nan (fle_iff.mp h1).2.1, clamp_self h1 h2]

/-- Settles O26: a clamp into a range that is not empty; `f32` is exact below 2^24. -/
theorem clampedOffsetIsValid : Obligations.ClampedOffsetIsValid := fun d n h3 hn => by
  obtain ⟨hlow, hhigh⟩ := clampDelay_range d h3 hn
  exact ⟨fun h => clampDelay_of_nan h n, fun h => clampDelay_of_not_nan h n, (fle_iff.mp hlow).2.1, hlow, hhigh,
    clampDelay_of_valid, floor_nat32 (by omega) (by omega), ceil_nat32 (by omega) (by omega)⟩

/-! ### The DL commands (R171 to R173) -/

/-- The frame of a command that runs and writes neither the configuration nor a parameter. -/
theorem Ran.keepsRegisters {s t : State} {i : Instr} (h : Ran s i t) (hprep : t.prep = s.prep) (hpar : t.par = s.par) :
    KeepsRegisters s t :=
  ⟨exec_keepsHost h.exec, h.faults, hprep, hpar⟩

/-- On an allpass unit, updating the line updates the line of that allpass only. -/
theorem allpassOf_setLineOf_same {e : Engine} {u : UnitId} {a : Allpass} (h : allpassOf e u = some a) (l : DelayLine) :
    allpassOf (setLineOf e u l) u = some { a with line := l } := by
  rw [setLine_eq_setAllpass h, allpassOf_setAllpassOf_same h]

/-- Settles O23: the command runs its row; the buffer is written at the cursor only, the engine in the one unit only. -/
theorem pushCommand : Obligations.PushCommand := fun s e u l he hl hok => by
  have hran := Ran.dlPush he hl
  exact ⟨_, _, _, hran.exec, setEngine_engine _ _, lineOf_setLineOf_same hl, bufWord_put_same hok.rising _ _,
    fun k hk => bufWord_put_ne hk _ _, rfl, rfl, fun a ha => allpassOf_setLineOf_same ha _,
    KeepsOtherUnits.setLine e u _, hran.keepsRegisters rfl rfl, fun _ => rfl, rfl⟩

/-- The commands on delay lines take every id that names a line. -/
theorem lineId_of_lineOf {e : Engine} {u : UnitId} {l : DelayLine} (h : lineOf e u = some l) :
    decide (u.toNat ∈ delayLineIds (engineKind e) ++ allpassIds (engineKind e)) = true :=
  decide_eq_true ((lineOf_isSome_iff e u).mp (by rw [h]; rfl))

/-- Settles O24: the check of step 4 passes exactly in the range; then the row runs. -/
theorem popFixedCommand : Obligations.PopFixedCommand := fun s e u k l he hl => by
  refine ⟨fun ⟨h1, h2⟩ => ?_, fun hk => ?_⟩
  · have hran := Ran.dlPopFixed he hl ((l.validOffset_iff k.toNat).mpr ⟨h1, by omega⟩)
    exact ⟨_, hran.exec, rfl, rfl, rfl, rfl, rfl, hran.keepsRegisters rfl rfl, fun _ => rfl⟩
  · refine exec_of_not_operandsOk (fun _ => ⟨e, he, lineId_of_lineOf hl⟩) fun ho => hk ?_
    obtain ⟨h1, h2⟩ := (l.validOffset_iff k.toNat).mp ((operandsOk_dlPopFixed_iff he hl k).mp ho)
    exact ⟨h1, by omega⟩

/-- The slot of the second neighbour, as R168 writes it. -/
theorem DelayLine.popFixed_succ (l : DelayLine) (i : Nat) :
    l.popFixed (i + 1) = bufWord l.buf (((l.w : Int) - (i : Int) - 1) % (l.N : Int)).toNat := by
  rw [DelayLine.popFixed, DelayLine.slot, Int.natCast_succ, ← Int.sub_sub]

/-- Settles O25: the check of step 4 passes exactly in the range; then the row runs. -/
theorem readFractionCommand : Obligations.ReadFractionCommand := fun s e u l he hl => by
  refine ⟨fun hd => ?_, fun hd => ?_⟩
  · have hran := Ran.dlReadFrac he hl ((l.validFraction_iff (argF32 s)).mpr hd)
    exact ⟨_, _, _, _, hran.exec, rfl, rfl, l.popFixed_succ _, rfl, rfl, rfl, rfl, rfl,
      hran.keepsRegisters rfl rfl, fun _ => rfl⟩
  · refine exec_of_not_operandsOk (fun _ => ⟨e, he, lineId_of_lineOf hl⟩) fun ho => ?_
    obtain ⟨hnan, hlow, hhigh⟩ : isNaN s.arg.v0 = false ∧ fle 0x3F800000 s.arg.v0 = true ∧
        fle s.arg.v0 (nat32 (l.N - 2)) = true :=
      (l.validFraction_iff _).mp ((operandsOk_dlReadFrac_iff he hl).mp ho)
    simp only [hnan, hlow, hhigh, Bool.false_eq_true, Bool.true_eq_false, or_self] at hd

/-! ### The commands that report (R174, R198, R220, R237, R325) -/

/-- GET_PARAM reports the applied parameter of its index. -/
theorem exec_getParam {s : State} {e : Engine} (he : s.engine = some e) {index : BitVec 16} {p : ParamIdx}
    (hp : paramIdxOf index.toNat = some p) :
    ∃ t, exec (.getParam index) s = .next t ∧ t.res = { s.res with v0 := s.par.get p } :=
  ⟨_, (Ran.getParam hp he).exec, rfl⟩

/-- Settles O35: each command runs its row, which writes exactly the registers it reports in. -/
theorem infoCommandsReport : Obligations.InfoCommandsReport := fun s e u he => by
  refine ⟨fun l hl => ?_, fun a ha => ?_, ?_, fun d hd => ?_, ?_⟩
  · exact ⟨_, (Ran.dlInfo he hl).exec, rfl⟩
  · exact ⟨_, (Ran.apInfo he ha).exec, rfl⟩
  · exact ⟨_, (Ran.lfoInfo he (lfoOf_eq_some.mpr ⟨rfl, rfl⟩)).exec, rfl⟩
  · exact ⟨_, (Ran.dampInfo he hd).exec, rfl⟩
  · exact ⟨exec_getParam he (p := .roomSize) rfl, exec_getParam he (p := .decayTime) rfl,
      exec_getParam he (p := .damping) rfl, exec_getParam he (p := .modRate) rfl, exec_getParam he (p := .modDepth) rfl,
      exec_getParam he (p := .preDelay) rfl, exec_getParam he (p := .mix) rfl⟩

end Sys2Proof.Machine
end

section
/-! The allpass commands (spec/41_allpass.md R190 to R198): one sample through a stage, and the clamped gain. -/

namespace Sys2Proof.Machine

open Ieee

/-! ### AP_PROCESS (R193, R196) -/

/-- Settles O28: the command runs its row; the stage's buffer is written at the cursor only, the engine in the one unit
only. -/
theorem allpassCommand : Obligations.AllpassCommand := fun s e u a he ha hok => by
  have hran := Ran.apProcess he ha
  exact ⟨_, _, _, _, _, hran.exec, setEngine_engine _ s, allpassOf_setAllpassOf_same ha, rfl, rfl, rfl,
    bufWord_put_same hok.rising _ _, fun k hk => bufWord_put_ne hk _ _, rfl, rfl, rfl, rfl, rfl, rfl, rfl,
    KeepsOtherUnits.setAllpass ha, hran.keepsRegisters rfl rfl, fun _ => rfl⟩

/-! ### AP_SET_GAIN (R194, R197) -/

theorem clampGain_of_nan {g : Word} (h : isNaN g = true) (P : Preset) : clampGain P g = 0 := if_pos h

theorem clampGain_of_not_nan {g : Word} (h : isNaN g = false) (P : Preset) :
    clampGain P g = fmin (fmax g 0) P.apGainMax := if_neg (by rw [h]; decide)

/-- `-0.0` is in `[+0.0, apGainMax]`, since the two zeros compare equal, and a clamp leaves a word of its range as it is. -/
theorem clampGain_negZero : clampGain preset 0x80000000 = 0x80000000 := by
  rw [clampGain_of_not_nan (by decide)]
  exact clamp_self (by decide) (by decide)

/-- Settles O29: the command runs its row, which stores and reports the clamped gain in the one unit only. -/
theorem setGainCommand : Obligations.SetGainCommand := fun s e u a he ha => by
  have hran := Ran.apSetGain he ha
  obtain ⟨hlow, hhigh⟩ := clampGain_range (argF32 s)
  exact ⟨_, _, _, hran.exec, setEngine_engine _ s, allpassOf_setAllpassOf_same ha, rfl, rfl, rfl, rfl, hlow, hhigh,
    fun h => clampGain_of_nan h preset, fun h => clampGain_of_not_nan h preset,
    fun h => (congrArg (clampGain preset) h).trans clampGain_negZero,
    KeepsOtherUnits.setAllpass ha, hran.keepsRegisters rfl rfl, fun _ => rfl⟩

end Sys2Proof.Machine
end

section
/-! The oscillator commands (spec/42_lfo.md R213, R218, R219): one tick, and the restart of the phase. -/

namespace Sys2Proof.Machine

open Ieee

/-- Id 0x20 names the oscillator of both engines (R211). -/
theorem lfoOf_lfoId (e : Engine) : lfoOf e 0x20 = some (engineLfo e) := lfoOf_eq_some.mpr ⟨rfl, rfl⟩

/-! ### LFO_TICK (R213, R218) -/

@[simp] theorem Lfo.tick_delta (l : Lfo) : l.tick.1.delta = l.delta := rfl

@[simp] theorem Lfo.tick_depth (l : Lfo) : l.tick.1.depth = l.depth := rfl

theorem Lfo.nextTheta_of_reached {l : Lfo} (h : fle twoPi32 (fadd l.theta l.delta) = true) :
    l.nextTheta = fsub (fadd l.theta l.delta) twoPi32 := if_pos h

theorem Lfo.nextTheta_of_not_reached {l : Lfo} (h : fle twoPi32 (fadd l.theta l.delta) = false) :
    l.nextTheta = fadd l.theta l.delta := if_neg (by rw [h]; decide)

/-- Settles O30: the command runs its row, which reports the outputs of the phase before and writes the phase only; the two
cases of the wrap are those of `nextTheta`. -/
theorem lfoTickCommand : Obligations.LfoTickCommand := fun s e he => by
  have hran := Ran.lfoTick he (lfoOf_lfoId e)
  have hlfo : engineLfo (setEngineLfo e (engineLfo e).tick.1) = (engineLfo e).tick.1 := engineLfo_setEngineLfo e _
  exact ⟨_, _, _, hran.exec, setEngine_engine _ s, rfl, rfl, rfl, rfl, rfl,
    fun h => (congrArg Lfo.theta hlfo).trans (Lfo.nextTheta_of_reached h),
    fun h => (congrArg Lfo.theta hlfo).trans (Lfo.nextTheta_of_not_reached h),
    (congrArg Lfo.delta hlfo).trans (Lfo.tick_delta _), (congrArg Lfo.depth hlfo).trans (Lfo.tick_depth _),
    KeepsOtherUnits.setLfo e _, hran.keepsRegisters rfl rfl, fun _ => rfl⟩

/-! ### LFO_RESET (R219) -/

@[simp] theorem Lfo.restart_delta (l : Lfo) : l.restart.delta = l.delta := rfl

@[simp] theorem Lfo.restart_depth (l : Lfo) : l.restart.depth = l.depth := rfl

@[simp] theorem setEngineLfo_setEngineLfo (e : Engine) (l l' : Lfo) :
    setEngineLfo (setEngineLfo e l) l' = setEngineLfo e l' := by cases e <;> rfl

@[simp] theorem setEngine_setEngine (e e' : Engine) (s : State) : setEngine e' (setEngine e s) = setEngine e' s := rfl

theorem exec_lfoReset {s : State} {e : Engine} (he : s.engine = some e) :
    exec (.lfoReset 0x20) s = .next (setEngine (setEngineLfo e (engineLfo e).restart) s) :=
  (Ran.lfoReset he (lfoOf_lfoId e)).exec

/-- A second restart finds the phase already restarted. -/
theorem exec_lfoReset_lfoReset (s : State) (e : Engine) :
    exec (.lfoReset 0x20) (setEngine (setEngineLfo e (engineLfo e).restart) s) =
      .next (setEngine (setEngineLfo e (engineLfo e).restart) s) := by
  rw [exec_lfoReset (setEngine_engine _ s), engineLfo_setEngineLfo, Lfo.restart_restart, setEngineLfo_setEngineLfo,
    setEngine_setEngine]

/-- Settles O31: the command runs its row, which writes the phase only, and restarting is idempotent. -/
theorem lfoResetCommand : Obligations.LfoResetCommand := fun s e he => by
  have hran := Ran.lfoReset he (lfoOf_lfoId e)
  have hlfo : engineLfo (setEngineLfo e (engineLfo e).restart) = (engineLfo e).restart := engineLfo_setEngineLfo e _
  exact ⟨_, _, hran.exec, setEngine_engine _ s, congrArg Lfo.theta hlfo,
    (congrArg Lfo.delta hlfo).trans (Lfo.restart_delta _), (congrArg Lfo.depth hlfo).trans (Lfo.restart_depth _),
    KeepsOtherUnits.setLfo e _, hran.keepsRegisters rfl rfl, fun _ => rfl, setEngine_res _ s, exec_lfoReset_lfoReset s e⟩

end Sys2Proof.Machine
end

section
/-! The damping command (spec/43_damping.md R233, R236): one sample through the three stages of a chain. -/

namespace Sys2Proof.Machine

open Ieee

/-! ### The stages of a chain (R233) -/

/-- `y2` of R233, the input of the psychoacoustic stage. -/
def Damp.psyInput (d : Damp) (x : Word) : Word :=
  if d.hpEn then fsub (d.process x).1.sLP (d.process x).1.sHP else (d.process x).1.sLP

theorem Damp.process_sLP (d : Damp) (x : Word) :
    (d.process x).1.sLP = fadd (fmul d.gLP d.sLP) (fmul d.oLP x) := rfl

theorem Damp.process_highPass_of_enabled {d : Damp} (h : d.hpEn = true) (x : Word) :
    (d.process x).1.sHP = fadd (fmul d.gHP d.sHP) (fmul d.oHP (d.process x).1.sLP) ∧
      d.psyInput x = fsub (d.process x).1.sLP (d.process x).1.sHP :=
  ⟨if_pos h, if_pos h⟩

theorem Damp.process_highPass_of_disabled {d : Damp} (h : d.hpEn = false) (x : Word) :
    (d.process x).1.sHP = d.sHP ∧ d.psyInput x = (d.process x).1.sLP :=
  have hn : ¬ d.hpEn = true := by rw [h]; decide
  ⟨if_neg hn, if_neg hn⟩

theorem Damp.process_sPSY (d : Damp) (x : Word) :
    (d.process x).1.sPSY = fadd (fmul d.gPSY d.sPSY) (fmul d.oPSY (d.psyInput x)) := rfl

theorem Damp.process_output (d : Damp) (x : Word) : (d.process x).2 = (d.process x).1.sPSY := rfl

/-- A sample changes the three states only. -/
theorem Damp.process_keepsCoefficients (d : Damp) (x : Word) :
    { (d.process x).1 with sLP := d.sLP, sHP := d.sHP, sPSY := d.sPSY } = d := rfl

/-! ### DAMP_PROCESS (R236) -/

/-- Settles O33: the command runs its row, which is `process` of the one unit; the two cases of the high-pass are those of
`hpEn`. -/
theorem dampingCommand : Obligations.DampingCommand := fun s e u d he hd => by
  have hran := Ran.dampProcess he hd
  exact ⟨_, _, _, d.psyInput (argF32 s), hran.exec, setEngine_engine _ s, dampOf_setDampOf_same hd,
    d.process_sLP _, fun h => Damp.process_highPass_of_enabled h _, fun h => Damp.process_highPass_of_disabled h _,
    d.process_sPSY _, d.process_output _, d.process_keepsCoefficients _, rfl, rfl, rfl,
    KeepsOtherUnits.setDamp, hran.keepsRegisters rfl rfl, fun _ => rfl⟩

end Sys2Proof.Machine
end

section
/-! One sample of the Hall engine (spec/44_hall.md R255, R256): each part of the engine after it, and the Hall units by
their ids (R137). -/

namespace Sys2Proof.Machine

open Ieee

/-! ### A cascade of two stages (R199) -/

/-- The second stage takes the output of the first. -/
theorem cascade2_stages (s : Pair Allpass) (x : Word) :
    ∃ a, s.v0.process x = ((cascade2 s x).1.v0, a) ∧ s.v1.process a = ((cascade2 s x).1.v1, (cascade2 s x).2) :=
  ⟨_, rfl, rfl⟩

/-! ### The steps of `hall.sample` (R255) -/

/-- The two words of a frame, by channel. -/
def Frame.channels (x : Frame) : Pair Word := ⟨x.l, x.r⟩

/-- `r[c]` of R255: what step 3 reads from tank `c`, at the delay step 2 leaves. -/
def Hall.tankOut (P : Preset) (h : Hall) (x : Frame) (c : Ix2) : Word :=
  (h.tank.get c).readClamped ((h.sample P x).1.dcur.get c)

section
variable (P : Preset) (h : Hall) (x : Frame)

@[simp] theorem Hall.sample_lfo : (h.sample P x).1.lfo = h.lfo.tick.1 := rfl

@[simp] theorem Hall.sample_base : (h.sample P x).1.base = h.base := rfl

@[simp] theorem Hall.sample_decay : (h.sample P x).1.decay = h.decay := rfl

/-- Steps 1 and 2: the left tank's delay follows the normal output of the tick, the right one's the quadrature output. -/
theorem Hall.sample_dcur : (h.sample P x).1.dcur =
    ⟨slew P h.dcur.v0 (modTarget h.base.v0 P.hallModFrac h.lfo.tick.2.n),
      slew P h.dcur.v1 (modTarget h.base.v1 P.hallModFrac h.lfo.tick.2.q)⟩ := rfl

/-- Step 4, late diffusion of what the tank gave. -/
theorem Hall.sample_late (c : Ix2) :
    (h.sample P x).1.late.get c = (cascade2 (h.late.get c) (h.tankOut P x c)).1 := by cases c <;> rfl

/-- Step 4, damping of the diffused word, which is the wet word of step 8. -/
theorem Hall.sample_damp (c : Ix2) : (h.damp.get c).process (cascade2 (h.late.get c) (h.tankOut P x c)).2 =
    ((h.sample P x).1.damp.get c, (h.sample P x).2.channels.get c) := by cases c <;> rfl

/-- Step 5. -/
theorem Hall.sample_early (c : Ix2) :
    (h.sample P x).1.early.get c = (cascade2 (h.early.get c) (x.channels.get c)).1 := by cases c <;> rfl

/-- Step 6: the feedback pushed is the one of the sample before (R256). -/
theorem Hall.sample_tank (c : Ix2) : (h.sample P x).1.tank.get c = (h.tank.get c).push
    (fadd (fmul P.hallTankIn (cascade2 (h.early.get c) (x.channels.get c)).2) (fmul P.hallTankIn (h.fb.get c))) := by
  cases c <;> rfl

/-- Step 7: both words from both wet words. -/
theorem Hall.sample_fb : (h.sample P x).1.fb =
    ⟨fmul (fadd (h.sample P x).2.l (fmul P.hallCrossfeed (h.sample P x).2.r)) h.decay,
      fmul (fadd (h.sample P x).2.r (fmul P.hallCrossfeed (h.sample P x).2.l)) h.decay⟩ := rfl

/-- Step 4 whole: the two stages of the late cascade, and the damping chain on their output. -/
theorem Hall.sample_lateAndDamp (c : Ix2) : ∃ a0 a1,
    (h.late.get c).v0.process (h.tankOut P x c) = (((h.sample P x).1.late.get c).v0, a0) ∧
      (h.late.get c).v1.process a0 = (((h.sample P x).1.late.get c).v1, a1) ∧
      (h.damp.get c).process a1 = ((h.sample P x).1.damp.get c, (h.sample P x).2.channels.get c) := by
  obtain ⟨a0, h0, h1⟩ := cascade2_stages (h.late.get c) (h.tankOut P x c)
  rw [Hall.sample_late]
  exact ⟨a0, _, h0, h1, h.sample_damp P x c⟩

end

/-! ### The Hall units by id (R137) -/

section
variable (h : Hall) (n : HallUnit)

theorem lineOf_hallId : lineOf (.hall h) (hallId n) = h.line n := by rw [lineOf, hallUnit_hallId, Option.bind_some]

theorem allpassOf_hallId : allpassOf (.hall h) (hallId n) = h.allpass n := by
  rw [allpassOf, hallUnit_hallId, Option.bind_some]

theorem dampOf_hallId : dampOf (.hall h) (hallId n) = h.dampUnit n := by rw [dampOf, hallUnit_hallId, Option.bind_some]

end

/-- Settles O53: each step of R255 by its lemma, at the constants of the preset, and each unit by its id. -/
theorem hallSample : Obligations.HallSample := fun h x => by
  have line := lineOf_hallId h
  have allpass := allpassOf_hallId h
  have damp := dampOf_hallId h
  have early (c : Ix2) : ∃ e0, (h.early.get c).v0.process (match c with | .i0 => x.l | .i1 => x.r) =
        (((h.sample preset x).1.early.get c).v0, e0) ∧ (h.early.get c).v1.process e0 =
        (((h.sample preset x).1.early.get c).v1, (cascade2 (h.early.get c) (x.channels.get c)).2) := by
    rw [Hall.sample_early]
    cases c with
    | i0 => exact cascade2_stages h.early.v0 x.l
    | i1 => exact cascade2_stages h.early.v1 x.r
  exact ⟨(h.sample preset x).1, ⟨h.tankOut preset x .i0, h.tankOut preset x .i1⟩, (h.sample preset x).2.channels,
    ⟨(cascade2 h.early.v0 x.l).2, (cascade2 h.early.v1 x.r).2⟩, rfl, h.sample_lfo preset x,
    congrArg Pair.v0 (h.sample_dcur preset x), congrArg Pair.v1 (h.sample_dcur preset x),
    fun c => by cases c <;> rfl,
    fun c => by cases c <;> exact h.sample_lateAndDamp preset x _,
    fun c => by cases c <;> exact early _,
    fun c => by cases c <;> exact h.sample_tank preset x _,
    congrArg Pair.v0 (h.sample_fb preset x), congrArg Pair.v1 (h.sample_fb preset x),
    h.sample_base preset x, h.sample_decay preset x,
    ⟨line (.tank .i0), line (.tank .i1)⟩,
    ⟨allpass (.early .i0 .i0), allpass (.early .i0 .i1), allpass (.early .i1 .i0), allpass (.early .i1 .i1)⟩,
    ⟨allpass (.late .i0 .i0), allpass (.late .i0 .i1), allpass (.late .i1 .i0), allpass (.late .i1 .i1)⟩,
    damp (.damp .i0), damp (.damp .i1)⟩

end Sys2Proof.Machine
end

section
/-! The applied pre-delay, which the Hall engine does not use (spec/44_hall.md R254): its coefficients come from the other
parameters, and PROCESS_BLOCK passes the pre-delay by. -/

namespace Sys2Proof.Machine

/-- `s` with another applied pre-delay (R45). -/
def State.setPreDelay (x : Word) (s : State) : State := { s with par := { s.par with preDelay := x } }

@[simp] theorem State.setPreDelay_engine (x : Word) (s : State) : (s.setPreDelay x).engine = s.engine := rfl

@[simp] theorem State.setPreDelay_prep (x : Word) (s : State) : (s.setPreDelay x).prep = s.prep := rfl

@[simp] theorem State.setPreDelay_pending (x : Word) (s : State) : (s.setPreDelay x).pending = s.pending := rfl

theorem State.setPreDelay_keepsAudio (x : Word) (s : State) : KeepsAudio s (s.setPreDelay x) := fun _ => rfl

/-! ### The coefficients (R252) -/

theorem Hall.recompute_preDelay (P : Preset) (par : ParamSet Word) (fs : DWord) (x : Word) (h : Hall) :
    h.recompute P { par with preDelay := x } fs = h.recompute P par fs := rfl

theorem Hall.build_preDelay (P : Preset) (fs : DWord) (par : ParamSet Word) (x : Word) :
    Hall.build P fs { par with preDelay := x } = Hall.build P fs par := by
  simp only [Hall.build, Hall.recompute_preDelay]

/-! ### PROCESS_BLOCK (R330) -/

/-- A block reads `mix` of the applied parameters alone. -/
theorem processed_setPreDelay (k : Nat) (e : Engine) (x : Word) (s : State) :
    processed k e (s.setPreDelay x) = (processed k e s).setPreDelay x := rfl

theorem raiseFault_setPreDelay (c : FaultCode) (info x : Word) (s : State) :
    raiseFault c info (s.setPreDelay x) = (raiseFault c info s).setPreDelay x := rfl

/-- On a prepared engine a block runs, or is too long and records its fault. -/
theorem exec_processBlock {s : State} {e : Engine} (he : s.engine = some e) (k : BitVec 16) :
    exec (.processBlock k) s = .next (if k.toNat ≤ s.prep.maxBlockSize then processed k.toNat e s
      else raiseFault .precond s.pending s) := by
  split
  · exact (Ran.processBlock he ‹_›).exec
  · exact exec_of_not_operandsOk (i := .processBlock k) (fun _ => ⟨e, he, rfl⟩) ‹_›

/-- PROCESS_BLOCK commutes with a change of the pre-delay, whichever engine is prepared: the engine takes the pre-delay up
at PREPARE and at SET_PARAMS only. -/
theorem exec_processBlock_setPreDelay {s : State} {e : Engine} (he : s.engine = some e) (k : BitVec 16) (x : Word) :
    ∃ t, exec (.processBlock k) s = .next t ∧ exec (.processBlock k) (s.setPreDelay x) = .next (t.setPreDelay x) := by
  refine ⟨_, exec_processBlock he k, ?_⟩
  rw [exec_processBlock (s := s.setPreDelay x) he, processed_setPreDelay, raiseFault_setPreDelay, State.setPreDelay_prep,
    State.setPreDelay_pending, apply_ite (State.setPreDelay x)]

/-- Settles O55: the coefficients do not read the pre-delay, and a block commutes with changing it. -/
theorem hallIgnoresPreDelay : Obligations.HallIgnoresPreDelay := fun s h x k fs he => by
  obtain ⟨t, ht, ht'⟩ := exec_processBlock_setPreDelay he k x
  exact ⟨congrArg Engine.hall (Hall.build_preDelay preset fs s.par x),
    congrArg Engine.hall (Hall.recompute_preDelay preset s.par fs x h),
    t, t.setPreDelay x, ht, ht', t.setPreDelay_engine x, t.setPreDelay_keepsAudio x⟩

end Sys2Proof.Machine
end

section
/-! One sample of the Plate engine (spec/45_plate.md R285 to R287): each part of the engine after it, and the Plate units
by their ids (R137). -/

namespace Sys2Proof.Machine

open Ieee

/-! ### A cascade of four stages (R199) -/

/-- Each later stage takes the output of the one before. -/
theorem cascade4_stages (s : Quad Allpass) (x : Word) : ∃ a b c,
    s.v0.process x = ((cascade4 s x).1.v0, a) ∧ s.v1.process a = ((cascade4 s x).1.v1, b) ∧
      s.v2.process b = ((cascade4 s x).1.v2, c) ∧ s.v3.process c = ((cascade4 s x).1.v3, (cascade4 s x).2) :=
  ⟨_, _, _, rfl, rfl, rfl, rfl⟩

/-! ### The steps of `plate.sample` (R285) -/

/-- `p[c]` of R285: what step 1 reads from the pre-delay line for channel `c`. -/
def Plate.preOut (p : Plate) (c : Ix2) : Word := p.pre.readClamped (p.preD.get c)

/-- The output of channel `c`'s early cascade (R285 step 2). -/
def Plate.earlyOut (p : Plate) (c : Ix2) : Word := (cascade4 (p.early.get c) (p.preOut c)).2

/-- `u` of R285: the mono sum that step 6 injects. -/
def Plate.injected (p : Plate) : Word := fmul half32 (fadd (p.earlyOut .i0) (p.earlyOut .i1))

/-- The modulation words of the four lines, from one tick (R215, R285 step 3). -/
def Lfo.plateMod (l : Lfo) : Quad Word := ⟨l.tick.2.n, l.tick.2.q, fneg l.tick.2.n, fneg l.tick.2.q⟩

/-- `o` of R285: what step 4 reads from the four lines, at the delays step 3 leaves. -/
def Plate.lineOut (P : Preset) (p : Plate) (x : Frame) : Quad Word :=
  p.fdn.zipWith DelayLine.readClamped (p.sample P x).1.dcur

/-- What step 6 feeds to the damping chains of the four lines: scaled feedback and injection. -/
def Plate.fedBack (P : Preset) (p : Plate) (x : Frame) : Quad Word :=
  (hadamard P (p.lineOut P x)).zipWith (fun hi inj => fadd (fmul p.g hi) (fmul inj p.injected)) P.plateInj

/-- What step 6 writes to the four lines: the damped words. -/
def Plate.written (P : Preset) (p : Plate) (x : Frame) : Quad Word :=
  (p.damp.zipWith Damp.process (p.fedBack P x)).map Prod.snd

theorem Quad.get_zipWith {α β γ : Type} (f : α → β → γ) (p : Quad α) (q : Quad β) (i : Ix4) :
    (p.zipWith f q).get i = f (p.get i) (q.get i) := by cases i <;> rfl

section
variable (P : Preset) (p : Plate) (x : Frame)

@[simp] theorem Plate.sample_lfo : (p.sample P x).1.lfo = p.lfo.tick.1 := rfl

@[simp] theorem Plate.sample_base : (p.sample P x).1.base = p.base := rfl

@[simp] theorem Plate.sample_g : (p.sample P x).1.g = p.g := rfl

@[simp] theorem Plate.sample_preD : (p.sample P x).1.preD = p.preD := rfl

/-- Step 1: the mono input is pushed. -/
theorem Plate.sample_pre : (p.sample P x).1.pre = p.pre.push (fmul half32 (fadd x.l x.r)) := rfl

/-- Step 2: the cascades take what step 1 read, before its push. -/
theorem Plate.sample_early (c : Ix2) :
    (p.sample P x).1.early.get c = (cascade4 (p.early.get c) (p.preOut c)).1 := by cases c <;> rfl

/-- Step 3: each delay is slewed towards its modulated base. -/
theorem Plate.sample_dcur (i : Ix4) : (p.sample P x).1.dcur.get i =
    slew P (p.dcur.get i) (modTarget (p.base.get i) P.plateModFrac (p.lfo.plateMod.get i)) := by cases i <;> rfl

/-- Step 4. -/
theorem Plate.lineOut_get (i : Ix4) :
    (p.lineOut P x).get i = (p.fdn.get i).readClamped ((p.sample P x).1.dcur.get i) := Quad.get_zipWith ..

/-- Step 6: the damping chain of each line runs once, on that line's fed-back word. -/
theorem Plate.sample_damp (i : Ix4) : (p.damp.get i).process ((p.fedBack P x).get i) =
    ((p.sample P x).1.damp.get i, (p.written P x).get i) := by cases i <;> rfl

/-- Step 6: all four lines are pushed after they are read (R287). -/
theorem Plate.sample_fdn (i : Ix4) :
    (p.sample P x).1.fdn.get i = (p.fdn.get i).push ((p.written P x).get i) := by cases i <;> rfl

/-- Step 7: the wet frame decodes the raw line outputs (R286). -/
theorem Plate.sample_wet : (p.sample P x).2 = plateDecode P (p.lineOut P x) := rfl

/-- Step 2 whole: the four stages of a channel's cascade. -/
theorem Plate.sample_earlyStages (c : Ix2) : ∃ v0 v1 v2,
    (p.early.get c).v0.process (p.preOut c) = (((p.sample P x).1.early.get c).v0, v0) ∧
      (p.early.get c).v1.process v0 = (((p.sample P x).1.early.get c).v1, v1) ∧
      (p.early.get c).v2.process v1 = (((p.sample P x).1.early.get c).v2, v2) ∧
      (p.early.get c).v3.process v2 = (((p.sample P x).1.early.get c).v3, p.earlyOut c) := by
  rw [Plate.sample_early]
  exact cascade4_stages (p.early.get c) (p.preOut c)

end

/-! ### The Plate units by id (R137) -/

section
variable (p : Plate) (n : PlateUnit)

theorem lineOf_plateId : lineOf (.plate p) (plateId n) = p.line n := by
  rw [lineOf, plateUnit_plateId, Option.bind_some]

theorem allpassOf_plateId : allpassOf (.plate p) (plateId n) = p.allpass n := by
  rw [allpassOf, plateUnit_plateId, Option.bind_some]

theorem dampOf_plateId : dampOf (.plate p) (plateId n) = p.dampUnit n := by
  rw [dampOf, plateUnit_plateId, Option.bind_some]

end

/-- Settles O54: each step of R285 by its lemma, at the constants of the preset, and each unit by its id. -/
theorem plateSample : Obligations.PlateSample := fun p x => by
  have fdn (i : Ix4) := lineOf_plateId p (.fdn i)
  have early (c : Ix2) (k : Ix4) := allpassOf_plateId p (.early c k)
  have damp (i : Ix4) := dampOf_plateId p (.damp i)
  exact ⟨(p.sample preset x).1, p.lineOut preset x, p.lfo.plateMod, p.written preset x,
    ⟨p.earlyOut .i0, p.earlyOut .i1⟩, p.injected,
    p.sample_pre preset x,
    fun c => by cases c <;> exact p.sample_earlyStages preset x _,
    rfl, p.sample_lfo preset x, ⟨rfl, rfl, rfl, rfl⟩,
    p.sample_dcur preset x,
    p.lineOut_get preset x,
    fun i => by cases i <;> exact p.sample_damp preset x _,
    p.sample_fdn preset x,
    Prod.ext rfl (p.sample_wet preset x),
    p.sample_base preset x, p.sample_g preset x, p.sample_preD preset x,
    fun i => by specialize fdn i; cases i <;> exact fdn,
    lineOf_plateId p .pre,
    fun k => by specialize early .i0 k; cases k <;> exact early,
    fun k => by specialize early .i1 k; cases k <;> exact early,
    fun i => by specialize damp i; cases i <;> exact damp⟩

end Sys2Proof.Machine
end

section
/-! NOP, PREPARE and ENG_INFO (spec/46_host_commands.md R312 to R314, R335): what they read, and what a report names. -/

namespace Sys2Proof.Machine

/-! ### NOP (R312) -/

/-- Settles O39: the row of NOP needs no engine and leaves the state it finds. -/
theorem nopDoesNothing : Obligations.NopDoesNothing := fun _ => Ran.nop.exec

/-! ### PREPARE (R313, R314) -/

/-- The checks of PREPARE read the operands alone. -/
theorem prepareOk_congr {s s' : State} (h : s.arg = s'.arg) : prepareOk s = prepareOk s' := by
  unfold prepareOk argF64 argU32₂ argU32₃
  rw [h]

theorem prepared_prep_congr {s s' : State} (k : EngineKind) (h : s.arg = s'.arg) :
    (prepared k s).prep = (prepared k s').prep := by
  simp only [prepared_prep, argF64, argU32₂, argU32₃, h]

/-- The engine is built from the sample rate and the applied parameters alone. -/
theorem prepared_engine_congr {s s' : State} (k : EngineKind) (h : s.arg = s'.arg) (hpar : s.par = s'.par) :
    (prepared k s).engine = (prepared k s').engine := by
  simp only [prepared_engine, argF64, h, hpar]

theorem exec_prepare {s : State} (h : PrepareOperandsOk s) (k : EngineKind) :
    exec (.prepare k) s = .next (prepared k s) :=
  (Ran.prepare ((prepareOk_iff s).mpr h)).exec

/-- Settles O42: both PREPAREs run, since the operands are the same, and build from the same operands and parameters. -/
theorem prepareForgetsThePast : Obligations.PrepareForgetsThePast := fun k s s' t t' harg hpar hok ht ht' => by
  have hok' : prepareOk s' = true := by rw [← prepareOk_congr harg, prepareOk_iff]; exact hok
  cases (exec_prepare hok k).symm.trans ht
  cases (Ran.prepare hok').exec.symm.trans ht'
  exact ⟨prepared_engine_congr k harg hpar, prepared_prep_congr k harg⟩

/-! ### ENG_INFO (R335) -/

theorem reportOf_hallId (h : Hall) (n : HallUnit) : reportOf (.hall h) (hallId n) = h.report n := by
  rw [reportOf, hallUnit_hallId, Option.bind_some]

theorem reportOf_plateId (p : Plate) (n : PlateUnit) : reportOf (.plate p) (plateId n) = p.report n := by
  rw [reportOf, plateUnit_plateId, Option.bind_some]

theorem exec_engInfo {s : State} {e : Engine} {u : UnitId} {r : LineReport} (he : s.engine = some e)
    (hr : reportOf e u = some r) : ∃ t, exec (.engInfo u) s = .next t ∧ t.res = ⟨r.dcur, r.base, r.gain, r.fb⟩ :=
  ⟨_, (Ran.engInfo he hr).exec, rfl⟩

/-- Settles O36: the ids are those of the modulated lines (R137), and the row reports what the line's unit holds. -/
theorem engInfoReports : Obligations.EngInfoReports := by
  refine ⟨fun s h c u he hu => ?_, fun s p c u he hu => ?_⟩
  · have hid : u = hallId (.tank c) := BitVec.eq_of_toNat_eq (by rw [hu]; cases c <;> rfl)
    exact exec_engInfo he (hid ▸ reportOf_hallId h (.tank c))
  · have hid : u = plateId (.fdn c) := BitVec.eq_of_toNat_eq (by rw [hu]; cases c <;> rfl)
    exact exec_engInfo he (hid ▸ reportOf_plateId p (.fdn c))

end Sys2Proof.Machine
end

section
/-! RESET (spec/46_host_commands.md R316, R317): what it clears and keeps, and that it undoes every run of signal. -/

namespace Sys2Proof.Machine

/-! ### One RESET, and a second (R316) -/

theorem exec_reset {s : State} {e : Engine} (he : s.engine = some e) :
    exec .reset s = .next (setEngine (clearEngine e) s) := (Ran.reset he).exec

/-- A second RESET finds the signal state already clear. -/
theorem exec_reset_reset (s : State) (e : Engine) :
    exec .reset (setEngine (clearEngine e) s) = .next (setEngine (clearEngine e) s) := by
  rw [exec_reset (setEngine_engine _ s), clearEngine_clearEngine, setEngine_setEngine]

/-- Settles O43: the row clears the engine, and what clearing does to each unit is known for each class. -/
theorem resetClearsTheSignalState : Obligations.ResetClearsTheSignalState := fun s e he => by
  have hran := Ran.reset he
  refine ⟨_, _, hran.exec, setEngine_engine _ s, engineKind_clearEngine e, fun u l hl => ?_, fun u a ha => ?_,
    fun u d hd => ?_, engineLfo_clearEngine e, fun u r hr => ?_, by cases e <;> rfl,
    hran.keepsRegisters rfl rfl, fun _ => rfl, setEngine_res _ s, exec_reset_reset s e⟩
  · exact ⟨l.clear, by rw [lineOf_clearEngine, hl]; rfl, rfl, rfl, fun _ => rfl⟩
  · exact ⟨a.clear, by rw [allpassOf_clearEngine, ha]; rfl, rfl, rfl⟩
  · rw [dampOf_clearEngine, hd]; rfl
  · rw [reportOf_clearEngine, hr]; rfl

/-! ### What a run of signal keeps (R317) -/

/-- `t` has the configuration, the applied parameters and, but for its signal state, the engine of `s`. -/
structure SamePrepared (s t : State) : Prop where
  engine : t.engine.map clearEngine = s.engine.map clearEngine
  prep : t.prep = s.prep
  par : t.par = s.par

theorem SamePrepared.refl (s : State) : SamePrepared s s := ⟨rfl, rfl, rfl⟩

theorem SamePrepared.trans {s t u : State} (h : SamePrepared s t) (k : SamePrepared t u) : SamePrepared s u :=
  ⟨k.engine.trans h.engine, k.prep.trans h.prep, k.par.trans h.par⟩

/-- A write of the engine that clearing forgets. -/
theorem SamePrepared.of_clearEngine {s t : State} {e e' : Engine} (he : s.engine = some e) (ht : t.engine = some e')
    (h : clearEngine e' = clearEngine e) (hprep : t.prep = s.prep) (hpar : t.par = s.par) : SamePrepared s t :=
  ⟨by rw [he, ht, Option.map_some, Option.map_some, h], hprep, hpar⟩

theorem busRead_samePrepared (a : BusAddr) (s : State) : SamePrepared s (busRead a s) := by
  obtain ⟨hpar, hprep, hengine, -⟩ := busRead_keeps a s
  exact ⟨by rw [hengine], hprep, hpar⟩

theorem busWrite_samePrepared (a : BusAddr) (v : Word) (s : State) : SamePrepared s (busWrite a v s) := by
  obtain ⟨hpar, hprep, hengine, -⟩ := busWrite_keeps a v s
  exact ⟨by rw [hengine], hprep, hpar⟩

/-- Every command but PREPARE, SET_PARAMS and AP_SET_GAIN leaves of the engine what clearing leaves. -/
theorem Ran.samePrepared {s t : State} {i : Instr} (h : Ran s i t)
    (hi : i.opc ≠ 0x01 ∧ i.opc ≠ 0x03 ∧ i.opc ≠ 0x21) : SamePrepared s t := by
  obtain ⟨hprepare, hsetParams, hsetGain⟩ := hi
  cases h with
  | prepare => exact absurd rfl hprepare
  | setParams => exact absurd rfl hsetParams
  | apSetGain => exact absurd rfl hsetGain
  | dlPush he hu => exact .of_clearEngine he rfl (clearEngine_setLineOf hu (DelayLine.clear_push _ _)) rfl rfl
  | apProcess he hu => exact .of_clearEngine he rfl (clearEngine_setAllpassOf hu (Allpass.clear_process _ _)) rfl rfl
  | dampProcess he hu => exact .of_clearEngine he rfl (clearEngine_setDampOf hu (Damp.clear_process _ _)) rfl rfl
  | lfoTick he hu =>
    obtain ⟨-, rfl⟩ := lfoOf_eq_some.mp hu
    exact .of_clearEngine he rfl (clearEngine_setEngineLfo _ (Lfo.restart_tick _)) rfl rfl
  | lfoReset he hu =>
    obtain ⟨-, rfl⟩ := lfoOf_eq_some.mp hu
    exact .of_clearEngine he rfl (clearEngine_setEngineLfo _ (Lfo.restart_restart _)) rfl rfl
  | reset he => exact .of_clearEngine he rfl (clearEngine_clearEngine _) rfl rfl
  | processBlock he => exact .of_clearEngine he rfl (clearEngine_runFrames ..) rfl rfl
  | dlPopFixed | dlReadFrac | dlInfo | apInfo | lfoInfo | dampInfo | nop | getParam | engInfo => exact ⟨rfl, rfl, rfl⟩

theorem step_samePrepared {s t : State} (hr : noResetNext s)
    (hi : ∀ i, executesNext s i → i.opc ≠ 0x01 ∧ i.opc ≠ 0x03 ∧ i.opc ≠ 0x21) (h : step s = .next t) :
    SamePrepared s t := by
  suffices hx : SamePrepared (afterEvent s) t from ⟨hx.engine, hx.prep, hx.par⟩
  rcases step_next_cases h with ⟨-, -, u, rfl, ⟨c, rfl⟩ | ⟨i, hnext, hran⟩⟩ | rfl | ⟨a, rfl⟩ | ⟨a, v, rfl⟩ |
    ⟨⟨rest, hrest⟩, -⟩
  · exact ⟨rfl, rfl, rfl⟩
  · obtain ⟨hengine, hprep, hpar⟩ := hran.samePrepared (hi i hnext)
    exact ⟨hengine, hprep, hpar⟩
  · exact .refl _
  · exact busRead_samePrepared a _
  · exact busWrite_samePrepared a v _
  · exact absurd hrest (hr rest)

theorem SignalRun.samePrepared {s t : State} (h : SignalRun s t) : SamePrepared s t := by
  induction h with
  | refl => exact .refl s
  | step _ hr hi hs ih => exact ih.trans (step_samePrepared hr hi hs)

/-- Settles O44: the run keeps the engine up to clearing, RESET clears it, and PREPARE's engine is clear already. -/
theorem resetRestoresThePreparedEngine : Obligations.ResetRestoresThePreparedEngine :=
  fun s p q r k hok hp hrun hr => by
    cases (exec_prepare hok k).symm.trans hp
    obtain ⟨hengine, hprep, hpar⟩ := hrun.samePrepared
    rw [prepared_engine, Option.map_some, clearEngine_build, Option.map_eq_some_iff] at hengine
    obtain ⟨e, he, hclear⟩ := hengine
    cases (exec_reset he).symm.trans hr
    exact ⟨by rw [setEngine_engine, prepared_engine, hclear], hprep, hpar⟩

end Sys2Proof.Machine
end

section
/-! `recompute()` and SET_PARAMS (spec/46_host_commands.md R320 to R322): each coefficient by its formula, what stays, and
that a second run with the same parameters changes nothing. -/

namespace Sys2Proof.Machine

open Ieee

/-! ### The constants of R12 and R60 as encodings -/

theorem dec64_two : dec64 2 0 = 0x4000000000000000 := by decide

theorem dec64_four : dec64 4 0 = 0x4010000000000000 := by decide

theorem dec64_thousand : dec64 1000 0 = 0x408F400000000000 := by decide

theorem preset_hpCutoffHz : preset.hpCutoffHz = 0x4034000000000000 := by decide

theorem preset_psyRatio : preset.psyRatio = 0x4000000000000000 := by decide

theorem preset_fbClamp : preset.fbClamp = 0x3FEFD70A3D70A3D7 := by decide

theorem toF32_fbClamp : toF32 preset.fbClamp = 0x3F7EB852 := by decide

theorem preset_hallTankMs : preset.hallTankMs = ⟨0x4055C00000000000, 0x4057400000000000⟩ := by decide

theorem preset_plateFdnMs : preset.plateFdnMs =
    ⟨0x403F000000000000, 0x4042800000000000, 0x4046800000000000, 0x404C000000000000⟩ := by decide

theorem preset_plateStretch : preset.plateStretch = 0x3FF0000000000000 := by decide

theorem preset_platePreROffsetMs : preset.platePreROffsetMs = 0x0000000000000000 := by decide

/-! ### Each formula (R212, R231, R232, R252, R282) -/

theorem isCoef_poleGain (fs fc : DWord) : IsCoef fs fc (poleGain fs fc) (fsub one32 (poleGain fs fc)) := ⟨rfl, rfl⟩

theorem isBaseDelay_baseDelay (par : ParamSet Word) (fs ms : DWord) :
    IsBaseDelay par fs ms (baseDelay fs par.roomSize ms) := by
  rw [IsBaseDelay, baseDelay, dec64_thousand]

/-- A positive word is the only one at its place in the binary64 order. -/
theorem eq_of_dle_of_dle {x c : DWord} (h : dle x c = true) (k : dle c x = true) (h0 : 0 < c.toNat)
    (h1 : c.toNat < 9223372036854775808) : x = c := by
  obtain ⟨hlow, hhigh⟩ := dle_range k h h0 h1 h1
  exact BitVec.eq_of_toNat_eq (Nat.le_antisymm hhigh hlow)

/-- The clamped gain: below the clamp the value itself, from the clamp on the clamp. -/
theorem isClampedGain_dmin (x : DWord) : IsClampedGain x (toF32 (dmin x preset.fbClamp)) := by
  rw [IsClampedGain, ← preset_fbClamp, ← toF32_fbClamp]
  refine ⟨fun h => by rw [dmin, if_pos h], fun h => congrArg toF32 ?_⟩
  unfold dmin
  split
  · exact eq_of_dle_of_dle ‹_› h (by rw [preset_fbClamp]; decide) (by rw [preset_fbClamp]; decide)
  · rfl

theorem Lfo.recompute_coefficients (l : Lfo) (par : ParamSet Word) (fs : DWord) :
    LfoCoefficients par fs (l.recompute par fs) := ⟨rfl, rfl⟩

theorem Damp.recompute_coefficients (d : Damp) (par : ParamSet Word) (fs : DWord) :
    DampCoefficients par fs (d.recompute preset par fs) where
  lowPass := isCoef_poleGain ..
  highPass := preset_hpCutoffHz ▸ isCoef_poleGain ..
  psy := preset_psyRatio ▸ isCoef_poleGain ..
  enabled := rfl

@[simp] theorem Hall.recompute_base (P : Preset) (par : ParamSet Word) (fs : DWord) (h : Hall) :
    (h.recompute P par fs).base = P.hallTankMs.map (baseDelay fs par.roomSize) := rfl

@[simp] theorem Hall.recompute_decay (P : Preset) (par : ParamSet Word) (fs : DWord) (h : Hall) :
    (h.recompute P par fs).decay = hallDecay P par := rfl

@[simp] theorem Plate.recompute_base (P : Preset) (par : ParamSet Word) (fs : DWord) (p : Plate) :
    (p.recompute P par fs).base = P.plateFdnMs.map (baseDelay fs par.roomSize) := rfl

@[simp] theorem Plate.recompute_g (P : Preset) (par : ParamSet Word) (fs : DWord) (p : Plate) :
    (p.recompute P par fs).g = plateGain P par := rfl

@[simp] theorem Plate.recompute_preD (P : Preset) (par : ParamSet Word) (fs : DWord) (p : Plate) :
    (p.recompute P par fs).preD = platePreDelay P par fs := rfl

theorem Hall.recompute_coefficients (h : Hall) (par : ParamSet Word) (fs : DWord) :
    HallCoefficients par fs (h.recompute preset par fs) where
  base0 := by rw [Hall.recompute_base, preset_hallTankMs]; exact isBaseDelay_baseDelay ..
  base1 := by rw [Hall.recompute_base, preset_hallTankMs]; exact isBaseDelay_baseDelay ..
  decay := by
    simp only [Hall.recompute_decay, hallDecay, preset_hallTankMs, dec64_two, dec64_thousand]
    exact isClampedGain_dmin _

theorem Plate.recompute_coefficients (p : Plate) (par : ParamSet Word) (fs : DWord) :
    PlateCoefficients par fs (p.recompute preset par fs) where
  base0 := by rw [Plate.recompute_base, preset_plateFdnMs]; exact isBaseDelay_baseDelay ..
  base1 := by rw [Plate.recompute_base, preset_plateFdnMs]; exact isBaseDelay_baseDelay ..
  base2 := by rw [Plate.recompute_base, preset_plateFdnMs]; exact isBaseDelay_baseDelay ..
  base3 := by rw [Plate.recompute_base, preset_plateFdnMs]; exact isBaseDelay_baseDelay ..
  gain := by
    simp only [Plate.recompute_g, plateGain, preset_plateFdnMs, preset_plateStretch, dec64_four, dec64_thousand]
    exact isClampedGain_dmin _
  preL := by rw [Plate.recompute_preD, platePreDelay, dec64_thousand]
  preR := by rw [Plate.recompute_preD, platePreDelay, preset_platePreROffsetMs, dec64_thousand]

theorem engineLfo_recompute (P : Preset) (par : ParamSet Word) (fs : DWord) (e : Engine) :
    engineLfo (recomputeEngine P par fs e) = (engineLfo e).recompute par fs := by cases e <;> rfl

theorem recompute_derivedCoefficients (par : ParamSet Word) (fs : DWord) (e : Engine) :
    DerivedCoefficients par fs (recomputeEngine preset par fs e) where
  lfo := engineLfo_recompute preset par fs e ▸ Lfo.recompute_coefficients ..
  damps u d hd := by
    obtain ⟨-, -, hdamp⟩ := units_recompute preset par fs e u
    rw [hdamp, Option.map_eq_some_iff] at hd
    obtain ⟨d, -, rfl⟩ := hd
    exact d.recompute_coefficients par fs
  hall h he := by
    cases e with
    | hall h => cases he; exact Hall.recompute_coefficients ..
    | plate p => cases he
  plate p he := by
    cases e with
    | hall h => cases he
    | plate p => cases he; exact Plate.recompute_coefficients ..

/-! ### What `recompute()` keeps (R321) -/

/-- Recomputing keeps the current delay and the feedback of each modulated line. -/
theorem reportOf_recompute {P : Preset} {par : ParamSet Word} {fs : DWord} {e : Engine} {u : UnitId} {r : LineReport}
    (h : reportOf e u = some r) :
    ∃ r', reportOf (recomputeEngine P par fs e) u = some r' ∧ r'.dcur = r.dcur ∧ r'.fb = r.fb := by
  cases e with
  | hall e =>
    obtain ⟨n, hn, hr⟩ := Option.bind_eq_some_iff.mp h
    rw [recomputeEngine, hallUnit_eq_some hn, reportOf_hallId]
    cases n with
    | tank c => cases hr; exact ⟨_, rfl, rfl, rfl⟩
    | early | late | lfo | damp => cases hr
  | plate e =>
    obtain ⟨n, hn, hr⟩ := Option.bind_eq_some_iff.mp h
    rw [recomputeEngine, plateUnit_eq_some hn, reportOf_plateId]
    cases n with
    | fdn i => cases hr; exact ⟨_, rfl, rfl, rfl⟩
    | pre | early | lfo | damp => cases hr

theorem recompute_keepsSignalState (P : Preset) (par : ParamSet Word) (fs : DWord) (e : Engine) :
    KeepsSignalState e (recomputeEngine P par fs e) where
  kind := engineKind_recompute P par fs e
  lines u := (units_recompute P par fs e u).1
  allpasses u := (units_recompute P par fs e u).2.1
  damps u d hd := ⟨d.recompute P par fs, by rw [(units_recompute P par fs e u).2.2, hd]; rfl, rfl, rfl, rfl⟩
  phase := by rw [engineLfo_recompute]; rfl
  delays _ _ := reportOf_recompute

/-! ### SET_PARAMS (R320, R322) -/

/-- The state SET_PARAMS leaves on the prepared engine `e`. -/
def withApplied (e : Engine) (s : State) : State :=
  setEngine (recomputeEngine preset (appliedParams s) s.prep.fs e) { s with par := appliedParams s }

@[simp] theorem withApplied_engine (e : Engine) (s : State) :
    (withApplied e s).engine = some (recomputeEngine preset (appliedParams s) s.prep.fs e) := rfl

@[simp] theorem withApplied_par (e : Engine) (s : State) : (withApplied e s).par = appliedParams s := rfl

@[simp] theorem withApplied_prep (e : Engine) (s : State) : (withApplied e s).prep = s.prep := rfl

theorem exec_setParams {s : State} {e : Engine} (he : s.engine = some e) :
    exec .setParams s = .next (withApplied e s) := (Ran.setParams he).exec

/-- Settles O60: each formula by its lemma, at the constants of the preset; SET_PARAMS runs `recompute()`, and PREPARE's
engine is one it has made. -/
theorem recomputeDerivesEveryCoefficient : Obligations.RecomputeDerivesEveryCoefficient := by
  refine ⟨fun par fs e => ⟨recompute_derivedCoefficients par fs e, recompute_keepsSignalState preset par fs e⟩,
    fun s e he => ⟨_, exec_setParams he, withApplied_engine e s⟩, fun s k hok => ?_⟩
  exact ⟨_, _, exec_prepare hok k, prepared_engine k s, recompute_build preset k (argF64 s) s.par⟩

/-- A field that SET_PARAMS has applied is the one it would apply again. -/
theorem applyParam_applyParam (p : ParamIdx) (staged applied : Word) :
    applyParam p staged (applyParam p staged applied) = applyParam p staged applied := by
  unfold applyParam
  split <;> rfl

/-- An applied value in its range, staged again, is kept. -/
theorem applyParam_self {p : ParamIdx} {x : Word} (h : fle (parLo.get p) x = true ∧ fle x (parHi.get p) = true) :
    applyParam p x x = x := by
  unfold applyParam
  split
  · rfl
  · exact clamp_self h.1 h.2

theorem appliedParams_get (s : State) (p : ParamIdx) :
    (appliedParams s).get p = applyParam p (stagedWord s p) (s.par.get p) := ParamSet.get_ofFn _ p

/-- SET_PARAMS changes none of what decides the staged words. -/
theorem stagedWord_withApplied (e : Engine) (s : State) (p : ParamIdx) :
    stagedWord (withApplied e s) p = stagedWord s p := rfl

theorem appliedParams_withApplied (e : Engine) (s : State) : appliedParams (withApplied e s) = appliedParams s :=
  ParamSet.ext_get fun p => by
    rw [appliedParams_get, stagedWord_withApplied, withApplied_par, appliedParams_get, applyParam_applyParam]

theorem appliedParams_of_stage_eq_par {s : State} (hpar : ParamsOk s.par) (hold : s.stageOld = noStageOld)
    (h : s.stage = s.par) : appliedParams s = s.par :=
  ParamSet.ext_get fun p => by
    have hnone : s.stageOld.get p = [] := by rw [hold]; cases p <;> rfl
    rw [appliedParams_get, stagedWord_none hnone, h, applyParam_self (hpar p)]

theorem withApplied_withApplied (e : Engine) (s : State) :
    withApplied (recomputeEngine preset (appliedParams s) s.prep.fs e) (withApplied e s) = withApplied e s := by
  rw [withApplied, appliedParams_withApplied, withApplied_prep, recompute_recompute]
  rfl

/-! ### An engine whose coefficients are derived already -/

/-- `d` with the coefficients of `d'` (R47). -/
def Damp.withCoefficients (d d' : Damp) : Damp := { d' with sLP := d.sLP, sHP := d.sHP, sPSY := d.sPSY }

/-- `e` with the coefficients (R321) of `e'`, an engine of the same kind. -/
def withCoefficients : Engine → Engine → Engine
  | .hall h, .hall h' => .hall { h with
      lfo := { h'.lfo with theta := h.lfo.theta }
      damp := h.damp.zipWith Damp.withCoefficients h'.damp
      base := h'.base
      decay := h'.decay }
  | .plate p, .plate p' => .plate { p with
      lfo := { p'.lfo with theta := p.lfo.theta }
      damp := p.damp.zipWith Damp.withCoefficients p'.damp
      base := p'.base
      g := p'.g
      preD := p'.preD }
  | .hall h, .plate _ => .hall h
  | .plate p, .hall _ => .plate p

/-- Clearing the signal state and setting the allpass gains change no coefficient. -/
theorem withCoefficients_cleared (P : Preset) (e : Engine) : withCoefficients e (presetGains P (clearEngine e)) = e := by
  cases e <;> rfl

/-- The coefficients that `recompute()` sets depend neither on the signal state nor on the allpass gains. -/
theorem withCoefficients_recompute_cleared (P : Preset) (par : ParamSet Word) (fs : DWord) (e : Engine) :
    withCoefficients e (recomputeEngine P par fs (presetGains P (clearEngine e))) = recomputeEngine P par fs e := by
  cases e <;> rfl

/-- In an engine of the invariant every coefficient is the one `recompute()` sets. -/
theorem EngineOk.recompute_eq_self {P : Preset} {par : ParamSet Word} {fs : DWord} {e : Engine}
    (h : EngineOk P par fs e) : recomputeEngine P par fs e = e :=
  calc recomputeEngine P par fs e
      = withCoefficients e (recomputeEngine P par fs (presetGains P (clearEngine e))) :=
        (withCoefficients_recompute_cleared P par fs e).symm
    _ = withCoefficients e (presetGains P (clearEngine e)) := by rw [h.prepared, recompute_build]
    _ = e := withCoefficients_cleared P e

/-- Settles O46: applying the applied parameters again changes no field and no coefficient; in a state of the invariant
the coefficients are those of the applied parameters already. -/
theorem setParamsIsIdempotent : Obligations.SetParamsIsIdempotent := by
  refine ⟨fun s t _ hready ht => ?_, fun s hinv hold hready hstage => ?_⟩
  · obtain ⟨e, he⟩ := Option.ne_none_iff_exists'.mp hready
    cases (exec_setParams he).symm.trans ht
    rw [exec_setParams (withApplied_engine e s), withApplied_withApplied]
  · obtain ⟨e, he⟩ := Option.ne_none_iff_exists'.mp hready
    obtain ⟨-, hok⟩ := hinv.ready e he
    rw [exec_setParams he, withApplied, appliedParams_of_stage_eq_par hinv.params hold hstage, hok.recompute_eq_self,
      setEngine, ← he]

end Sys2Proof.Machine
end

section
/-! PROCESS_BLOCK (spec/46_host_commands.md R330, R331): a block of one frame more is the block and then that frame. -/

namespace Sys2Proof.Machine

theorem processed_zero {s : State} {e : Engine} (he : s.engine = some e) : processed 0 e s = s := by
  show { s with engine := some e } = s
  rw [← he]

/-- What a block of `k` frames has made of the engine and of audio memory. -/
def blockAfter (s : State) (e : Engine) (k : Nat) : BlockState :=
  runFrames preset s.prep.numChannels s.par.mix s.audioEpoch k 0 { engine := e, audio := s.audio }

theorem processed_engine_blockAfter (k : Nat) (e : Engine) (s : State) :
    (processed k e s).engine = some (blockAfter s e k).engine := rfl

/-- Frame `k` comes after the block of `k` frames. -/
theorem blockAfter_succ (s : State) (e : Engine) (k : Nat) : blockAfter s e (k + 1) =
    frameStep preset s.prep.numChannels s.par.mix s.audioEpoch k (blockAfter s e k) := by
  rw [blockAfter, runFrames_succ, Nat.zero_add, blockAfter]

/-- The frames before frame `k` leave its words as the host wrote them. -/
theorem blockAfter_input (s : State) (e : Engine) {k : Nat} (hk : k < 4096) (c : Ix2) :
    audioWord s.audioEpoch (blockAfter s e k).audio (audioAddr c k) = audioWord s.audioEpoch s.audio (audioAddr c k) :=
  runFrames_word_other _ _ _ _ _ _ _ (by omega) (.inr (by omega)) hk c

/-- What `sample` answers in frame `k` of a block: it runs on the words the host wrote there. -/
theorem frameResult_blockAfter (s : State) (e : Engine) {k : Nat} (hk : k < 4096) :
    frameResult preset s.prep.numChannels s.audioEpoch k (blockAfter s e k) =
      sampleEngine preset (blockAfter s e k).engine
        ⟨audioWord s.audioEpoch s.audio (audioAddr .i0 k), rightInput s.prep.numChannels s.audioEpoch k s.audio⟩ := by
  simp only [frameResult, rightInput, blockAfter_input s e hk]

/-- The output word of frame `k` on a channel the block has. -/
theorem blockAfter_succ_word (s : State) (e : Engine) {k : Nat} (hk : k < 4096) (c : Ix2)
    (hc : c = .i0 ∨ s.prep.numChannels = 2) :
    audioWord s.audioEpoch (blockAfter s e (k + 1)).audio (audioAddr c k) =
      mixWord s.par.mix (audioWord s.audioEpoch s.audio (audioAddr c k)) (wetWord s.prep.numChannels c
        (frameResult preset s.prep.numChannels s.audioEpoch k (blockAfter s e k)).2) := by
  rw [blockAfter_succ, frameStep_word _ _ _ _ _ _ hc, blockAfter_input s e hk]

theorem blockAfter_succ_engine (s : State) (e : Engine) (k : Nat) : (blockAfter s e (k + 1)).engine =
    (frameResult preset s.prep.numChannels s.audioEpoch k (blockAfter s e k)).1 := by
  rw [blockAfter_succ, frameStep_engine]

/-- Frame `k` writes the word at its index in each channel the block has, and no other byte. -/
theorem blockAfter_succ_byte (s : State) (e : Engine) (k a : Nat) (h0 : ¬ (0x8000 + 4 * k ≤ a ∧ a < 0x8004 + 4 * k))
    (h1 : ¬ (s.prep.numChannels = 2 ∧ 0xC000 + 4 * k ≤ a ∧ a < 0xC004 + 4 * k)) :
    audioByte s.audioEpoch (blockAfter s e (k + 1)).audio a = audioByte s.audioEpoch (blockAfter s e k).audio a := by
  rw [blockAfter_succ]
  exact frameStep_byte _ _ _ _ _ _ _ (by rw [audioAddr]; omega) (by rw [audioAddr]; omega)

/-- Settles O49: both blocks run; the longer one is the shorter and then frame `k`, which reads what the host wrote and
writes at its own index alone. -/
theorem processBlockRunsFrameByFrame : Obligations.ProcessBlockRunsFrameByFrame := fun s e he hmax _ => by
  refine ⟨(Ran.processBlock he (Nat.zero_le _)).exec.trans (congrArg _ (processed_zero he)), fun k k' hk' hle => ?_⟩
  have hk : k.toNat < 4096 := by omega
  have hran' := Ran.processBlock he hle
  rw [hk'] at hran'
  exact ⟨_, _, _, _, _, _, _, _, _, _, (Ran.processBlock he (by omega)).exec, hran'.exec,
    processed_engine_blockAfter .., (processed_engine_blockAfter ..).trans (congrArg some (blockAfter_succ_engine s e _)),
    rfl, rfl, rfl, (frameResult_blockAfter s e hk).symm, rfl, blockAfter_succ_word s e hk .i0 (.inl rfl),
    fun h2 => blockAfter_succ_word s e hk .i1 (.inr h2), blockAfter_succ_byte s e _, hran'.keepsRegisters rfl rfl,
    processed_res _ _ s⟩

end Sys2Proof.Machine
end

section
/-! Recording a fault (spec/60_exceptions.md R350, R352). -/

namespace Sys2Proof.Machine

/-- After a fault is recorded, `STATUS.FAULT_ANY` reads 1 (R33, R352). -/
theorem busReadValue_status_faultAny_raiseFault (c : FaultCode) (info : Word) (s : State) :
    (busReadValue 0x008 (raiseFault c info s)).1.getLsbD 3 = true := by
  rw [busReadValue_status, statusWord_faultAny, faultAnyFlag_iff]
  exact raiseFault_ne_zero c info s

/-- Settles O5: O4 gives the code's own bit, the other bits and a later fault; the rest is the first fault's code and
word, the frame of recording a fault, `FAULT_ANY` (the record is not zero), and R350's numbers, code by code. -/
theorem raisingRecordsExactly : Obligations.RaisingRecordsExactly := by
  intro c info s
  obtain ⟨-, -, hraise, -, -⟩ := faultRegisterIsSticky
  obtain ⟨hown, hothers, hlater⟩ := hraise c info s
  refine ⟨raiseFault c info s, rfl, ?_, hown, hothers, fun h => raiseFault_first h c info, hlater,
    raiseFault_keepsHost c info s, raiseFault_keepsAudio c info s, rfl, rfl, rfl, rfl,
    busReadValue_status_faultAny_raiseFault c info s⟩
  cases c <;> rfl

end Sys2Proof.Machine
end


section
/-! The command words (spec/30_encoding.md R130 to R146): decoding and encoding undo each other. -/

namespace Sys2Proof.Machine

/-! ### From a command to its word and back -/

/-- A row that takes a unit decodes the word of its command. -/
theorem unitRow_encode {i : Instr} {mk : UnitId → Instr} (himm : i.immField = 0) (hi : mk i.unitField = i) :
    unitRow (encode i) mk = .ok i := by
  rw [unitRow, immOf_encode, if_pos himm, unitOf_encode, hi]

theorem bareRow_encode {i : Instr} (hunit : i.unitField = 0) (himm : i.immField = 0) :
    bareRow (encode i) i = .ok i := by
  rw [bareRow, unitOf_encode, immOf_encode, if_pos ⟨hunit, himm⟩]

theorem prepareRow_encode (k : EngineKind) : prepareRow (encode (.prepare k)) = .ok (.prepare k) := by
  rw [prepareRow, unitOf_encode, immOf_encode]
  cases k <;> rfl

theorem getParamRow_encode {index : BitVec 16} (h : paramIndexOk index = true) :
    getParamRow (encode (.getParam index)) = .ok (.getParam index) := by
  rw [getParamRow, unitOf_encode, immOf_encode]
  exact (if_pos rfl).trans (if_pos h)

theorem processBlockRow_encode (n : BitVec 16) :
    processBlockRow (encode (.processBlock n)) = .ok (.processBlock n) := by
  rw [processBlockRow, unitOf_encode, immOf_encode]
  rfl

/-- The opcode of a command selects its own row, and that row reads its operands back. -/
theorem decode_encode {i : Instr} (hw : i.wellFormed = true) : decode (encode i) = .ok i := by
  rw [decode, opcOf_encode]
  cases i with
  | prepare k => exact prepareRow_encode k
  | getParam index => exact getParamRow_encode hw
  | processBlock n => exact processBlockRow_encode n
  | dlPopFixed u k => rw [unitOf_encode, immOf_encode]; rfl
  | nop | reset | setParams => exact bareRow_encode rfl rfl
  | dlPush | dlReadFrac | dlInfo | apProcess | apSetGain | apInfo | lfoTick | lfoReset | lfoInfo | dampProcess
    | dampInfo | engInfo => exact unitRow_encode rfl rfl

/-- Settles O14: row by row, the fields of the command's word are its operands. -/
theorem decodeInvertsEncode : Obligations.DecodeInvertsEncode := fun _ hw => decode_encode hw

/-! ### From a word to its command and back -/

/-- What a word decodes to has the fields of the word. The cases are numbered in the order of `decode`'s rows. -/
theorem decode_fields {v : Word} {i : Instr} (h : decode v = .ok i) :
    opcOf v = i.opc ∧ unitOf v = i.unitField ∧ immOf v = i.immField := by
  have opc {n : Nat} {o : BitVec 8} (hv : (opcOf v).toNat = n) (ho : o.toNat = n) : opcOf v = o :=
    BitVec.eq_of_toNat_eq (hv.trans ho.symm)
  unfold decode at h
  split at h
  case h_2 hop => obtain ⟨k, himm, hunit, rfl⟩ := prepareRow_ok h; exact ⟨opc hop rfl, hunit, himm⟩
  case h_5 hop => obtain ⟨hunit, -, rfl⟩ := getParamRow_ok h; exact ⟨opc hop rfl, hunit, rfl⟩
  case h_6 hop => obtain ⟨hunit, rfl⟩ := processBlockRow_ok h; exact ⟨opc hop rfl, hunit, rfl⟩
  case h_9 hop => cases h; exact ⟨opc hop rfl, rfl, rfl⟩
  case h_20 => cases h
  case h_1 hop | h_3 hop | h_4 hop =>
    obtain ⟨hunit, himm, rfl⟩ := bareRow_ok h
    exact ⟨opc hop rfl, hunit, himm⟩
  all_goals
    obtain ⟨himm, rfl⟩ := unitRow_ok h
    exact ⟨opc ‹_› rfl, rfl, himm⟩

theorem encode_of_decode {v : Word} {i : Instr} (h : decode v = .ok i) : encode i = v := by
  obtain ⟨hopc, hunit, himm⟩ := decode_fields h
  exact word_eq_of_fields (by rw [opcOf_encode, hopc]) (by rw [unitOf_encode, hunit]) (by rw [immOf_encode, himm])

/-- Settles O15: a word is its three fields, and they are those of what it decodes to. -/
theorem encodeInvertsDecode : Obligations.EncodeInvertsDecode := fun _ _ h => ⟨encode_of_decode h, decode_wellFormed h⟩

/-- Settles O16: each word is the one of its command in the table. -/
theorem sampleWordsDecode : Obligations.SampleWordsDecode :=
  ⟨rfl, rfl, rfl, rfl, rfl, rfl, rfl, rfl, rfl, rfl, rfl, rfl, rfl⟩

end Sys2Proof.Machine
end

section
/-! The invariant (spec/10_state.md, spec/40_delay_line.md R161, spec/41_allpass.md R191): hardware reset meets it and
every step keeps it. -/

namespace Sys2Proof.Machine

open Ieee

/-! ### The fault record (R352) -/

theorem FaultRecordOk.of_keepsFaults {s t : State} (h : FaultRecordOk s) (k : KeepsFaults s t) : FaultRecordOk t := by
  obtain ⟨hbits, hfirst, hinfo⟩ := k
  exact ⟨by rw [hfirst, hbits]; exact h.first, by rw [hfirst]; exact h.known,
    by rw [hfirst, hbits]; exact h.ownBit, by rw [hfirst, hinfo]; exact h.info⟩

theorem codeNumber_le (c : FaultCode) : codeNumber c ≤ 6 := by cases c <;> decide

theorem raiseFault_firstCode_ne_zero (c : FaultCode) (info : Word) (s : State) :
    (raiseFault c info s).firstCode ≠ 0 := by
  rw [raiseFault_firstCode]
  split
  · cases c <;> decide
  · assumption

/-- Recording a fault keeps the record consistent: the first code is the new one with its own bit, or it stays. -/
theorem FaultRecordOk.raiseFault {s : State} (h : FaultRecordOk s) (c : FaultCode) (info : Word) :
    FaultRecordOk (raiseFault c info s) where
  first := iff_of_false (raiseFault_firstCode_ne_zero c info s) (raiseFault_ne_zero c info s)
  known := by
    by_cases h0 : s.firstCode = 0
    · rw [(raiseFault_first h0 c info).1]; exact codeNumber_le c
    · rw [(raiseFault_later h0 c info).1]; exact h.known
  ownBit _ := by
    rw [raiseFault_bit]
    by_cases h0 : s.firstCode = 0
    · rw [(raiseFault_first h0 c info).1, decide_eq_true rfl, Bool.or_true]
    · rw [(raiseFault_later h0 c info).1, h.ownBit h0, Bool.true_or]
  info h0 := absurd h0 (raiseFault_firstCode_ne_zero c info s)

/-! ### Audio memory (R103) -/

theorem frameStep_memory_wf (P : Preset) (ch : Nat) (mix : Word) (epoch : Nat) {n : Nat} (hn : n < 4096)
    {b : BlockState} (h : Memory.wf b.audio = true) : Memory.wf (frameStep P ch mix epoch n b).audio = true := by
  have put (c : Ix2) (v : Word) {m : List Host.Cell} (hm : Memory.wf m = true) :
      Memory.wf (audioPut (audioAddr c n) v m) = true :=
    Memory.wf_put (audioAddr_window hn).1 (audioAddr_window hn).2 v hm
  unfold frameStep
  split
  · exact put .i1 _ (put .i0 _ h)
  · exact put .i0 _ h

theorem runFrames_memory_wf (P : Preset) (ch : Nat) (mix : Word) (epoch : Nat) {k n : Nat} (hk : n + k ≤ 4096)
    {b : BlockState} (h : Memory.wf b.audio = true) : Memory.wf (runFrames P ch mix epoch k n b).audio = true := by
  induction k with
  | zero => exact h
  | succ k ih => rw [runFrames_succ]; exact frameStep_memory_wf P ch mix epoch (by omega) (ih (by omega))

/-! ### Allpasses -/

/-- A stage is well formed by its delay, its capacity and its gain alone. -/
theorem AllpassOk.congr {P : Preset} {a a' : Allpass} (h : AllpassOk P a) (hM : a'.M = a.M)
    (hN : a'.line.N = a.line.N) (hg : a'.g = a.g) : AllpassOk P a' :=
  ⟨hM ▸ h.delay, by rw [hN, hM]; exact h.size, hg ▸ h.gainLow, hg ▸ h.gainHigh⟩

theorem AllpassOk.process {P : Preset} {a : Allpass} (h : AllpassOk P a) (x : Word) : AllpassOk P (a.process x).1 :=
  h.congr rfl rfl rfl

theorem AllpassOk.clear {P : Preset} {a : Allpass} (h : AllpassOk P a) : AllpassOk P a.clear := h.congr rfl rfl rfl

theorem AllpassOk.setGain {a : Allpass} (h : AllpassOk preset a) (g : Word) :
    AllpassOk preset { a with g := clampGain preset g } :=
  ⟨h.delay, h.size, (clampGain_range g).1, (clampGain_range g).2⟩

/-! ### The engine: what each operation keeps of `EngineOk` -/

/-- The unit that `set` replaced has the property by `hnew`, every other one is the unit before. -/
theorem forall_unit_of_set {α : Type} {before after : UnitId → Option α} {Q : α → Prop} {u : UnitId}
    (hother : ∀ v, v ≠ u → after v = before v) (hnew : ∀ b, after u = some b → Q b)
    (h : ∀ v a, before v = some a → Q a) : ∀ v a, after v = some a → Q a := fun v a hv => by
  by_cases hu : v = u
  · subst hu; exact hnew a hv
  · exact h v a (hother v hu ▸ hv)

section
variable {P : Preset} {par : ParamSet Word} {fs : DWord} {e : Engine}

/-- An operation on the signal state: clearing forgets it, and it leaves each unit well formed. -/
theorem EngineOk.of_clearEngine {e' : Engine} (h : EngineOk P par fs e) (hclear : clearEngine e' = clearEngine e)
    (hlines : ∀ u l, lineOf e' u = some l → LineOk l) (hallpasses : ∀ u a, allpassOf e' u = some a → AllpassOk P a) :
    EngineOk P par fs e' where
  prepared := by rw [hclear, h.prepared, ← engineKind_clearEngine e', hclear, engineKind_clearEngine]
  lines := hlines
  allpasses := hallpasses

theorem EngineOk.push {u : UnitId} {l : DelayLine} (h : EngineOk P par fs e) (hl : lineOf e u = some l) (x : Word) :
    EngineOk P par fs (setLineOf e u (l.push x)) := by
  have hkeeps := KeepsOtherUnits.setLine e u (l.push x)
  refine h.of_clearEngine (clearEngine_setLineOf hl (l.clear_push x)) (forall_unit_of_set hkeeps.lines ?_ h.lines)
    (forall_unit_of_set hkeeps.allpasses ?_ h.allpasses)
  · intro b hb
    cases (lineOf_setLineOf_same hl).symm.trans hb
    exact (h.lines u l hl).push x
  · intro b hb
    cases ha : allpassOf e u with
    | none => rw [allpass_setLine_none ha, ha] at hb; cases hb
    | some a =>
      cases (lineOf_allpass ha).symm.trans hl
      cases (allpassOf_setLineOf_same ha _).symm.trans hb
      exact (h.allpasses u a ha).congr rfl rfl rfl

theorem EngineOk.process {u : UnitId} {a : Allpass} (h : EngineOk P par fs e) (ha : allpassOf e u = some a) (x : Word) :
    EngineOk P par fs (setAllpassOf e u (a.process x).1) := by
  have hkeeps := KeepsOtherUnits.setAllpass (a := (a.process x).1) ha
  have hsame := allpassOf_setAllpassOf_same (a := (a.process x).1) ha
  refine h.of_clearEngine (clearEngine_setAllpassOf ha (a.clear_process x)) (forall_unit_of_set hkeeps.lines ?_ h.lines)
    (forall_unit_of_set hkeeps.allpasses ?_ h.allpasses)
  · intro b hb
    cases (lineOf_allpass hsame).symm.trans hb
    exact (h.lines u _ (lineOf_allpass ha)).push _
  · intro b hb
    cases hsame.symm.trans hb
    exact (h.allpasses u a ha).process x

theorem EngineOk.setGain {u : UnitId} {a : Allpass} (h : EngineOk preset par fs e) (ha : allpassOf e u = some a)
    (g : Word) : EngineOk preset par fs (setAllpassOf e u { a with g := clampGain preset g }) := by
  have hkeeps := KeepsOtherUnits.setAllpass (a := { a with g := clampGain preset g }) ha
  have hsame := allpassOf_setAllpassOf_same (a := { a with g := clampGain preset g }) ha
  refine ⟨by rw [presetGains_clear_setGain preset ha, h.prepared, engineKind_setAllpassOf],
    forall_unit_of_set hkeeps.lines ?_ h.lines, forall_unit_of_set hkeeps.allpasses ?_ h.allpasses⟩
  · intro b hb
    cases (lineOf_allpass hsame).symm.trans hb
    exact h.lines u a.line (lineOf_allpass ha)
  · intro b hb
    cases hsame.symm.trans hb
    exact (h.allpasses u a ha).setGain g

/-- A damping update changes no line, no allpass and no oscillator. -/
theorem units_setDampOf (e : Engine) (u : UnitId) (d : Damp) : lineOf (setDampOf e u d) = lineOf e ∧
    allpassOf (setDampOf e u d) = allpassOf e ∧ engineLfo (setDampOf e u d) = engineLfo e := by
  cases e <;>
  · simp only [setDampOf]
    split
    · rename_i n _; cases n <;> exact ⟨rfl, rfl, rfl⟩
    · exact ⟨rfl, rfl, rfl⟩

theorem EngineOk.processDamp {u : UnitId} {d : Damp} (h : EngineOk P par fs e) (hd : dampOf e u = some d) (x : Word) :
    EngineOk P par fs (setDampOf e u (d.process x).1) := by
  obtain ⟨hlines, hallpasses, -⟩ := units_setDampOf e u (d.process x).1
  exact h.of_clearEngine (clearEngine_setDampOf hd (d.clear_process x)) (hlines ▸ h.lines) (hallpasses ▸ h.allpasses)

/-- An oscillator update changes no line and no allpass. -/
theorem units_setEngineLfo (e : Engine) (l : Lfo) :
    lineOf (setEngineLfo e l) = lineOf e ∧ allpassOf (setEngineLfo e l) = allpassOf e := by
  cases e <;> exact ⟨rfl, rfl⟩

theorem EngineOk.setLfo (h : EngineOk P par fs e) {l : Lfo} (hl : l.restart = (engineLfo e).restart) :
    EngineOk P par fs (setEngineLfo e l) := by
  obtain ⟨hlines, hallpasses⟩ := units_setEngineLfo e l
  exact h.of_clearEngine (clearEngine_setEngineLfo e hl) (hlines ▸ h.lines) (hallpasses ▸ h.allpasses)

theorem EngineOk.clear (h : EngineOk P par fs e) : EngineOk P par fs (clearEngine e) := by
  refine h.of_clearEngine (clearEngine_clearEngine e) (fun u l hl => ?_) fun u a ha => ?_
  · rw [lineOf_clearEngine, Option.map_eq_some_iff] at hl
    obtain ⟨l, hl, rfl⟩ := hl
    exact (h.lines u l hl).clear
  · rw [allpassOf_clearEngine, Option.map_eq_some_iff] at ha
    obtain ⟨a, ha, rfl⟩ := ha
    exact (h.allpasses u a ha).clear

/-- New coefficients: the engine is then the one PREPARE would build from the new parameters. -/
theorem EngineOk.recompute (h : EngineOk P par fs e) (par' : ParamSet Word) :
    EngineOk P par' fs (recomputeEngine P par' fs e) where
  prepared := by
    rw [presetGains_clear_recompute, h.prepared, settle_recompute_build, engineKind_recompute]
  lines u l hl := h.lines u l ((units_recompute P par' fs e u).1 ▸ hl)
  allpasses u a ha := h.allpasses u a ((units_recompute P par' fs e u).2.1 ▸ ha)

end

/-- The engine PREPARE builds (R313). -/
theorem buildEngine_ok (k : EngineKind) (fs : DWord) (par : ParamSet Word) :
    EngineOk preset par fs (buildEngine preset k fs par) where
  prepared := by rw [clearEngine_build, presetGains_build, engineKind_build]
  lines u l hl := by
    obtain ⟨n, hn, rfl⟩ := build_line hl
    exact LineOk.cleared hn
  allpasses u a ha := by
    obtain ⟨hM, hN, hg⟩ := build_allpass ha
    have hrange : fle 0 a.g = true ∧ fle a.g preset.apGainMax = true := by
      rw [hg]
      cases k <;> dsimp only
      · split <;> decide
      · decide
    exact ⟨hM, hN, hrange.1, hrange.2⟩

/-! ### One sample pushes one word into every line (R255, R285) -/

theorem lineOf_sampleEngine {P : Preset} {e : Engine} {x : Frame} {u : UnitId} {l' : DelayLine}
    (h : lineOf (sampleEngine P e x).1 u = some l') : ∃ l y, lineOf e u = some l ∧ l' = l.push y := by
  cases e with
  | hall e =>
    obtain ⟨n, hn, hl⟩ := Option.bind_eq_some_iff.mp h
    rw [hallUnit_eq_some hn, lineOf_hallId]
    rcases n with c | ⟨c, j⟩ | ⟨c, j⟩ | _ | _
    · cases c <;> cases hl <;> exact ⟨_, _, rfl, rfl⟩
    · cases c <;> cases j <;> cases hl <;> exact ⟨_, _, rfl, rfl⟩
    · cases c <;> cases j <;> cases hl <;> exact ⟨_, _, rfl, rfl⟩
    · cases hl
    · cases hl
  | plate e =>
    obtain ⟨n, hn, hl⟩ := Option.bind_eq_some_iff.mp h
    rw [plateUnit_eq_some hn, lineOf_plateId]
    rcases n with i | _ | ⟨c, k⟩ | _ | _
    · cases i <;> cases hl <;> exact ⟨_, _, rfl, rfl⟩
    · cases hl; exact ⟨_, _, rfl, rfl⟩
    · cases c <;> cases k <;> cases hl <;> exact ⟨_, _, rfl, rfl⟩
    · cases hl
    · cases hl

theorem allpassOf_sampleEngine {P : Preset} {e : Engine} {x : Frame} {u : UnitId} {a' : Allpass}
    (h : allpassOf (sampleEngine P e x).1 u = some a') : ∃ a y, allpassOf e u = some a ∧ a' = (a.process y).1 := by
  cases e with
  | hall e =>
    obtain ⟨n, hn, ha⟩ := Option.bind_eq_some_iff.mp h
    rw [hallUnit_eq_some hn, allpassOf_hallId]
    rcases n with _ | ⟨c, j⟩ | ⟨c, j⟩ | _ | _
    · cases ha
    · cases c <;> cases j <;> cases ha <;> exact ⟨_, _, rfl, rfl⟩
    · cases c <;> cases j <;> cases ha <;> exact ⟨_, _, rfl, rfl⟩
    · cases ha
    · cases ha
  | plate e =>
    obtain ⟨n, hn, ha⟩ := Option.bind_eq_some_iff.mp h
    rw [plateUnit_eq_some hn, allpassOf_plateId]
    rcases n with _ | _ | ⟨c, k⟩ | _ | _
    · cases ha
    · cases ha
    · cases c <;> cases k <;> cases ha <;> exact ⟨_, _, rfl, rfl⟩
    · cases ha
    · cases ha

section
variable {P : Preset} {par : ParamSet Word} {fs : DWord}

theorem EngineOk.sample {e : Engine} (h : EngineOk P par fs e) (x : Frame) :
    EngineOk P par fs (sampleEngine P e x).1 := by
  refine h.of_clearEngine (clearEngine_sample P e x) (fun u l' hl => ?_) fun u a' ha => ?_
  · obtain ⟨l, y, hbefore, rfl⟩ := lineOf_sampleEngine hl
    exact (h.lines u l hbefore).push y
  · obtain ⟨a, y, hbefore, rfl⟩ := allpassOf_sampleEngine ha
    exact (h.allpasses u a hbefore).process y

theorem EngineOk.runFrames (ch : Nat) (mix : Word) (epoch k n : Nat) {b : BlockState}
    (h : EngineOk P par fs b.engine) : EngineOk P par fs (runFrames P ch mix epoch k n b).engine := by
  induction k with
  | zero => exact h
  | succ k ih => rw [runFrames_succ, frameStep_engine]; exact ih.sample _

end

/-! ### Commands -/

theorem Inv.prepared_ok {s : State} {e : Engine} (h : Inv s) (he : s.engine = some e) : PreparedOk s.prep :=
  (h.ready e he).1

theorem Inv.engine_ok {s : State} {e : Engine} (h : Inv s) (he : s.engine = some e) :
    EngineOk preset s.par s.prep.fs e :=
  (h.ready e he).2

/-- Only PROCESS_BLOCK writes audio memory. -/
theorem Ran.memory_wf {s t : State} {i : Instr} (h : Ran s i t) (hi : Inv s) : Memory.wf t.audio = true := by
  cases h with
  | processBlock he hk =>
    have hmax : s.prep.maxBlockSize ≤ 4096 := (hi.prepared_ok he).blockHigh
    exact runFrames_memory_wf _ _ _ _ (by omega) hi.memory
  | _ => exact hi.memory

/-- No command removes the engine. -/
theorem Ran.engine_none {s t : State} {i : Instr} (h : Ran s i t) (ht : t.engine = none) : t = s := by
  cases h with
  | nop => rfl
  | dlPush | apProcess | apSetGain | lfoTick | lfoReset | dampProcess | prepare | reset | setParams | processBlock =>
    cases ht
  | dlPopFixed he | dlReadFrac he | dlInfo he | apInfo he | lfoInfo he | dampInfo he | getParam _ he | engInfo he =>
    cases he.symm.trans ht

theorem prepareOperandsOk_preparedOk {s : State} (h : PrepareOperandsOk s) (k : EngineKind) :
    PreparedOk (prepared k s).prep :=
  ⟨h.rateLow, h.rateHigh, h.blockLow, h.blockHigh, h.channels⟩

/-- The engine a command leaves: one operation on the engine before, or the one PREPARE builds. -/
theorem Ran.ready {s t : State} {i : Instr} {e' : Engine} (h : Ran s i t) (hi : Inv s) (ht : t.engine = some e') :
    PreparedOk t.prep ∧ EngineOk preset t.par t.prep.fs e' := by
  cases h with
  | dlPush he hl => cases ht; exact ⟨hi.prepared_ok he, (hi.engine_ok he).push hl _⟩
  | apProcess he ha => cases ht; exact ⟨hi.prepared_ok he, (hi.engine_ok he).process ha _⟩
  | apSetGain he ha => cases ht; exact ⟨hi.prepared_ok he, (hi.engine_ok he).setGain ha _⟩
  | dampProcess he hd => cases ht; exact ⟨hi.prepared_ok he, (hi.engine_ok he).processDamp hd _⟩
  | lfoTick he hl =>
    cases ht
    obtain ⟨-, rfl⟩ := lfoOf_eq_some.mp hl
    exact ⟨hi.prepared_ok he, (hi.engine_ok he).setLfo (Lfo.restart_tick _)⟩
  | lfoReset he hl =>
    cases ht
    obtain ⟨-, rfl⟩ := lfoOf_eq_some.mp hl
    exact ⟨hi.prepared_ok he, (hi.engine_ok he).setLfo (Lfo.restart_restart _)⟩
  | prepare hk =>
    cases ht
    exact ⟨prepareOperandsOk_preparedOk ((prepareOk_iff s).mp hk) _, buildEngine_ok ..⟩
  | reset he => cases ht; exact ⟨hi.prepared_ok he, (hi.engine_ok he).clear⟩
  | setParams he => cases ht; exact ⟨hi.prepared_ok he, (hi.engine_ok he).recompute _⟩
  | processBlock he hk => cases ht; exact ⟨hi.prepared_ok he, EngineOk.runFrames _ _ _ _ _ (hi.engine_ok he)⟩
  | dlPopFixed | dlReadFrac | dlInfo | apInfo | lfoInfo | dampInfo | nop | getParam | engInfo => exact hi.ready e' ht

/-- A command that runs keeps the invariant. -/
theorem Ran.inv {s t : State} {i : Instr} (h : Ran s i t) (hi : Inv s) : Inv t where
  memory := h.memory_wf hi
  params := h.paramsOk hi.params
  faults := hi.faults.of_keepsFaults h.faults
  idle hb := by
    have hkeeps := exec_keepsHost h.exec
    rw [hkeeps.stageOld]
    exact hi.idle (hkeeps.busy ▸ hb)
  uninit ht := h.engine_none ht ▸ hi.uninit (h.engine_none ht ▸ ht)
  ready _ ht := h.ready hi ht

/-! ### Host accesses, reset, and the step -/

/-- An operation that leaves the parameters, the configuration and the engine alone. -/
theorem Inv.of_sameEngine {s t : State} (h : Inv s) (hmem : Memory.wf t.audio = true) (hpar : t.par = s.par)
    (hprep : t.prep = s.prep) (hengine : t.engine = s.engine) (hidle : t.busy = false → t.stageOld = noStageOld)
    (hfaults : FaultRecordOk t) : Inv t where
  memory := hmem
  params := hpar ▸ h.params
  faults := hfaults
  idle := hidle
  uninit he := by rw [hprep]; exact h.uninit (hengine ▸ he)
  ready e he := by rw [hprep, hpar]; exact h.ready e (hengine ▸ he)

theorem Inv.raiseFault {s : State} (h : Inv s) (c : FaultCode) (info : Word) : Inv (raiseFault c info s) :=
  h.of_sameEngine h.memory rfl rfl rfl h.idle (h.faults.raiseFault c info)

theorem Inv.completeCommand {s : State} (h : Inv s) : Inv (completeCommand s) :=
  h.of_sameEngine h.memory rfl rfl rfl (fun _ => rfl) (h.faults.of_keepsFaults (completeCommand_keepsFaults s))

theorem Inv.afterEvent {s : State} (h : Inv s) : Inv (afterEvent s) :=
  h.of_sameEngine h.memory rfl rfl rfl h.idle (h.faults.of_keepsFaults ⟨rfl, rfl, rfl⟩)

theorem Inv.busRead {s : State} (h : Inv s) (a : BusAddr) : Inv (busRead a s) := by
  obtain ⟨hpar, hprep, hengine, haudio, hbusy, hold, hfaults⟩ := busRead_keeps a s
  refine h.of_sameEngine (haudio ▸ h.memory) hpar hprep hengine (fun hb => hold ▸ h.idle (hbusy ▸ hb)) ?_
  rcases hfaults with ⟨hbits, hfirst, hinfo⟩ | ⟨c, info, hbits, hfirst, hinfo⟩
  · exact h.faults.of_keepsFaults ⟨hbits, hfirst, hinfo⟩
  · exact (h.faults.raiseFault c info).of_keepsFaults ⟨hbits, hfirst, hinfo⟩

theorem Inv.busWrite {s : State} (h : Inv s) (a : BusAddr) (v : Word) : Inv (busWrite a v s) := by
  obtain ⟨hpar, hprep, hengine, haudio, hidle, hfaults⟩ := busWrite_keeps a v s
  refine h.of_sameEngine ?_ hpar hprep hengine (fun hb => ?_) ?_
  · rcases haudio with haudio | ⟨hlow, halign, haudio⟩ <;> rw [haudio]
    · exact h.memory
    · have hlt := a.isLt
      exact Memory.wf_put hlow (by unfold audioEnd; omega) v h.memory
  · obtain ⟨hs, hold⟩ := hidle hb
    rw [hold]
    exact h.idle hs
  · rcases hfaults with ⟨hbits, hfirst, hinfo⟩ | ⟨c, info, heq⟩
    · exact h.faults.of_keepsFaults ⟨hbits, hfirst, hinfo⟩
    · rw [heq]; exact h.faults.raiseFault c info

/-- Settles O58: no memory written, the default parameters, no fault, no engine. -/
theorem invAtReset : Obligations.InvAtReset where
  memory := Memory.wf_nil
  params := parDefaults_ok
  faults := ⟨iff_of_true rfl rfl, by decide, fun h => absurd rfl h, fun _ => rfl⟩
  idle _ := rfl
  uninit _ := rfl
  ready _ he := nomatch he

theorem inv_hardwareReset (s : State) : Inv (hardwareReset s) :=
  Inv.of_sameEngine (s := State.reset) invAtReset Memory.wf_nil rfl rfl rfl (fun _ => rfl)
    (FaultRecordOk.of_keepsFaults (s := State.reset) invAtReset.faults ⟨rfl, rfl, rfl⟩)

theorem step_keeps_inv {s t : State} (hs : Inv s) (h : step s = .next t) : Inv t := by
  rcases step_next_cases h with ⟨-, -, u, rfl, ⟨c, rfl⟩ | ⟨i, -, hran⟩⟩ | rfl | ⟨a, rfl⟩ | ⟨a, v, rfl⟩ | ⟨-, rfl⟩
  · exact (hs.afterEvent.raiseFault c _).completeCommand
  · exact (hran.inv hs.afterEvent).completeCommand
  · exact hs.afterEvent
  · exact hs.afterEvent.busRead a
  · exact hs.afterEvent.busWrite a v
  · exact inv_hardwareReset _

/-- Settles O59: every step is a command, a fault record, a host access or reset, and each keeps the invariant. -/
theorem stepKeepsInv : Obligations.StepKeepsInv := fun _ _ hs h => step_keeps_inv hs h

end Sys2Proof.Machine
end

section
/-! Host accesses and the schedule of the core (spec/20_memory.md R100 to R117, spec/70_reset_and_hazards.md R380, R396):
what an access does while idle and while a command is pending, and when the pending command runs. -/

namespace Sys2Proof.Machine

/-! ### The guarded accesses (R113, R114) -/

section
variable {s : State}

theorem unlessBusy_idle (h : s.busy = false) (v : Word) : unlessBusy v s = (v, s) := by
  rw [unlessBusy, h, if_neg Bool.false_ne_true]

theorem unlessBusy_busy (h : s.busy = true) (v : Word) : unlessBusy v s = drawWord s := by rw [unlessBusy, if_pos h]

theorem writeUnlessBusy_idle (h : s.busy = false) (a : BusAddr) (t : State) : writeUnlessBusy a s t = t := by
  rw [writeUnlessBusy, h, if_neg Bool.false_ne_true]

theorem writeUnlessBusy_busy (h : s.busy = true) (a : BusAddr) (t : State) :
    writeUnlessBusy a s t = raiseFault .busyViolation (addrInfo a) s := by rw [writeUnlessBusy, if_pos h]

theorem writeStage_idle (h : s.busy = false) (p : ParamIdx) (v : Word) :
    writeStage p v s = { s with stage := s.stage.set p v } := by
  rw [writeStage, h, if_neg Bool.false_ne_true]

theorem writeStage_busy (h : s.busy = true) (p : ParamIdx) (v : Word) : writeStage p v s =
    { s with
      stage := s.stage.set p v
      stageOld := s.stageOld.set p (s.stage.get p :: s.stageOld.get p)
      freeCtr := s.freeCtr + 1 } := by
  rw [writeStage, if_pos h]

end

/-! ### An access by what its address names (R30) -/

section
variable {a : BusAddr} (s : State)

theorem busReadValue_arg {i : RegIdx} (h : busTarget a = .arg i) : busReadValue a s = (s.arg.get i, s) := by
  rw [busReadValue, h]

theorem busReadValue_resTarget {i : RegIdx} (h : busTarget a = .res i) :
    busReadValue a s = unlessBusy (s.res.get i) s := by
  rw [busReadValue, h]

theorem busReadValue_stage {p : ParamIdx} (h : busTarget a = .stage p) : busReadValue a s = (s.stage.get p, s) := by
  rw [busReadValue, h]

theorem busReadValue_audio (h : busTarget a = .audio) :
    busReadValue a s = unlessBusy (audioWord s.audioEpoch s.audio a.toNat) s := by
  rw [busReadValue, h]

theorem busWrite_arg {i : RegIdx} (h : busTarget a = .arg i) (v : Word) :
    busWrite a v s = writeUnlessBusy a s { s with arg := s.arg.set i v } := by
  rw [busWrite, h]

theorem busWrite_stage {p : ParamIdx} (h : busTarget a = .stage p) (v : Word) : busWrite a v s = writeStage p v s := by
  rw [busWrite, h]

theorem busWrite_audio (h : busTarget a = .audio) (v : Word) :
    busWrite a v s = writeUnlessBusy a s { s with audio := audioPut a.toNat v s.audio } := by
  rw [busWrite, h]

end

/-- Everything a read can do to the block: nothing, a draw of a free word, or fault 6. -/
theorem busReadValue_state_cases (a : BusAddr) (s : State) : (busReadValue a s).2 = s ∨
    (busReadValue a s).2 = (drawWord s).2 ∨ (busReadValue a s).2 = raiseFault .busError (addrInfo a) s := by
  unfold busReadValue
  cases busTarget a with
  | id | caps | status | fault | faultInfo | cmd | arg | stage => exact .inl rfl
  | none => exact .inr (.inr rfl)
  | res | audio =>
    dsimp only
    unfold unlessBusy
    split
    · exact .inr (.inl rfl)
    · exact .inl rfl

/-- A host read: what it does to the block, with its word noted (log 9). -/
theorem busRead_eq (a : BusAddr) (s : State) : busRead a s =
    { (busReadValue a s).2 with hostReads := ⟨a, (busReadValue a s).1⟩ :: s.hostReads } := by
  rw [← (busReadValue_io a s).2]
  rfl

/-- Everything a write can do while a command is pending: nothing, a fault, or the write of a staging register. -/
theorem busWrite_busy_cases {s : State} (hb : s.busy = true) (a : BusAddr) (v : Word) : busWrite a v s = s ∨
    (∃ c info, busWrite a v s = raiseFault c info s) ∨ ∃ p, busWrite a v s = writeStage p v s := by
  unfold busWrite
  cases busTarget a with
  | id | caps | status | fault | faultInfo | res => exact .inl rfl
  | cmd => exact .inr (.inl ⟨_, _, writeCmd_busy hb v⟩)
  | arg | audio => exact .inr (.inl ⟨_, _, writeUnlessBusy_busy hb a _⟩)
  | stage p => exact .inr (.inr ⟨p, rfl⟩)
  | none => exact .inr (.inl ⟨_, _, rfl⟩)

/-! ### Accesses while idle (R37, R39, R103, R105) -/

/-- The byte lanes of a stored word, least significant first (R105). -/
theorem audioByte_put_lane (epoch a : Nat) (v : Word) (m : List Host.Cell) {i : Nat} (hi : i < 4) :
    audioByte epoch (audioPut a v m) (a + i) = v.extractLsb' (8 * i) 8 := by
  rcases (show i = 0 ∨ i = 1 ∨ i = 2 ∨ i = 3 by omega) with rfl | rfl | rfl | rfl
  · exact audioByte_put0 epoch a v m
  · exact audioByte_put1 epoch a v m
  · exact audioByte_put2 epoch a v m
  · exact audioByte_put3 epoch a v m

/-- Settles O12: the write is `audioPut` at the address, and the read is `audioWord` there. -/
theorem audioStoreThenRead : Obligations.AudioStoreThenRead := fun s a v hidle h4 hlow => by
  have ht := busTarget_audio h4 hlow
  refine ⟨_, (busWrite_audio s ht v).trans (writeUnlessBusy_idle hidle a _), ?_,
    fun i hi => audioByte_put_lane _ _ v _ hi, fun b hb => audioByte_put_out hb _ v _,
    ⟨⟨rfl, rfl, rfl, rfl, rfl, rfl, rfl, rfl, rfl⟩, ⟨rfl, rfl, rfl⟩, rfl, rfl⟩, rfl, rfl⟩
  rw [busReadValue_audio _ ht, unlessBusy_idle (by exact hidle), audioWord_put_same]

/-- The address of a register (R30); audio memory and the reserved ranges have no one address. -/
def registerAddr : BusTarget → BusAddr
  | .id => 0x000
  | .caps => 0x004
  | .status => 0x008
  | .fault => 0x00C
  | .faultInfo => 0x010
  | .cmd => 0x014
  | .arg .i0 => 0x020
  | .arg .i1 => 0x024
  | .arg .i2 => 0x028
  | .arg .i3 => 0x02C
  | .res .i0 => 0x030
  | .res .i1 => 0x034
  | .res .i2 => 0x038
  | .res .i3 => 0x03C
  | .stage .roomSize => 0x040
  | .stage .decayTime => 0x044
  | .stage .damping => 0x048
  | .stage .modRate => 0x04C
  | .stage .modDepth => 0x050
  | .stage .preDelay => 0x054
  | .stage .mix => 0x058
  | .audio => 0
  | .none => 0

/-- The last case is the default of `registerAt`, the reserved addresses. -/
theorem registerAt_eq {n : Nat} {r : BusTarget} (h : registerAt n = r) (hr : r ≠ .none) :
    n = (registerAddr r).toNat := by
  unfold registerAt at h
  split at h
  case h_22 => exact absurd h.symm hr
  all_goals subst h; rfl

theorem busTarget_register_eq {a : BusAddr} {r : BusTarget} (h : busTarget a = r) (hr : r ≠ .none) (hm : r ≠ .audio) :
    a = registerAddr r := by
  unfold busTarget at h
  split at h
  · exact absurd h.symm hr
  · split at h
    · exact absurd h.symm hm
    · exact BitVec.eq_of_toNat_eq (registerAt_eq h hr)

/-- Only one address names a register. -/
theorem busTarget_register_inj {a b : BusAddr} {r : BusTarget} (ha : busTarget a = r) (hb : busTarget b = r)
    (hr : r ≠ .none) (hm : r ≠ .audio) : b = a := by
  rw [busTarget_register_eq ha hr hm, busTarget_register_eq hb hr hm]

/-- While idle, a read depends on the host-written registers only where its address names one. -/
theorem busReadValue_congr_hostRegisters {s : State} {b : BusAddr} {arg : Quad Word} {stage : ParamSet Word}
    (hidle : s.busy = false) (harg : ∀ j, busTarget b = .arg j → arg.get j = s.arg.get j)
    (hstage : ∀ q, busTarget b = .stage q → stage.get q = s.stage.get q) :
    (busReadValue b { s with arg := arg, stage := stage }).1 = (busReadValue b s).1 := by
  cases hb : busTarget b with
  | arg j => rw [busReadValue_arg _ hb, busReadValue_arg _ hb]; exact harg j hb
  | stage q => rw [busReadValue_stage _ hb, busReadValue_stage _ hb]; exact hstage q hb
  | res i =>
    rw [busReadValue_resTarget _ hb, busReadValue_resTarget _ hb, unlessBusy_idle hidle, unlessBusy_idle (by exact hidle)]
  | audio =>
    rw [busReadValue_audio _ hb, busReadValue_audio _ hb, unlessBusy_idle hidle, unlessBusy_idle (by exact hidle)]
  | id | caps | status | fault | faultInfo | cmd | none => simp only [busReadValue, hb] <;> rfl

/-- Settles O13: the write sets the one register, which no other address reads. -/
theorem hostRegistersHoldTheLastWrite : Obligations.HostRegistersHoldTheLastWrite := by
  rintro s a v hidle h4 (⟨hlow, hhigh⟩ | ⟨hlow, hhigh⟩)
  · obtain ⟨i, ht⟩ := busTarget_arg h4 hlow hhigh
    exact ⟨_, (busWrite_arg s ht v).trans (writeUnlessBusy_idle hidle a _),
      by rw [busReadValue_arg _ ht, Quad.get_set_same],
      fun b hb => busReadValue_congr_hostRegisters hidle
        (fun j hj => Quad.get_set_ne _ (by
          rintro rfl
          exact hb (busTarget_register_inj ht hj nofun nofun)) v)
        fun _ _ => rfl,
      hidle, rfl, rfl, rfl, rfl⟩
  · obtain ⟨p, -, ht⟩ := busTarget_stage h4 hlow hhigh
    exact ⟨_, (busWrite_stage s ht v).trans (writeStage_idle hidle p v),
      by rw [busReadValue_stage _ ht, ParamSet.get_set_same],
      fun b hb => busReadValue_congr_hostRegisters hidle (fun _ _ => rfl)
        fun q hq => ParamSet.get_set_ne _ (by
          rintro rfl
          exact hb (busTarget_register_inj ht hq nofun nofun)) v,
      hidle, rfl, rfl, rfl, rfl⟩

/-! ### Accesses while a command is pending (R113 to R115) -/

/-- `t` has the pending command of `s` and what it works on, the staging registers excepted (R120). -/
structure KeepsPending (s t : State) : Prop where
  busy : t.busy = s.busy
  pending : t.pending = s.pending
  inputs : t.inputs = s.inputs
  arg : t.arg = s.arg
  res : t.res = s.res
  engine : t.engine = s.engine
  prep : t.prep = s.prep
  par : t.par = s.par
  audio : KeepsAudio s t

theorem busRead_keepsPending (a : BusAddr) (s : State) : KeepsPending s (busRead a s) := by
  rw [busRead_eq]
  rcases busReadValue_state_cases a s with h | h | h <;> rw [h] <;>
    exact ⟨rfl, rfl, rfl, rfl, rfl, rfl, rfl, rfl, fun _ => rfl⟩

theorem busWrite_keepsPending {s : State} (hb : s.busy = true) (a : BusAddr) (v : Word) :
    KeepsPending s (busWrite a v s) := by
  rcases busWrite_busy_cases hb a v with h | ⟨c, info, h⟩ | ⟨p, h⟩ <;> rw [h]
  · exact ⟨rfl, rfl, rfl, rfl, rfl, rfl, rfl, rfl, fun _ => rfl⟩
  · exact ⟨rfl, rfl, rfl, rfl, rfl, rfl, rfl, rfl, fun _ => rfl⟩
  · rw [writeStage_busy hb]
    exact ⟨rfl, rfl, rfl, rfl, rfl, rfl, rfl, rfl, fun _ => rfl⟩

/-- The step of a host access while a command is pending. -/
theorem step_hostAccess {s : State} {ev : BusEvent} {rest : List BusEvent} (hb : s.busy = true)
    (hi : s.inputs = ev :: rest) (hcore : ev ≠ .coreTurn) (hreset : ev ≠ .hardwareReset) :
    ∃ t, step s = .next t ∧ KeepsPending { s with inputs := rest } t := by
  rw [step_cons hi]
  cases ev with
  | read a => exact ⟨_, rfl, busRead_keepsPending a _⟩
  | write a v => exact ⟨_, rfl, busWrite_keepsPending (s := { s with inputs := rest }) hb a v⟩
  | coreTurn => exact absurd rfl hcore
  | hardwareReset => exact absurd rfl hreset

/-- Settles O9: while busy, a read draws a word or records a fault at most, and a write records a fault or writes a staging
register at most. -/
theorem pendingCommandIsUndisturbed : Obligations.PendingCommandIsUndisturbed :=
  fun s t ev rest hb hi hcore hreset ht => by
    obtain ⟨t', ht', hkeeps⟩ := step_hostAccess hb hi hcore hreset
    cases ht'.symm.trans ht
    exact ⟨hkeeps.busy.trans hb, hkeeps.pending, hkeeps.inputs, hkeeps.arg, hkeeps.res, hkeeps.engine, hkeeps.prep,
      hkeeps.par, hkeeps.audio⟩

/-- The values a staging register has held since the pending command was accepted, the present one first (log 6). -/
def heldValues (s : State) (p : ParamIdx) : List Word := s.stage.get p :: s.stageOld.get p

theorem stagedWord_mem_heldValues (s : State) (p : ParamIdx) : stagedWord s p ∈ heldValues s p :=
  List.mem_cons.mpr (stagedWord_mem s p)

/-- A write while a command is pending adds its word to the values of its own register. -/
theorem heldValues_writeStage {s : State} (hb : s.busy = true) (q p : ParamIdx) (v : Word) :
    heldValues (writeStage q v s) p = if q = p then v :: heldValues s p else heldValues s p := by
  rw [writeStage_busy hb]
  split
  · subst q; simp only [heldValues, ParamSet.get_set_same]
  · simp only [heldValues, ParamSet.get_set_ne _ (Ne.symm ‹_›)]

theorem busy_writeStage {s : State} (hb : s.busy = true) (p : ParamIdx) (v : Word) : (writeStage p v s).busy = true := by
  rw [writeStage_busy hb]; exact hb

/-- After a list of writes: the words written to the register, the last one first, and then what it held before. -/
theorem heldValues_foldl_writeStage {s : State} (hb : s.busy = true) (writes : List (ParamIdx × Word)) (p : ParamIdx) :
    heldValues (writes.foldl (fun t w => writeStage w.1 w.2 t) s) p =
      ((writes.filter fun w => decide (w.1 = p)).map Prod.snd).reverse ++ heldValues s p := by
  induction writes generalizing s with
  | nil => rfl
  | cons w writes ih =>
    rw [List.foldl_cons, ih (busy_writeStage hb w.1 w.2), heldValues_writeStage hb]
    by_cases hw : w.1 = p <;> simp [hw]

/-- Settles O11: the value taken is one the register has held, and those are the one at acceptance and the writes since. -/
theorem racedParameterIsOneTheHostHeld : Obligations.RacedParameterIsOneTheHostHeld := fun s writes p hb hold => by
  have hmem := stagedWord_mem_heldValues (writes.foldl (fun t w => writeStage w.1 w.2 t) s) p
  have hnone : s.stageOld.get p = [] := by rw [hold]; cases p <;> rfl
  rw [heldValues_foldl_writeStage hb, heldValues, hnone, List.mem_append, List.mem_reverse, List.mem_singleton] at hmem
  refine ⟨List.mem_cons.mpr hmem.symm, fun hother => hmem.resolve_left fun h => ?_⟩
  obtain ⟨w, hw, -⟩ := List.mem_map.mp h
  obtain ⟨hw, hp⟩ := List.mem_filter.mp hw
  exact hother w hw (of_decide_eq_true hp)

/-- Settles O10: each address by what it names; the staged value is one the register has held. -/
theorem accessesWhileBusy : Obligations.AccessesWhileBusy := fun s a v hb h4 => by
  refine ⟨fun h => ?_, fun ⟨hlow, hhigh⟩ => ?_, fun h => ?_, ?_, ?_, ?_, ?_, ?_, ?_, ?_, ?_, ?_,
    fun ⟨hlow, hhigh⟩ p hp => ?_⟩
  · rcases h with ⟨hlow, hhigh⟩ | hlow
    · obtain ⟨i, ht⟩ := busTarget_arg h4 hlow hhigh
      exact (busWrite_arg s ht v).trans (writeUnlessBusy_busy hb a _)
    · exact (busWrite_audio s (busTarget_audio h4 hlow) v).trans (writeUnlessBusy_busy hb a _)
  · obtain ⟨p, hp, ht⟩ := busTarget_stage h4 hlow hhigh
    have hmem := stagedWord_mem_heldValues (writeStage p v s) p
    rw [heldValues_writeStage hb, if_pos rfl, heldValues, List.mem_cons, List.mem_cons] at hmem
    refine ⟨p, hp, ?_⟩
    rw [busWrite_stage s ht]
    refine ⟨?_, ?_, busy_writeStage hb p v, ?_, hmem⟩ <;> rw [writeStage_busy hb]
    exact ⟨rfl, rfl, rfl⟩
  · rcases h with ⟨hlow, hhigh⟩ | hlow
    · obtain ⟨i, ht⟩ := busTarget_res h4 hlow hhigh
      exact (busReadValue_resTarget s ht).trans (unlessBusy_busy hb _)
    · exact (busReadValue_audio s (busTarget_audio h4 hlow)).trans (unlessBusy_busy hb _)
  · rintro rfl; exact busReadValue_id s
  · rintro rfl; rw [busReadValue_caps, capsWord_eq]
  · rintro rfl; exact busReadValue_status s
  · rintro rfl; exact busReadValue_fault s
  · rintro rfl; rfl
  · rintro rfl; exact busReadValue_arg s (i := .i0) rfl
  · rintro rfl; exact busReadValue_arg s (i := .i1) rfl
  · rintro rfl; exact busReadValue_arg s (i := .i2) rfl
  · rintro rfl; exact busReadValue_arg s (i := .i3) rfl
  · obtain ⟨q, hq, ht⟩ := busTarget_stage h4 hlow hhigh
    cases hq.symm.trans hp
    exact busReadValue_stage s ht

/-! ### Hardware reset (R380) -/

theorem busReadValue_status_hardwareReset (s : State) :
    busReadValue 0x008 (hardwareReset s) = (0, hardwareReset s) :=
  (busReadValue_status _).trans (congrArg (·, hardwareReset s) (by decide : statusWord State.reset = 0))

theorem busReadValue_fault_hardwareReset (s : State) :
    busReadValue 0x00C (hardwareReset s) = (0, hardwareReset s) :=
  (busReadValue_fault _).trans (congrArg (·, hardwareReset s) (by decide : faultWord State.reset = 0))

/-- Settles O1: the step is `hardwareReset`, whose registers are read one by one. -/
theorem hardwareResetSetsTheTable : Obligations.HardwareResetSetsTheTable := fun s rest hi => by
  refine ⟨hardwareReset { s with inputs := rest }, step_cons hi, rfl, rfl, rfl, ?_, rfl, rfl, rfl, rfl, rfl, fun _ => rfl⟩
  simp only [List.forall_mem_cons, List.not_mem_nil, false_implies, implies_true, and_true]
  exact ⟨rfl, rfl, busReadValue_status_hardwareReset _, busReadValue_fault_hardwareReset _, rfl, rfl, rfl, rfl, rfl, rfl,
    rfl, rfl, rfl, rfl, rfl, rfl, rfl, rfl, rfl, rfl⟩

/-! ### The step (R100, R110, R112, R365, R396) -/

theorem coreTurn_answers (s : State) : ∃ t, coreTurn s = .next t := by
  cases hb : s.busy with
  | false => exact ⟨s, coreTurn_idle hb⟩
  | true =>
    obtain ⟨t, ht, -⟩ := coreStep_cases s
    exact ⟨_, (coreTurn_busy hb).trans ht⟩

theorem step_answers (s : State) : ∃ t, step s = .next t := by
  cases hi : s.inputs with
  | nil => rw [step_nil hi]; exact coreTurn_answers s
  | cons ev rest =>
    rw [step_cons hi]
    cases ev with
    | read | write | hardwareReset => exact ⟨_, rfl⟩
    | coreTurn => exact coreTurn_answers _

theorem afterEvent_nil {s : State} (h : s.inputs = []) : afterEvent s = s := by
  rw [afterEvent, h, List.tail_nil, ← h]

theorem afterEvent_cons {s : State} {ev : BusEvent} {rest : List BusEvent} (h : s.inputs = ev :: rest) :
    afterEvent s = { s with inputs := rest } := by
  rw [afterEvent, h, List.tail_cons]

/-- Settles O19: each event's step is its operation on the state after the event. -/
theorem everyStepAnswers : Obligations.EveryStepAnswers := by
  refine ⟨step_answers, ?_, fun s addr v rest hi => ?_, fun s addr rest hi => ?_⟩
  · rintro s hb (hi | ⟨rest, hi⟩)
    · rw [step_nil hi, coreTurn_idle hb, afterEvent_nil hi]
    · rw [step_cons hi, afterEvent_cons hi]
      exact coreTurn_idle (s := { s with inputs := rest }) hb
  · obtain ⟨hinputs, hreads⟩ := busWrite_io addr v { s with inputs := rest }
    rw [step_cons hi, afterEvent_cons hi]
    exact ⟨_, rfl, rfl, hinputs, hreads⟩
  · rw [step_cons hi, afterEvent_cons hi]
    exact ⟨_, _, _, rfl, rfl, busRead_eq addr _, (busReadValue_io addr _).1⟩

/-- Settles O18: a step of the core is `exec` of the decoded command, completed. -/
theorem stepRunsTheDecodedCommand : Obligations.StepRunsTheDecodedCommand := fun s i ⟨hmoves, hd⟩ => by
  obtain ⟨t, ht, -⟩ := exec_cases i (afterEvent s)
  exact ⟨t, ht, (step_moves hmoves).trans (coreStep_ok hd ht)⟩

/-- Settles O48: of the steps, only reset and the command SET_PARAMS write the parameters. -/
theorem onlySetParamsChangesParameters : Obligations.OnlySetParamsChangesParameters := fun s t h hpar => by
  rcases step_next_cases h with ⟨-, -, u, rfl, ⟨c, rfl⟩ | ⟨i, hnext, hran⟩⟩ | rfl | ⟨a, rfl⟩ | ⟨a, v, rfl⟩ | ⟨hreset, -⟩
  · exact absurd rfl hpar
  · by_cases hi : i = .setParams
    · exact .inr (hi ▸ hnext)
    · exact absurd (hran.par hi) hpar
  · exact absurd rfl hpar
  · exact absurd (busRead_keeps a _).1 hpar
  · exact absurd (busWrite_keeps a v _).1 hpar
  · exact .inl hreset

/-! ### Every pending command completes (R112, R396) -/

theorem runSteps_succ {s t : State} (h : step s = .next t) (n : Nat) : runSteps (n + 1) s = runSteps n t := by
  rw [runSteps, h]

/-- What the statement of R396 says of `s`: after `n` steps that leave the command pending, it is executed. -/
def CompletesWithin (s : State) (n : Nat) : Prop :=
  ∃ m t, runSteps n s = .next m ∧ m.busy = true ∧ m.pending = s.pending ∧ coreMovesNext m ∧
    coreStep (afterEvent m) = .next t ∧ runSteps (n + 1) s = .next t ∧ t.busy = false

/-- When the core moves next, the command completes in that step. -/
theorem completesWithin_zero {s : State} (h : coreMovesNext s) : CompletesWithin s 0 := by
  obtain ⟨t, ht, -⟩ := coreStep_cases (afterEvent s)
  exact ⟨s, _, rfl, h.1, rfl, h, ht, runSteps_succ ((step_moves h).trans ht) 0, rfl⟩

/-- A host access before that delays it by one step. -/
theorem completesWithin_succ {s u : State} (hs : step s = .next u) (hpending : u.pending = s.pending) {n : Nat}
    (h : CompletesWithin u n) : CompletesWithin s (n + 1) := by
  obtain ⟨m, t, hm, hb, hp, hmoves, ht, hrun, hdone⟩ := h
  exact ⟨m, t, (runSteps_succ hs n).trans hm, hb, hp.trans hpending, hmoves, ht, (runSteps_succ hs _).trans hrun, hdone⟩

theorem pendingCommand_completes {s : State} (hb : s.busy = true) (hr : .hardwareReset ∉ s.inputs) :
    ∃ n, n ≤ s.inputs.length ∧ CompletesWithin s n := by
  induction hi : s.inputs generalizing s with
  | nil => exact ⟨0, Nat.zero_le _, completesWithin_zero ⟨hb, .inl hi⟩⟩
  | cons ev rest ih =>
    by_cases hcore : ev = .coreTurn
    · exact ⟨0, Nat.zero_le _, completesWithin_zero ⟨hb, .inr ⟨rest, hcore ▸ hi⟩⟩⟩
    · rw [hi, List.mem_cons, not_or] at hr
      obtain ⟨hreset, hr⟩ := hr
      obtain ⟨u, hu, hkeeps⟩ := step_hostAccess hb hi hcore (Ne.symm hreset)
      have hinputs : u.inputs = rest := hkeeps.inputs
      obtain ⟨n, hn, hdone⟩ := ih (hkeeps.busy.trans hb) (hinputs ▸ hr) hinputs
      exact ⟨n + 1, Nat.succ_le_succ hn, completesWithin_succ hu hkeeps.pending hdone⟩

/-- Settles O57: each event before the core's turn is a host access, which leaves the command pending and one event
fewer. -/
theorem pendingCommandCompletes : Obligations.PendingCommandCompletes := fun _ hb hr => by
  obtain ⟨n, hn, m, t, h⟩ := pendingCommand_completes hb hr
  exact ⟨n, m, t, hn, h⟩

end Sys2Proof.Machine
end

section
/-! The engine's units over time (spec/40_delay_line.md R169, spec/42_lfo.md R212 to R214, spec/43_damping.md R236): a
read at an integer offset, the range of the phase, and a NaN in a damping chain. -/

namespace Sys2Proof.Machine

open Ieee

/-! ### A fractional read at an integer offset (R169) -/

theorem isNeg_eq_getLsbD (a : Word) : isNeg binary32 a.toNat = a.getLsbD 31 := by
  rw [isNeg, signBit32, BitVec.getLsbD, Nat.testBit_eq_decide_div_mod_eq]

/-- At an integer offset the fraction is `+0`, and what is left of the interpolation is a sum with `+0 * (b - a)`. -/
theorem DelayLine.readFractional_nat32 (l : DelayLine) {k : Nat} (h0 : k ≠ 0) (h : k < 2 ^ 24) :
    l.readFractional (nat32 k) =
      fadd (l.popFixed k) (fmul 0 (fsub (l.popFixed (k + 1)) (l.popFixed k))) := by
  rw [DelayLine.readFractional, floor32, floor_nat32 h0 h, fsub_self (val32_nat32 h0 h)]

/-- A difference that is finite is of words that are no NaN. -/
theorem isNaN_of_finite_fsub {a b : Word} (h : isFinite32 (fsub b a) = true) : isNaN a = false := by
  refine (Bool.not_eq_true _).mp fun hn => ?_
  rw [fsub_nan_right hn] at h
  exact absurd h (by decide)

/-- Settles O27: the sum with a zero of the difference's sign, or with the canonical NaN. -/
theorem integerOffsetReadsTheSample : Obligations.IntegerOffsetReadsTheSample := fun l k h1 hk hN => by
  rw [l.readFractional_nat32 (by omega) (by omega)]
  generalize hd : fsub (l.popFixed (k + 1)) (l.popFixed k) = d
  have sum (hf : isFinite32 d = true) : fadd (l.popFixed k) (fmul 0 d) =
      if l.popFixed k = 0x80000000 ∧ d.getLsbD 31 = false then 0 else l.popFixed k := by
    rw [fmul_zero_finite (of_decide_eq_true hf), isNeg_eq_getLsbD, fadd_zero (isNaN_of_finite_fsub (hd ▸ hf))]
  refine ⟨fun hf hne => ?_, fun hf heq => ?_, fun hf => ?_⟩
  · rw [sum hf, if_neg fun h => hne h.1]
  · rw [sum hf, heq]
    cases d.getLsbD 31 <;> rfl
  · rw [fmul_zero_not_finite (of_decide_eq_false hf), fadd_nan_right isNaN_quiet]

/-! ### A NaN in a damping chain (R236) -/

/-- The three states of the chain are the canonical NaN, with the high-pass enabled. -/
structure Damp.IsStuck (d : Damp) : Prop where
  enabled : d.hpEn = true
  sLP : d.sLP = 0x7FC00000
  sHP : d.sHP = 0x7FC00000
  sPSY : d.sPSY = 0x7FC00000

/-- A NaN that leaves the low-pass runs through the two stages after it. -/
theorem Damp.process_isStuck_of_lowPass {d : Damp} (h : d.hpEn = true) {x : Word}
    (hlp : (d.process x).1.sLP = 0x7FC00000) : (d.process x).1.IsStuck := by
  obtain ⟨hhp, hy2⟩ := Damp.process_highPass_of_enabled h x
  refine ⟨h, hlp, ?_, ?_⟩
  · rw [hhp, hlp, fmul_nan_right isNaN_quiet, fadd_nan_right isNaN_quiet]
  · rw [Damp.process_sPSY, hy2, hlp, fsub_nan_left isNaN_quiet, fmul_nan_right isNaN_quiet, fadd_nan_right isNaN_quiet]

theorem Damp.process_isStuck_of_sample {d : Damp} (h : d.hpEn = true) {x : Word} (hx : isNaN x = true) :
    (d.process x).1.IsStuck :=
  Damp.process_isStuck_of_lowPass h (by
    rw [Damp.process_sLP, fmul_nan_right hx, fadd_nan_right isNaN_quiet])

theorem Damp.IsStuck.process {d : Damp} (h : d.IsStuck) (x : Word) : (d.process x).1.IsStuck :=
  Damp.process_isStuck_of_lowPass h.enabled (by
    rw [Damp.process_sLP, h.sLP, fmul_nan_right isNaN_quiet, fadd_nan_left isNaN_quiet])

theorem Damp.IsStuck.foldl_process {d : Damp} (h : d.IsStuck) (xs : List Word) :
    (xs.foldl (fun c y => (c.process y).1) d).IsStuck := by
  induction xs generalizing d with
  | nil => exact h
  | cons x xs ih => exact ih (h.process x)

/-- Settles O34: the NaN sample sticks, and every later sample leaves the chain stuck. -/
theorem nanSticksInDamping : Obligations.NanSticksInDamping := fun d x xs h hx => by
  have hstuck := (Damp.process_isStuck_of_sample h hx).foldl_process xs
  exact ⟨_, rfl, hstuck.sLP, hstuck.sHP, hstuck.sPSY, fun y => (hstuck.process y).sPSY⟩

/-! ### The range of the phase (R50, R214) -/

theorem key32_zero : key32 0 = 0 := by decide

theorem isFinite_of_key32 {a : Word} (h : 0 ≤ key32 a) (hlt : key32 a < 2139095040) :
    magOf binary32 a.toNat < binary32.infMag := by
  rw [key32_magOf h] at hlt
  rw [infMag32]
  omega

/-- The greatest sum before the wrap: 2π and an increment of 0.004. -/
def maxPhaseSum : Word := fadd twoPi32 0x3B83126F

/-- A sum of two values, neither negative nor greater than the words of a known sum, is not greater than that sum. -/
theorem fadd_range {a b a' b' : Word} (ha : 0 ≤ key32 a) (hb : 0 ≤ key32 b) (haa : key32 a ≤ key32 a')
    (hbb : key32 b ≤ key32 b') (ha' : key32 a' < 2139095040) (hb' : key32 b' < 2139095040) :
    isNaN (fadd a b) = false ∧ 0 ≤ key32 (fadd a b) ∧ key32 (fadd a b) ≤ key32 (fadd a' b') := by
  have hfa := isFinite_of_key32 ha (by omega)
  have hfb := isFinite_of_key32 hb (by omega)
  have hfa' := isFinite_of_key32 (a := a') (by omega) ha'
  have hfb' := isFinite_of_key32 (a := b') (by omega) hb'
  have hua := units32_nonneg ha
  have hub := units32_nonneg hb
  have hua' := units32_le ha haa hfa'
  have hub' := units32_le hb hbb hfb'
  rw [key32_fadd hfa hfb (by omega), key32_fadd hfa' hfb' (by omega)]
  exact ⟨isNaN_fadd_finite hfa hfb, Int.natCast_nonneg _, Int.ofNat_le.mpr (roundMag_mono _ (by omega) _)⟩

/-- The wrap: from a sum in `[2π, maxPhaseSum]` one subtraction leads below 2π. -/
theorem fsub_twoPi_range {t : Word} (hlow : key32 twoPi32 ≤ key32 t) (hhigh : key32 t ≤ key32 maxPhaseSum) :
    isNaN (fsub t twoPi32) = false ∧ 0 ≤ key32 (fsub t twoPi32) ∧ key32 (fsub t twoPi32) < key32 twoPi32 := by
  have hpi : key32 twoPi32 = 1086918619 := by decide
  have hmax : key32 maxPhaseSum = 1086927008 := by decide
  have hfpi : magOf binary32 (fneg twoPi32).toNat < binary32.infMag := by decide
  have hft := isFinite_of_key32 (a := t) (by omega) (by omega)
  have hfmax : magOf binary32 maxPhaseSum.toNat < binary32.infMag := by decide
  have hu := units32_le (by omega) hlow hft
  have hu' := units32_le (by omega) hhigh hfmax
  have hneg := units32_fneg twoPi32
  refine ⟨isNaN_fadd_finite hft hfpi, ?_⟩
  rw [fsub, key32_fadd hft hfpi (by omega), hneg]
  refine ⟨Int.natCast_nonneg _, ?_⟩
  have hround : roundMag binary32 (units32 maxPhaseSum - units32 twoPi32).toNat (-149) < 1086918619 := by decide
  have hmono := roundMag_mono binary32 (show (units32 t + -units32 twoPi32).toNat ≤
    (units32 maxPhaseSum - units32 twoPi32).toNat by omega) (-149)
  omega

theorem phaseOk_iff {l : Lfo} : PhaseOk l ↔
    isNaN l.theta = false ∧ 0 ≤ key32 l.theta ∧ key32 l.theta < key32 twoPi32 := by
  have hpi : isNaN twoPi32 = false := by decide
  refine ⟨fun h => ⟨h.number, ?_, (fle_false_iff hpi h.number).mp h.high⟩,
    fun ⟨hn, hlow, hhigh⟩ => ⟨fle_iff.mpr ⟨by decide, hn, ?_⟩, (fle_false_iff hpi hn).mpr hhigh, hn⟩⟩
  · rw [← key32_zero]; exact (fle_iff.mp h.low).2.2
  · rw [key32_zero]; exact hlow

/-- A tick keeps the phase in its range, with one wrap at most (R214). -/
theorem PhaseOk.tick {l : Lfo} (h : PhaseOk l) (hlow : fle 0 l.delta = true) (hhigh : fle l.delta 0x3B83126F = true) :
    PhaseOk l.tick.1 := by
  obtain ⟨-, htheta, hbelow⟩ := phaseOk_iff.mp h
  obtain ⟨-, -, hdelta⟩ := fle_iff.mp hlow
  obtain ⟨-, -, hstep⟩ := fle_iff.mp hhigh
  rw [key32_zero] at hdelta
  obtain ⟨hn, hsum, hmax⟩ := fadd_range htheta hdelta (Int.le_of_lt hbelow) hstep (by decide) (by decide)
  rw [phaseOk_iff]
  show isNaN l.nextTheta = false ∧ 0 ≤ key32 l.nextTheta ∧ key32 l.nextTheta < key32 twoPi32
  cases hr : fle twoPi32 (fadd l.theta l.delta) with
  | true =>
    rw [Lfo.nextTheta_of_reached hr]
    exact fsub_twoPi_range (fle_iff.mp hr).2.2 hmax
  | false =>
    rw [Lfo.nextTheta_of_not_reached hr]
    exact ⟨hn, hsum, (fle_false_iff (by decide) hn).mp hr⟩

/-- The increment's range (R212), by the encoding. -/
theorem IncrementOk.of_toNat {l : Lfo} (h0 : 0 < l.delta.toNat) (h1 : l.delta.toNat ≤ 0x3B80ADFD) : IncrementOk l := by
  have hkey := key32_of_lt (a := l.delta) (by omega)
  have hhigh : key32 0x3B80ADFD = 0x3B80ADFD := by decide
  have hn : isNaN l.delta = false := by
    rw [isNaN, isNaNEnc, decide_eq_false_iff_not, infMag32, magOf, signBit32]
    omega
  refine ⟨hn, (fle_false_iff hn (by decide)).mpr ?_, fle_iff.mpr ⟨hn, by decide, ?_⟩⟩
  · rw [key32_zero]; omega
  · rw [hhigh]; omega

/-- An increment of R212 is in the range that R214's one wrap supposes. -/
theorem IncrementOk.step_range {l : Lfo} (h : IncrementOk l) :
    fle 0 l.delta = true ∧ fle l.delta 0x3B83126F = true :=
  ⟨fle_of_not_fle h.number (by decide) h.low, fle_trans h.high (by decide)⟩

/-- In a state of the invariant the increment is the one of the applied modulation rate and the sample rate. -/
theorem Inv.incrementOk {s : State} {e : Engine} (h : Inv s) (he : s.engine = some e) : IncrementOk (engineLfo e) := by
  have hprep := h.prepared_ok he
  have hdelta : (engineLfo e).delta = lfoDelta (s.par.get .modRate) s.prep.fs :=
    (congrArg (fun e => (engineLfo e).delta) (h.engine_ok he).recompute_eq_self.symm).trans
      (congrArg Lfo.delta (engineLfo_recompute _ _ _ e))
  obtain ⟨hlow, hhigh⟩ := h.params .modRate
  obtain ⟨h0, h1⟩ := lfoDelta_range hlow hhigh hprep.rateLow hprep.rateHigh
  rw [← hdelta] at h0 h1
  exact .of_toNat h0 h1

/-! ### The phase across a step -/

theorem engineLfo_sampleEngine (P : Preset) (e : Engine) (x : Frame) :
    engineLfo (sampleEngine P e x).1 = (engineLfo e).tick.1 := by cases e <;> rfl

theorem PhaseOk.of_theta_zero {l : Lfo} (h : l.theta = 0) : PhaseOk l :=
  phaseOk_iff.mpr (by rw [h]; decide)

/-- A block ticks the oscillator once per frame. -/
theorem runFrames_phaseOk (P : Preset) (ch : Nat) (mix : Word) (epoch k n : Nat) {b : BlockState}
    (h : PhaseOk (engineLfo b.engine)) (hd : IncrementOk (engineLfo b.engine)) :
    PhaseOk (engineLfo (runFrames P ch mix epoch k n b).engine) ∧
      IncrementOk (engineLfo (runFrames P ch mix epoch k n b).engine) := by
  induction k with
  | zero => exact ⟨h, hd⟩
  | succ k ih =>
    obtain ⟨hphase, hinc⟩ := ih
    obtain ⟨hlow, hhigh⟩ := hinc.step_range
    rw [runFrames_succ, frameStep_engine, frameResult, engineLfo_sampleEngine]
    exact ⟨hphase.tick hlow hhigh, hinc.number, hinc.low, hinc.high⟩

theorem theta_clearEngine (e : Engine) : (engineLfo (clearEngine e)).theta = 0 := by rw [engineLfo_clearEngine]

/-- A command ticks the phase, restarts it, or leaves it. -/
theorem Ran.phaseOk {s t : State} {i : Instr} {e' : Engine} (h : Ran s i t)
    (hs : ∀ e, s.engine = some e → PhaseOk (engineLfo e) ∧ IncrementOk (engineLfo e)) (ht : t.engine = some e') :
    PhaseOk (engineLfo e') := by
  cases h with
  | dlPush he => cases ht; rw [(regs_setLine _ _ _).2.1]; exact (hs _ he).1
  | apProcess he | apSetGain he => cases ht; rw [(regs_setAllpass _ _ _).2.1]; exact (hs _ he).1
  | dampProcess he => cases ht; rw [(units_setDampOf _ _ _).2.2]; exact (hs _ he).1
  | lfoTick he hl =>
    cases ht
    obtain ⟨-, rfl⟩ := lfoOf_eq_some.mp hl
    obtain ⟨hphase, hinc⟩ := hs _ he
    rw [engineLfo_setEngineLfo]
    exact hphase.tick hinc.step_range.1 hinc.step_range.2
  | lfoReset he hl => cases ht; rw [engineLfo_setEngineLfo]; exact .of_theta_zero rfl
  | prepare => cases ht; rw [← clearEngine_build]; exact .of_theta_zero (theta_clearEngine _)
  | reset => cases ht; exact .of_theta_zero (theta_clearEngine _)
  | setParams he =>
    cases ht
    have hphase := (hs _ he).1
    rw [engineLfo_recompute]
    exact ⟨hphase.low, hphase.high, hphase.number⟩
  | processBlock he => cases ht; exact (runFrames_phaseOk _ _ _ _ _ _ (hs _ he).1 (hs _ he).2).1
  | dlPopFixed | dlReadFrac | dlInfo | apInfo | lfoInfo | dampInfo | nop | getParam | engInfo => exact (hs _ ht).1

theorem step_phaseOk {s t : State} {e : Engine} (h : step s = .next t)
    (hs : ∀ e, s.engine = some e → PhaseOk (engineLfo e) ∧ IncrementOk (engineLfo e)) (ht : t.engine = some e) :
    PhaseOk (engineLfo e) := by
  rcases step_next_cases h with ⟨-, -, u, rfl, ⟨c, rfl⟩ | ⟨i, -, hran⟩⟩ | rfl | ⟨a, rfl⟩ | ⟨a, v, rfl⟩ | ⟨-, rfl⟩
  · exact (hs e ht).1
  · exact hran.phaseOk hs ht
  · exact (hs e ht).1
  · obtain ⟨-, -, hengine, -⟩ := busRead_keeps a (afterEvent s)
    exact (hs e (hengine ▸ ht)).1
  · obtain ⟨-, -, hengine, -⟩ := busWrite_keeps a v (afterEvent s)
    exact (hs e (hengine ▸ ht)).1
  · cases ht

/-- Settles O32: a tick by the arithmetic of the sum and the wrap, the increment by the invariant, and a step by what it can
do to the phase. -/
theorem phaseStaysInRange : Obligations.PhaseStaysInRange := by
  refine ⟨fun l hlow hhigh hn hd hd' => ?_, fun s e hs he => hs.incrementOk he, fun s t hs hphase h e ht => ?_⟩
  · obtain ⟨hlow, hhigh, hn⟩ := PhaseOk.tick ⟨hlow, hhigh, hn⟩ hd hd'
    exact ⟨hlow, hhigh, hn⟩
  · exact ⟨step_phaseOk h (fun e he => ⟨hphase e he, hs.incrementOk he⟩) ht, (step_keeps_inv hs h).incrementOk ht⟩

end Sys2Proof.Machine
end

section
/-! PREPARE and SET_PARAMS (spec/46_host_commands.md R313, R320, R321): the sizes and the clean engine that PREPARE builds,
and what SET_PARAMS applies. -/

namespace Sys2Proof.Machine

open Ieee

/-! ### The times of R60 and the factors of R163 as encodings -/

theorem dec64_half : dec64 5 1 = 0x3FE0000000000000 := by decide

theorem one64_eq : one64 = 0x3FF0000000000000 := by decide

theorem preset_roomMax : preset.roomMax = 0x3FFC000000000000 := by decide

theorem preset_hallModFrac64 : preset.hallModFrac64 = 0x3F847AE147AE147B := by decide

theorem preset_plateModFrac64 : preset.plateModFrac64 = 0x3F589374BC6A7EFA := by decide

theorem preset_preMaxMs : preset.preMaxMs = 0x4069000000000000 := by decide

theorem preset_hallEarlyMs : preset.hallEarlyMs =
    ⟨⟨0x4013147AE147AE14, 0x400CB851EB851EB8⟩, ⟨0x40141EB851EB851F, 0x400DD70A3D70A3D7⟩⟩ := by decide

theorem preset_hallLateMs : preset.hallLateMs =
    ⟨⟨0x4021DC28F5C28F5C, 0x40193D70A3D70A3D⟩, ⟨0x4022BD70A3D70A3D, 0x401AAE147AE147AE⟩⟩ := by decide

theorem preset_plateEarlyMs : preset.plateEarlyMs =
    ⟨⟨0x40113D70A3D70A3D, 0x40095C28F5C28F5C, 0x402675C28F5C28F6, 0x40202E147AE147AE⟩,
      ⟨0x40121EB851EB851F, 0x400AF5C28F5C28F6, 0x40276B851EB851EC, 0x4020D1EB851EB852⟩⟩ := by decide

/-! ### The units of a built engine (R163, R191) -/

theorem hallTankCapacity_eq (fs ms : DWord) : hallTankCapacity preset fs ms = ceilVal (val64
    (ddiv (dmul (dmul (dmul ms 0x3FFC000000000000) (dadd 0x3FF0000000000000 0x3F847AE147AE147B)) fs)
      0x408F400000000000)) + 4 := by
  rw [hallTankCapacity, preset_roomMax, one64_eq, preset_hallModFrac64, dec64_thousand]
  rfl

theorem plateFdnCapacity_eq (fs ms : DWord) : plateFdnCapacity preset fs ms = ceilVal (val64
    (ddiv (dmul (dmul (dmul ms 0x3FFC000000000000) (dadd 0x3FF0000000000000 0x3F589374BC6A7EFA)) fs)
      0x408F400000000000)) + 4 := by
  rw [plateFdnCapacity, preset_roomMax, one64_eq, preset_plateModFrac64, dec64_thousand]
  rfl

theorem platePreCapacity_eq (fs : DWord) : platePreCapacity preset fs = ceilVal (val64
    (ddiv (dmul (dadd 0x4069000000000000 0x0000000000000000) fs) 0x408F400000000000)) + 4 := by
  rw [platePreCapacity, preset_preMaxMs, preset_platePreROffsetMs, dec64_thousand]
  rfl

theorem allpassDelay_eq (ms fs : DWord) : allpassDelay ms fs =
    max 1 (floorVal (val64 (dadd (ddiv (dmul ms fs) 0x408F400000000000) 0x3FE0000000000000))) := by
  rw [allpassDelay, dec64_thousand, dec64_half]
  rfl

/-- A line unit that was built for `x` samples. -/
theorem isLineFor_build {e : Engine} {u : UnitId} {x : DWord} {n : Nat} (h : lineOf e u = some (clearedLine n))
    (hn : n = ceilVal (val64 x) + 4) : IsLineFor e u x :=
  ⟨_, h, hn⟩

/-- An allpass unit that was built for `ms` milliseconds. -/
theorem isStageOf_build {e : Engine} {u : UnitId} {fs ms ms' : DWord} {g : Word}
    (h : allpassOf e u = some (buildAllpass preset fs g ms)) (hms : ms = ms') : IsStageOf fs e u ms' :=
  ⟨_, h, hms ▸ allpassDelay_eq ms fs, rfl⟩

section
variable (fs : DWord) (par : ParamSet Word)

theorem build_tank (c : Ix2) : lineOf (buildEngine preset .hall fs par) (hallId (.tank c)) =
    some (clearedLine (hallTankCapacity preset fs (preset.hallTankMs.get c))) := by
  rw [buildEngine, lineOf_hallId]
  cases c <;> rfl

theorem build_hallEarly (c j : Ix2) : allpassOf (buildEngine preset .hall fs par) (hallId (.early c j)) =
    some (buildAllpass preset fs preset.hallEarlyG ((preset.hallEarlyMs.get c).get j)) := by
  rw [buildEngine, allpassOf_hallId]
  cases c <;> cases j <;> rfl

theorem build_hallLate (c j : Ix2) : allpassOf (buildEngine preset .hall fs par) (hallId (.late c j)) =
    some (buildAllpass preset fs preset.hallLateG ((preset.hallLateMs.get c).get j)) := by
  rw [buildEngine, allpassOf_hallId]
  cases c <;> cases j <;> rfl

theorem build_fdn (i : Ix4) : lineOf (buildEngine preset .plate fs par) (plateId (.fdn i)) =
    some (clearedLine (plateFdnCapacity preset fs (preset.plateFdnMs.get i))) := by
  rw [buildEngine, lineOf_plateId]
  cases i <;> rfl

theorem build_pre : lineOf (buildEngine preset .plate fs par) (plateId .pre) =
    some (clearedLine (platePreCapacity preset fs)) := by
  rw [buildEngine, lineOf_plateId]
  rfl

theorem build_plateEarly (c : Ix2) (k : Ix4) :
    allpassOf (buildEngine preset .plate fs par) (plateId (.early c k)) =
      some (buildAllpass preset fs preset.plateEarlyG ((preset.plateEarlyMs.get c).get k)) := by
  rw [buildEngine, allpassOf_plateId]
  cases c <;> cases k <;> rfl

theorem build_hallSizes : HallSizes fs (buildEngine preset .hall fs par) where
  tanks := by
    have tank (c : Ix2) := isLineFor_build (build_tank fs par c)
      ((congrArg (fun q => hallTankCapacity preset fs (Pair.get q c)) preset_hallTankMs).trans (hallTankCapacity_eq fs _))
    simp only [List.forall_mem_cons, List.not_mem_nil, false_implies, implies_true, and_true]
    exact ⟨tank .i0, tank .i1⟩
  stages := by
    have early (c j : Ix2) := isStageOf_build (build_hallEarly fs par c j)
      (congrArg (fun q => (Pair.get q c).get j) preset_hallEarlyMs)
    have late (c j : Ix2) := isStageOf_build (build_hallLate fs par c j)
      (congrArg (fun q => (Pair.get q c).get j) preset_hallLateMs)
    simp only [List.forall_mem_cons, List.not_mem_nil, false_implies, implies_true, and_true]
    exact ⟨early .i0 .i0, early .i0 .i1, early .i1 .i0, early .i1 .i1,
      late .i0 .i0, late .i0 .i1, late .i1 .i0, late .i1 .i1⟩

theorem build_plateSizes : PlateSizes fs (buildEngine preset .plate fs par) where
  lines := by
    have fdn (i : Ix4) := isLineFor_build (build_fdn fs par i)
      ((congrArg (fun q => plateFdnCapacity preset fs (Quad.get q i)) preset_plateFdnMs).trans (plateFdnCapacity_eq fs _))
    simp only [List.forall_mem_cons, List.not_mem_nil, false_implies, implies_true, and_true]
    exact ⟨fdn .i0, fdn .i1, fdn .i2, fdn .i3⟩
  preDelay := isLineFor_build (build_pre fs par) (platePreCapacity_eq fs)
  stages := by
    have early (c : Ix2) (k : Ix4) := isStageOf_build (build_plateEarly fs par c k)
      (congrArg (fun q => (Pair.get q c).get k) preset_plateEarlyMs)
    simp only [List.forall_mem_cons, List.not_mem_nil, false_implies, implies_true, and_true]
    exact ⟨early .i0 .i0, early .i0 .i1, early .i0 .i2, early .i0 .i3,
      early .i1 .i0, early .i1 .i1, early .i1 .i2, early .i1 .i3⟩

end

/-- Settles O41: each unit is built by the formula of its size, which is evaluated at 48000 Hz. -/
theorem preparedSizesAt48k : Obligations.PreparedSizesAt48k := fun par => by
  simp only [List.forall_mem_cons, List.not_mem_nil, false_implies, implies_true, and_true]
  have tank (c : Ix2) := congrArg (Option.map DelayLine.N) (build_tank 0x40E7700000000000 par c)
  have early (c j : Ix2) := congrArg (Option.map Allpass.M) (build_hallEarly 0x40E7700000000000 par c j)
  have late (c j : Ix2) := congrArg (Option.map Allpass.M) (build_hallLate 0x40E7700000000000 par c j)
  have fdn (i : Ix4) := congrArg (Option.map DelayLine.N) (build_fdn 0x40E7700000000000 par i)
  have pre := congrArg (Option.map DelayLine.N) (build_pre 0x40E7700000000000 par)
  have plate (c : Ix2) (k : Ix4) := congrArg (Option.map Allpass.M) (build_plateEarly 0x40E7700000000000 par c k)
  exact ⟨⟨(tank .i0).trans (by decide +kernel), (tank .i1).trans (by decide +kernel)⟩,
    ⟨(early .i0 .i0).trans (by decide +kernel), (early .i0 .i1).trans (by decide +kernel), (early .i1 .i0).trans (by decide +kernel),
      (early .i1 .i1).trans (by decide +kernel), (late .i0 .i0).trans (by decide +kernel), (late .i0 .i1).trans (by decide +kernel),
      (late .i1 .i0).trans (by decide +kernel), (late .i1 .i1).trans (by decide +kernel)⟩,
    ⟨(fdn .i0).trans (by decide +kernel), (fdn .i1).trans (by decide +kernel), (fdn .i2).trans (by decide +kernel), (fdn .i3).trans (by decide +kernel),
      pre.trans (by decide +kernel)⟩,
    ⟨(plate .i0 .i0).trans (by decide +kernel), (plate .i0 .i1).trans (by decide +kernel), (plate .i0 .i2).trans (by decide +kernel),
      (plate .i0 .i3).trans (by decide +kernel), (plate .i1 .i0).trans (by decide +kernel), (plate .i1 .i1).trans (by decide +kernel),
      (plate .i1 .i2).trans (by decide +kernel), (plate .i1 .i3).trans (by decide +kernel)⟩⟩

/-! ### The engine PREPARE builds is clear (R313) -/

theorem build_damp {k : EngineKind} {fs : DWord} {par : ParamSet Word} {u : UnitId} {d : Damp}
    (h : dampOf (buildEngine preset k fs par) u = some d) : d.sLP = 0 ∧ d.sHP = 0 ∧ d.sPSY = 0 := by
  rw [← clearEngine_build, dampOf_clearEngine, Option.map_eq_some_iff] at h
  obtain ⟨d, -, rfl⟩ := h
  exact ⟨rfl, rfl, rfl⟩

theorem build_report {k : EngineKind} {fs : DWord} {par : ParamSet Word} {u : UnitId} {r : LineReport}
    (h : reportOf (buildEngine preset k fs par) u = some r) : r.dcur = r.base ∧ r.fb = 0 := by
  rw [← clearEngine_build, reportOf_clearEngine, Option.map_eq_some_iff] at h
  obtain ⟨r, -, rfl⟩ := h
  exact ⟨rfl, rfl⟩

theorem build_derivedCoefficients (k : EngineKind) (fs : DWord) (par : ParamSet Word) :
    DerivedCoefficients par fs (buildEngine preset k fs par) :=
  recompute_build preset k fs par ▸ recompute_derivedCoefficients par fs _

theorem build_theta (k : EngineKind) (fs : DWord) (par : ParamSet Word) :
    (engineLfo (buildEngine preset k fs par)).theta = 0 := by cases k <;> rfl

/-- Settles O40: PREPARE runs, and what it builds is known unit by unit, state by state and formula by formula. -/
theorem prepareBuildsACleanEngine : Obligations.PrepareBuildsACleanEngine := fun s k hok => by
  have hexec := exec_prepare hok k
  have hran := Ran.prepare (k := k) ((prepareOk_iff s).mpr hok)
  refine ⟨_, _, hexec, prepared_engine k s, engineKind_build preset k (argF64 s) s.par, rfl, fun u l hl => ?_,
    fun u a ha => ?_, fun u d hd => build_damp hd, build_theta k (argF64 s) s.par,
    fun u r hr => build_report hr, ?_, ?_, recompute_build preset k (argF64 s) s.par,
    build_derivedCoefficients k (argF64 s) s.par, exec_keepsHost hexec, hran.faults, fun _ => rfl, rfl, rfl⟩
  · obtain ⟨n, hn, rfl⟩ := build_line hl
    exact ⟨rfl, hn, fun _ => rfl⟩
  · obtain ⟨hM, hN, hg⟩ := build_allpass ha
    exact ⟨hM, hN, by rw [hg]; cases k <;> rfl⟩
  · rintro rfl; exact build_hallSizes (argF64 s) s.par
  · rintro rfl; exact build_plateSizes (argF64 s) s.par

/-! ### SET_PARAMS (R320, R321) -/

/-- Settles O45: the command runs its row; each field applies a value that its staging register has held. -/
theorem setParamsAppliesAndRecomputes : Obligations.SetParamsAppliesAndRecomputes := fun s e he =>
  have hexec := exec_setParams he
  ⟨_, _, hexec, withApplied_engine e s,
    fun p => ⟨stagedWord s p, stagedWord_none, stagedWord_mem s p, appliedParams_get s p⟩,
    recompute_derivedCoefficients _ _ e, recompute_keepsSignalState preset _ _ e, exec_keepsHost hexec,
    (Ran.setParams he).faults, fun _ => rfl, withApplied_prep e s, rfl⟩

end Sys2Proof.Machine
end

section
/-! What the commands leave alone (spec/20_memory.md R122, spec/46_host_commands.md R332, spec/60_exceptions.md R364):
inspection, the capacities, blocks of audio, and the wet frame. -/

namespace Sys2Proof.Machine

open Ieee

/-! ### Inspection (R364, R395) -/

/-- Settles O37: an inspection command that runs writes result registers alone, and one that records a fault writes the
fault record alone, which is kept by hypothesis. -/
theorem inspectionChangesOnlyResults : Obligations.InspectionChangesOnlyResults := fun i s t hi h hfaults => by
  rcases exec_next_cases h with ⟨c, rfl⟩ | hran
  · exact ⟨⟨raiseFault_keepsHost c _ s, hfaults, rfl, rfl⟩, raiseFault_keepsAudio c _ s, rfl⟩
  · cases hran with
    | dlPopFixed | dlReadFrac | dlInfo | apInfo | lfoInfo | dampInfo | getParam | engInfo =>
      exact ⟨⟨exec_keepsHost h, hfaults, rfl, rfl⟩, fun _ => rfl, rfl⟩
    | _ => exact hi.elim

/-! ### Capacities (R122) -/

/-- `e'` has the kind, the lines with their capacities and the allpasses with their delays of `e`. -/
structure SameCapacities (e e' : Engine) : Prop where
  kind : engineKind e' = engineKind e
  lines : ∀ u, (lineOf e' u).map DelayLine.N = (lineOf e u).map DelayLine.N
  allpasses : ∀ u, (allpassOf e' u).map Allpass.M = (allpassOf e u).map Allpass.M

theorem SameCapacities.refl (e : Engine) : SameCapacities e e := ⟨rfl, fun _ => rfl, fun _ => rfl⟩

/-- Clearing keeps every capacity and every delay, so they can be read off the cleared engines. -/
theorem SameCapacities.of_clearEngine {e e' : Engine} (h : clearEngine e' = clearEngine e) : SameCapacities e e' where
  kind := by rw [← engineKind_clearEngine, h, engineKind_clearEngine]
  lines u := by
    have cleared (f : Engine) : (lineOf (clearEngine f) u).map DelayLine.N = (lineOf f u).map DelayLine.N := by
      rw [lineOf_clearEngine, Option.map_map]; rfl
    rw [← cleared e', h, cleared]
  allpasses u := by
    have cleared (f : Engine) : (allpassOf (clearEngine f) u).map Allpass.M = (allpassOf f u).map Allpass.M := by
      rw [allpassOf_clearEngine, Option.map_map]; rfl
    rw [← cleared e', h, cleared]

theorem SameCapacities.setGain {e : Engine} {u : UnitId} {a : Allpass} (ha : allpassOf e u = some a) (g : Word) :
    SameCapacities e (setAllpassOf e u { a with g := g }) := by
  have hkeeps := KeepsOtherUnits.setAllpass (a := { a with g := g }) ha
  have hsame := allpassOf_setAllpassOf_same (a := { a with g := g }) ha
  refine ⟨engineKind_setAllpassOf .., fun v => ?_, fun v => ?_⟩ <;> by_cases hv : v = u
  · rw [hv, lineOf_allpass hsame, lineOf_allpass ha]
  · rw [hkeeps.lines v hv]
  · rw [hv, hsame, ha]; rfl
  · rw [hkeeps.allpasses v hv]

theorem SameCapacities.recompute (P : Preset) (par : ParamSet Word) (fs : DWord) (e : Engine) :
    SameCapacities e (recomputeEngine P par fs e) where
  kind := engineKind_recompute P par fs e
  lines u := by rw [(units_recompute P par fs e u).1]
  allpasses u := by rw [(units_recompute P par fs e u).2.1]

/-- Every command but PREPARE keeps the capacities: SET_PARAMS and AP_SET_GAIN change coefficients, every other one what
clearing forgets. -/
theorem Ran.sameCapacities {s t : State} {i : Instr} {e : Engine} (h : Ran s i t) (hi : ∀ k, i ≠ .prepare k)
    (he : s.engine = some e) : ∃ e', t.engine = some e' ∧ SameCapacities e e' := by
  have signal (hopc : i.opc ≠ 0x01 ∧ i.opc ≠ 0x03 ∧ i.opc ≠ 0x21) :
      ∃ e', t.engine = some e' ∧ SameCapacities e e' := by
    have hclear := (h.samePrepared hopc).engine
    rw [he, Option.map_some, Option.map_eq_some_iff] at hclear
    obtain ⟨e', ht, hclear⟩ := hclear
    exact ⟨e', ht, .of_clearEngine hclear⟩
  cases h with
  | prepare => exact absurd rfl (hi _)
  | apSetGain he' ha =>
    cases he'.symm.trans he
    exact ⟨_, rfl, .setGain ha _⟩
  | setParams he' =>
    cases he'.symm.trans he
    exact ⟨_, rfl, .recompute ..⟩
  | dlPush | dlPopFixed | dlReadFrac | dlInfo | apProcess | apInfo | lfoTick | lfoReset | lfoInfo | dampProcess | dampInfo
    | nop | reset | getParam | processBlock | engInfo => exact signal (by simp [Instr.opc])

theorem step_sameCapacities {s t : State} {e : Engine} (he : s.engine = some e) (hr : noResetNext s)
    (hp : ∀ k, ¬ executesNext s (.prepare k)) (h : step s = .next t) :
    ∃ e', t.engine = some e' ∧ SameCapacities e e' := by
  rcases step_next_cases h with ⟨-, -, u, rfl, ⟨c, rfl⟩ | ⟨i, hnext, hran⟩⟩ | rfl | ⟨a, rfl⟩ | ⟨a, v, rfl⟩ |
    ⟨⟨rest, hrest⟩, -⟩
  · exact ⟨e, he, .refl e⟩
  · exact hran.sameCapacities (fun k hk => hp k (hk ▸ hnext)) he
  · exact ⟨e, he, .refl e⟩
  · obtain ⟨-, -, hengine, -⟩ := busRead_keeps a (afterEvent s)
    exact ⟨e, hengine.trans he, .refl e⟩
  · obtain ⟨-, -, hengine, -⟩ := busWrite_keeps a v (afterEvent s)
    exact ⟨e, hengine.trans he, .refl e⟩
  · exact absurd hrest (hr rest)

/-- Settles O56: host accesses keep the engine, and every command but PREPARE its capacities and delays. -/
theorem capacitiesAreFixed : Obligations.CapacitiesAreFixed := fun s t e he hr hp h => by
  obtain ⟨e', ht, hsame⟩ := step_sameCapacities he hr hp h
  exact ⟨e', ht, hsame.kind, hsame.lines, hsame.allpasses⟩

/-! ### Blocks (R330 to R332) -/

/-- Settles O50: with a zero mix every frame writes back the words it read. -/
theorem mixBypassKeepsAudio : Obligations.MixBypassKeepsAudio := fun s e k he hk hmax hmix => by
  have hzero : isZero s.par.mix = true := by rcases hmix with h | h <;> rw [h] <;> decide
  exact ⟨_, (Ran.processBlock he hk).exec, fun a => runFrames_bypass _ _ hzero _ _ _ _ (by omega) a⟩

/-- A block of `a + b` frames is a block of `a` and then `b` frames from frame `a` on. -/
theorem blockAfter_add (s : State) (e : Engine) (a b : Nat) : blockAfter s e (a + b) =
    runFrames preset s.prep.numChannels s.par.mix s.audioEpoch b a (blockAfter s e a) := by
  rw [blockAfter, runFrames_add, Nat.zero_add, blockAfter]

/-- Settles O51: the last `b` frames of the long block see the engine and the input words that the moved block sees, and
write none of the first `a` words. -/
theorem blocksSplit : Obligations.BlocksSplit :=
  fun s m m' t w a b ab hready hmax hab hle hm hengine hprep hpar hinput ht hw => by
    obtain ⟨e, he⟩ := Option.ne_none_iff_exists'.mp hready
    cases (Ran.processBlock he (by omega)).exec.symm.trans hm
    cases (Ran.processBlock he hle).exec.symm.trans hw
    have he' : m'.engine = some (blockAfter s e a.toNat).engine := hengine
    have hprep' : m'.prep = s.prep := hprep
    have hpar' : m'.par = s.par := hpar
    cases (Ran.processBlock he' (by rw [hprep']; omega)).exec.symm.trans ht
    obtain ⟨hend, hwords⟩ := runFrames_congr preset s.prep.numChannels s.par.mix (epoch := s.audioEpoch)
      (epoch' := m'.audioEpoch) b.toNat (n := a.toNat) (n' := 0) (by omega) (by omega) (b := blockAfter s e a.toNat)
      (b' := ⟨(blockAfter s e a.toNat).engine, m'.audio⟩) rfl fun c i hi => by
        rw [Nat.zero_add, hinput c i hi]
        exact runFrames_word_other _ _ _ _ _ _ _ (by omega) (.inr (by omega)) (by omega) c
    rw [← blockAfter_add, ← hab] at hend hwords
    rw [← hprep', ← hpar'] at hend hwords
    simp only [Nat.zero_add] at hwords
    refine ⟨congrArg some hend, fun c n hn => ?_, hwords⟩
    show audioWord s.audioEpoch (blockAfter s e ab.toNat).audio _ =
      audioWord s.audioEpoch (blockAfter s e a.toNat).audio _
    rw [hab, blockAfter_add]
    exact runFrames_word_other _ _ _ _ _ _ _ (by omega) (.inl hn) (by omega) c

/-! ### The wet frame (R256, R287): the delays and what is read at them come before the input -/

section
variable (P : Preset) (h : Hall) (p : Plate) (x y : Frame)

theorem Hall.sample_dcur_congr : (h.sample P x).1.dcur = (h.sample P y).1.dcur := by
  rw [Hall.sample_dcur, Hall.sample_dcur]

theorem Hall.tankOut_congr (c : Ix2) : h.tankOut P x c = h.tankOut P y c := by
  rw [Hall.tankOut, Hall.tankOut, h.sample_dcur_congr P x y]

theorem Hall.sample_wet_congr : (h.sample P x).2 = (h.sample P y).2 := by
  have wet (c : Ix2) : (h.sample P x).2.channels.get c = (h.sample P y).2.channels.get c := by
    have hx := congrArg Prod.snd (h.sample_damp P x c)
    rw [h.tankOut_congr P x y] at hx
    exact hx.symm.trans (congrArg Prod.snd (h.sample_damp P y c))
  have hframe := congr (congrArg Frame.mk (wet .i0)) (wet .i1)
  exact hframe

theorem Hall.sample_fb_congr : (h.sample P x).1.fb = (h.sample P y).1.fb := by
  rw [Hall.sample_fb, Hall.sample_fb, h.sample_wet_congr P x y]

theorem Plate.sample_dcur_congr : (p.sample P x).1.dcur = (p.sample P y).1.dcur := rfl

theorem Plate.sample_wet_congr : (p.sample P x).2 = (p.sample P y).2 := by
  rw [Plate.sample_wet, Plate.sample_wet, Plate.lineOut, Plate.lineOut, p.sample_dcur_congr P x y]

end

/-- Settles O52: the wet frame and the feedback come from what is read at the new delays, which do not depend on the input;
the other registers are those of the sample before. -/
theorem wetOutputIgnoresThisFramesInput : Obligations.WetOutputIgnoresThisFramesInput := fun P e x y => by
  cases e with
  | hall h =>
    have hregs := congr (congrArg (EngineRegs.hall · · h.base h.decay) (h.sample_fb_congr P x y))
      (h.sample_dcur_congr P x y)
    exact ⟨h.sample_wet_congr P x y, hregs, rfl⟩
  | plate p =>
    exact ⟨p.sample_wet_congr P x y, congrArg (EngineRegs.plate · p.base p.g p.preD) (p.sample_dcur_congr P x y), rfl⟩

end Sys2Proof.Machine
end
